-- ==== Sys2Proof/Word.lean ====
section
/-! DEFINITION. The widths of the block (spec/00_scope.md R7, spec/10_state.md): a byte and a channel, a
register word, a coordinate. -/

namespace Sys2Proof

/-- A byte or a channel: "unsigned 8-bit integer" (00_scope.md R7). -/
abbrev Byte := BitVec 8

/-- A 32-bit register, a command word, a host word (20_memory.md R66, 30_encoding.md R92). -/
abbrev Word := BitVec 32

/-- The storage of a coordinate or dimension register: COORD_BITS is at most 24 (00_scope.md R6), so
24 bits hold every value and a COORD operand compares with it as it is (30_encoding.md R95). -/
abbrev Coord := BitVec 24

end Sys2Proof
end

