-- ==== Sys2Proof/Config.lean ====
section
/-! DEFINITION. What the spec leaves to the implementation (the four OPEN parameters of
spec/00_scope.md R6) and the free values (random bits, host draws). The free values are uninterpreted:
no proof sees a value of them (notes/assumptions/2.md, 5.md). -/

namespace Sys2Proof

/-- The parameters of 00_scope.md R6, with their constraints. A state carries them, so a statement
about every state is a statement about every legal choice of them. -/
structure Params where
  /-- TERMINATOR, the sentinel byte (10_state.md R27). -/
  terminator : Byte
  /-- COORD_BITS, the width of a coordinate register. -/
  coordBits : Nat
  /-- PBUF_MAX, the capacity in bytes of the payload buffer. -/
  pbufMax : Nat
  /-- MBUF_MAX, the capacity in bytes of the recovered-message buffer. -/
  mbufMax : Nat
  /-- The constraints R6 puts on them. -/
  legal : (1 ≤ coordBits ∧ coordBits ≤ 24) ∧ (1 ≤ pbufMax ∧ pbufMax ≤ 2 ^ 28) ∧
    (1 ≤ mbufMax ∧ mbufMax ≤ 2 ^ 28)
  deriving DecidableEq, Repr

/-- TERMINATOR of the machine at reset: OPEN, "the source never gives its value" (R6). -/
opaque Config.terminator : Byte

/-- COORD_BITS − 1 of the machine at reset: OPEN, 0 to 23. -/
opaque Config.coordBitsPred : Fin 24

/-- PBUF_MAX − 1 of the machine at reset: OPEN, 0 to 2^28 − 1. -/
opaque Config.pbufMaxPred : BitVec 28

/-- MBUF_MAX − 1 of the machine at reset: OPEN, 0 to 2^28 − 1. -/
opaque Config.mbufMaxPred : BitVec 28

/-- The parameters of the machine at reset, each uninterpreted within its constraint. -/
def Config.params : Params where
  terminator := Config.terminator
  coordBits := Config.coordBitsPred.val + 1
  pbufMax := Config.pbufMaxPred.toNat + 1
  mbufMax := Config.mbufMaxPred.toNat + 1
  legal := ⟨⟨Nat.le_add_left _ _, Config.coordBitsPred.isLt⟩,
    ⟨Nat.le_add_left _ _, Config.pbufMaxPred.isLt⟩, ⟨Nat.le_add_left _ _, Config.mbufMaxPred.isLt⟩⟩

/-- The value of the n-th draw when it is a RandBit (20_memory.md R65): free, under no law. -/
opaque Config.randBit : Nat → Bool

/-- The value of the n-th draw when it answers a host read of an unspecified register or byte
(10_state.md R21, 20_memory.md R68): free, "any value". -/
opaque Config.hostDraw : Nat → Word

end Sys2Proof
end

