-- ==== Sys2Proof/Machine/State.lean ====
section
/-! DEFINITION. The state of the block (spec/10_state.md R20, R45), the pixel buffer and the environment
beside it, the reasons a step can stop, and the state after reset. -/

namespace Sys2Proof.Machine

/-- A pixel: four 8-bit channels in the order (r, g, b, a) (20_memory.md R60, R69). -/
structure Pixel where
  r : Byte
  g : Byte
  b : Byte
  a : Byte
  deriving DecidableEq, Repr

/-- The 14 result codes of 60_exceptions.md R280; no other value is ever produced. -/
inductive ResultCode where
  | ok
  | encDone
  | found
  | errIllegal
  | errSeq
  | errLength
  | errDigit
  | errEmpty
  | errExhausted
  | errCapacity
  | errNoMorePixels
  | errNotFound
  | errPlen
  | errMbufOverflow
  deriving DecidableEq, Repr

/-- STATUS.EPH, the encoder phase (10_state.md R37). -/
inductive EncPhase where
  | idle
  | payload
  | padding
  | done
  | error
  deriving DecidableEq, Repr

/-- STATUS.DPH, the decoder phase (10_state.md R37). -/
inductive DecPhase where
  | idle
  | running
  | found
  | notFound
  | error
  deriving DecidableEq, Repr

/-- The registers that can be UNSPEC and that a command reads (10_state.md R21, 60_exceptions.md R290,
70_reset_and_hazards.md R324). -/
inductive UnspecReg where
  | byte
  | seq
  | str0
  | str1
  deriving DecidableEq, Repr

/-- Memory held as data: (address, byte) pairs, addresses strictly rising, no pair equal to what an
unlisted address reads as (`Memory.wf` in Machine/Ops.lean). -/
abbrev Memory := List Host.Cell

/-- What the environment does next: the host's transactions (30_encoding.md R90), its polling and
tests (R102), the image-access layer's moves between walks (70_reset_and_hazards.md R334), the reset
input (R320). notes/assumptions/7.md. -/
inductive Move where
  /-- HostRead of `width` bits at `addr`. -/
  | read (addr : Word) (width : Nat)
  /-- HostWrite of `width` bits at `addr`. -/
  | write (addr : Word) (width : Nat) (data : Word)
  /-- The environment lets one sequencer step go first. -/
  | pass
  /-- WAIT: repeat RD STATUS until STATUS.BUSY = 0. -/
  | wait
  /-- The host tests the word it read last: unless its bits under `mask` are `value`, it leaves out
  its next `n` moves (the "if" of ENCODE and DECODE). -/
  | test (mask value : Word) (n : Nat)
  /-- The reset input. -/
  | reset
  /-- The image layer opens an image of `w` by `h` pixels. -/
  | openImage (w h : Coord)
  /-- The image layer writes a pixel. -/
  | putPixel (x y : Coord) (p : Pixel)
  /-- The image layer reads a pixel. -/
  | getPixel (x y : Coord)
  deriving DecidableEq, Repr

/-- STATUS (offset 0x004), field by field (10_state.md R24); reserved bits have no storage. -/
structure Status where
  /-- [7:0] RESULT. -/
  result : ResultCode
  /-- [8] EQ. -/
  eq : Bool
  /-- [9] LT. -/
  lt : Bool
  /-- [10] IB. -/
  ib : Bool
  /-- [11] EXH, the cursor is exhausted (R34). -/
  exh : Bool
  /-- [12] BUSY (R39). -/
  busy : Bool
  /-- [13] DROP (R39). -/
  drop : Bool
  /-- [18:16] EPH. -/
  eph : EncPhase
  /-- [22:20] DPH. -/
  dph : DecPhase
  deriving DecidableEq, Repr

/-- The Byte unit's registers and, for each, whether a writer has run since reset: a register whose
mark is false is UNSPEC (10_state.md R21, R29 to R31, 70_reset_and_hazards.md R324). -/
structure ByteUnit where
  /-- BYTE.B (R29). -/
  b : Byte
  bSet : Bool
  /-- SEQ.SEQ_V (R30). -/
  seqV : BitVec 16
  /-- SEQ.SEQ_LEN (R30). -/
  seqLen : BitVec 5
  seqSet : Bool
  /-- STR0, characters c0 to c3 (R31). -/
  str0 : Word
  str0Set : Bool
  /-- STR1, characters c4 to c7 (R31). -/
  str1 : Word
  str1Set : Bool
  deriving DecidableEq, Repr

/-- The plain registers the host writes. -/
structure HostRegs where
  /-- WIDTH (10_state.md R26). -/
  width : Coord
  /-- HEIGHT (R26). -/
  height : Coord
  /-- PLEN (R28). -/
  plen : Word
  deriving DecidableEq, Repr

/-- The cursor (10_state.md R32, R33, R35); STATUS.EXH is its exhausted condition. -/
structure Cursor where
  /-- CUR_X. -/
  x : Coord
  /-- CUR_Y. -/
  y : Coord
  /-- WL, the latched width. -/
  wl : Coord
  /-- HL, the latched height. -/
  hl : Coord
  /-- CAP = {CAP_HI, CAP_LO}. -/
  cap : BitVec 64
  deriving DecidableEq, Repr

/-- The encoder's registers (10_state.md R36). -/
structure Encoder where
  /-- ENC_I, the index of the next payload bit. -/
  i : Word
  /-- ENC_L, the payload's bit length. -/
  l : Word
  /-- ENC_N (internal), the latched ciphertext length. -/
  n : Word
  deriving DecidableEq, Repr

/-- ACC (10_state.md R41) and MLEN (R42). -/
structure Decoder where
  accV : Byte
  accLen : BitVec 4
  spillV : BitVec 2
  spillLen : BitVec 2
  mlen : Word
  deriving DecidableEq, Repr

/-- The image the image-access layer holds open: dimensions(handle) and its channels
(20_memory.md R60). Not block state (10_state.md R20). -/
structure Image where
  w : Coord
  h : Coord
  mem : Memory
  deriving DecidableEq, Repr

/-- Outside the block, the model's own: what the environment still does (oldest first), what it was
answered last, and how many free values have been drawn (notes/assumptions/5.md, 7.md). -/
structure Env where
  moves : List Move
  /-- The word the last HostRead returned. -/
  rdata : Option Word
  /-- The pixel the image layer read last. -/
  pixOut : Option Pixel
  draws : Nat
  deriving DecidableEq, Repr

/-- The machine: the block's state of 10_state.md R20, and the image and environment it meets. -/
structure State where
  /-- The parameters of 00_scope.md R6; TERM (10_state.md R27) reads `params.terminator`. -/
  params : Params
  /-- CMDR, the latched command word (R23). -/
  cmdr : Word
  status : Status
  bu : ByteUnit
  regs : HostRegs
  cur : Cursor
  enc : Encoder
  dec : Decoder
  /-- PBUF (20_memory.md R67). -/
  pbuf : Memory
  /-- MBUF (20_memory.md R68). -/
  mbuf : Memory
  image : Image
  env : Env
  /-- "fault recorded" (70_reset_and_hazards.md R325): the first register that a command has read while UNSPEC,
  since reset (10_state.md R21, 60_exceptions.md R290). The run goes on (notes/assumptions/1.md). -/
  unspecRead : Option UnspecReg
  deriving DecidableEq, Repr

/-- Why a step stops with a fault. -/
inductive Fault where
  /-- ENC_STEP or ENC_RUN needs PBUF[index] and no writer has set it since reset: "A PBUF byte that is
  UNSPEC makes the model fault" (42_encoder.md R202). Safe: the model stops where the block would
  embed an unspecified bit. -/
  | pbufUnspec (index : Nat)
  /-- ENC_STEP or ENC_RUN needs a payload byte past the terminator: R202 gives bits only below ENC_L =
  8·(ENC_N + 1). Safe: no state that meets the invariant gets here (notes/assumptions/8.md). -/
  | pastPayload (index : Nat)
  /-- A pixel access at a coordinate the open image does not have (20_memory.md R60), by ENC_STEP,
  ENC_RUN, DEC_STEP, DEC_RUN or the image layer. Safe: the model stops (notes/assumptions/4.md). -/
  | pixelOutsideImage (x y : Coord)
  /-- The image layer would touch the pixel buffer during a walk: it has no such move (20_memory.md
  R74, 93_implementation_defined.md I16), so the run is stuck. Safe: the model stops, and R334 makes
  it the host's duty that this never happens. -/
  | noPixelMove
  deriving DecidableEq, Repr

/-- Why a step is refused. -/
inductive Refusal where
  /-- An arm of `exec` that has no meaning yet; no arm answers it. Safe: nothing is claimed. -/
  | notModelled (mnemonic : String)
  /-- A host access that is not an aligned 32-bit word: "A model refuses it" (20_memory.md R71). Safe:
  "errs toward unprovable". -/
  | hostAccess (addr : Word) (width : Nat)
  deriving DecidableEq, Repr

/-- The machine right after reset: 10_state.md R45 for every element with a number there. CMDR, BYTE,
SEQ, STR0 and STR1 are UNSPEC: each holds 0 and is marked unwritten, and no read of one is recorded
(notes/assumptions/1.md). PBUF and
MBUF are UNSPEC: nothing listed (3.md). No image is open (4.md); the environment does nothing (7.md). -/
def State.reset : State where
  params := Config.params
  cmdr := 0
  status := { result := .ok, eq := false, lt := false, ib := false, exh := false, busy := false,
              drop := false, eph := .idle, dph := .idle }
  bu := { b := 0, bSet := false, seqV := 0, seqLen := 0, seqSet := false, str0 := 0,
          str0Set := false, str1 := 0, str1Set := false }
  regs := { width := 0, height := 0, plen := 0 }
  cur := { x := 0, y := 0, wl := 0, hl := 0, cap := 0 }
  enc := { i := 0, l := 0, n := 0 }
  dec := { accV := 0, accLen := 0, spillV := 0, spillLen := 0, mlen := 0 }
  pbuf := []
  mbuf := []
  image := { w := 0, h := 0, mem := [] }
  env := { moves := [], rdata := none, pixOut := none, draws := 0 }
  unspecRead := none

end Sys2Proof.Machine
end

