-- ==== Sys2Proof/Machine/Flags.lean ====
section
/-! DEFINITION. STATUS: the codes of its fields (spec/60_exceptions.md R280, spec/10_state.md R24, R37),
the word the host reads, the phases' predicates, and every flag computation (10_state.md R25). -/

namespace Sys2Proof.Machine

/-- The numeric code of a result (60_exceptions.md R280). -/
def ResultCode.code : ResultCode → BitVec 8
  | .ok => 0x00
  | .encDone => 0x01
  | .found => 0x02
  | .errIllegal => 0x10
  | .errSeq => 0x11
  | .errLength => 0x12
  | .errDigit => 0x13
  | .errEmpty => 0x14
  | .errExhausted => 0x15
  | .errCapacity => 0x16
  | .errNoMorePixels => 0x17
  | .errNotFound => 0x18
  | .errPlen => 0x19
  | .errMbufOverflow => 0x1A

/-- The encoding of EPH (10_state.md R37). -/
def EncPhase.code : EncPhase → BitVec 3
  | .idle => 0
  | .payload => 1
  | .padding => 2
  | .done => 3
  | .error => 4

/-- The encoding of DPH (10_state.md R37). -/
def DecPhase.code : DecPhase → BitVec 3
  | .idle => 0
  | .running => 1
  | .found => 2
  | .notFound => 3
  | .error => 4

/-- EPH ∈ {PAYLOAD, PADDING}: an encode walk is active. -/
def EncPhase.active : EncPhase → Bool
  | .payload => true
  | .padding => true
  | .idle => false
  | .done => false
  | .error => false

/-- DPH = RUNNING: a decode walk is active. -/
def DecPhase.active : DecPhase → Bool
  | .running => true
  | .idle => false
  | .found => false
  | .notFound => false
  | .error => false

/-- The word of STATUS (10_state.md R24): reserved bits [15:14], [19] and [31:23] read 0. -/
def Status.word (st : Status) : Word :=
  0#9 ++ st.dph.code ++ 0#1 ++ st.eph.code ++ 0#2 ++ BitVec.ofBool st.drop ++ BitVec.ofBool st.busy ++
    BitVec.ofBool st.exh ++ BitVec.ofBool st.ib ++ BitVec.ofBool st.lt ++ BitVec.ofBool st.eq ++
    st.result.code

/-- "walk active" of 41_cursor.md R180: EPH in {PAYLOAD, PADDING} or DPH = RUNNING. -/
def Status.walkActive (st : Status) : Bool := st.eph.active || st.dph.active

/-- 40_byte_unit.md R141: EQ and LT of comparing `b` with IMM8, unsigned. -/
def Status.compare (b imm8 : Byte) (st : Status) : Status :=
  { st with eq := b == imm8, lt := decide (b.toNat < imm8.toNat) }

/-- 41_cursor.md R176, R177: IB, "COORD < WL" or "COORD < HL". -/
def Status.inBounds (coord dim : Coord) (st : Status) : Status :=
  { st with ib := decide (coord.toNat < dim.toNat) }

/-- 10_state.md R34: the cursor is exhausted, or is not any more. -/
def Status.setExh (v : Bool) (st : Status) : Status := { st with exh := v }

/-- STATUS as reset and SOFT_RESET leave it (10_state.md R45, 44_control.md R261): 0x0000_0000. -/
def Status.zero : Status :=
  { result := .ok, eq := false, lt := false, ib := false, exh := false, busy := false,
    drop := false, eph := .idle, dph := .idle }

end Sys2Proof.Machine
end

