-- ==== Sys2Proof/Machine/Operands.lean ====
section
/-! DEFINITION. The pure operand functions of the spec: bit sequences and folds (00_scope.md R10), byte
lanes (20_memory.md R67, R70), store_bit (40_byte_unit.md R131), the binary string (R138, R139), SEQ
masking (R137), coordinate storage (10_state.md R26), triplets (43_decoder.md R242), pushes (10_state.md
R41). -/

namespace Sys2Proof.Machine

/-- `fold` of R10: `fold([]) = 0`, `fold(s ++ [b]) = 2*fold(s) + b`. -/
def fold (s : List Bool) : Nat := s.foldl (fun acc b => 2 * acc + b.toNat) 0

/-- `to_seq(v)` of R10: the bits of a byte, most-significant bit first. -/
def toSeq (v : Byte) : List Bool :=
  [v.getLsbD 7, v.getLsbD 6, v.getLsbD 5, v.getLsbD 4, v.getLsbD 3, v.getLsbD 2, v.getLsbD 1,
   v.getLsbD 0]

/-- `lsb(c)` of 00_scope.md R11. -/
def lsb (c : Byte) : Bool := c.getLsbD 0

/-- 40_byte_unit.md R131: `store_bit(c, b) = (c & 0xFE) | b`. -/
def storeBit (c : Byte) (b : Bool) : Byte := (c &&& 0xFE#8) ||| (BitVec.ofBool b).setWidth 8

/-- Byte lane j of a host word: bits [8j+7:8j] (20_memory.md R70). -/
def lane (w : Word) (j : Nat) : Byte := w.extractLsb' (8 * j) 8

/-- The host word with the given byte lanes, lane 0 first (20_memory.md R70). -/
def ofLanes (b0 b1 b2 b3 : Byte) : Word := b3 ++ b2 ++ b1 ++ b0

/-- The characters c0 .. c7 of STR0 and STR1 (10_state.md R31). -/
def chars (str0 str1 : Word) : List Byte :=
  [lane str0 0, lane str0 1, lane str0 2, lane str0 3, lane str1 0, lane str1 1, lane str1 2,
   lane str1 3]

/-- 40_byte_unit.md R138: 0x30 is the digit 0, 0x31 the digit 1, no other code is a digit. -/
def digit (c : Byte) : Option Bool :=
  if c = 0x30#8 then some false else if c = 0x31#8 then some true else none

/-- R138: the digits of a string, none if some character is not one. -/
def digits : List Byte → Option (List Bool)
  | [] => some []
  | c :: cs =>
    match digit c, digits cs with
    | some d, some ds => some (d :: ds)
    | _, _ => none

/-- 40_byte_unit.md R139: the character of one bit, `0x30 + b`. -/
def digitChar (b : Bool) : Byte := 0x30#8 + (BitVec.ofBool b).setWidth 8

/-- R139: STR0 after BYTE_TO_STR, characters of bits 7 to 4, the leftmost in lane 0. -/
def strHi (v : Byte) : Word :=
  ofLanes (digitChar (v.getLsbD 7)) (digitChar (v.getLsbD 6)) (digitChar (v.getLsbD 5))
    (digitChar (v.getLsbD 4))

/-- R139: STR1 after BYTE_TO_STR, characters of bits 3 to 0. -/
def strLo (v : Byte) : Word :=
  ofLanes (digitChar (v.getLsbD 3)) (digitChar (v.getLsbD 2)) (digitChar (v.getLsbD 1))
    (digitChar (v.getLsbD 0))

/-- 40_byte_unit.md R137: `SEQ & (2^LEN - 1)`; also `SEQ_V[SEQ_LEN-1:0]` of R136. -/
def seqBits (v : BitVec 16) (len : BitVec 5) : BitVec 16 := BitVec.ofNat 16 (v.toNat % 2 ^ len.toNat)

/-- The low COORD_BITS bits of a value, the part WIDTH, HEIGHT, WL and HL keep (10_state.md R26, R33). -/
def coordBitsOf (p : Params) (v : Nat) : Coord := BitVec.ofNat 24 (v % 2 ^ p.coordBits)

/-- `capacity_bits()` of 41_cursor.md R178: `3 * WL * HL`, exact (00_scope.md R12). -/
def capacityBits (wl hl : Coord) : Nat := 3 * wl.toNat * hl.toNat

/-- The payload's bit length `L = 8 * (n + 1)` (10_state.md R36, 42_encoder.md R201). -/
def payloadBits (n : Nat) : Nat := 8 * (n + 1)

/-- The linear index `p = y*W + x` of a coordinate (20_memory.md R64). -/
def linear (w x y : Coord) : Nat := y.toNat * w.toNat + x.toNat

/-- 43_decoder.md R242: the triplet of a pixel, (lsb(r), lsb(g), lsb(b)). -/
def Pixel.triplet (p : Pixel) : Bool × Bool × Bool := (lsb p.r, lsb p.g, lsb p.b)

/-- 10_state.md R41, push on the accumulator: `ACC_V <- 2*ACC_V + b; ACC_LEN <- ACC_LEN + 1`. -/
def Decoder.pushAcc (d : Decoder) (b : Bool) : Decoder :=
  { d with accV := BitVec.ofNat 8 (2 * d.accV.toNat + b.toNat), accLen := d.accLen + 1 }

/-- R41, the same for the spillover. -/
def Decoder.pushSpill (d : Decoder) (b : Bool) : Decoder :=
  { d with spillV := BitVec.ofNat 2 (2 * d.spillV.toNat + b.toNat), spillLen := d.spillLen + 1 }

/-- 43_decoder.md R243: "reset accumulator to the spillover buffer's contents", "clear spillover". -/
def Decoder.spillToAcc (d : Decoder) : Decoder :=
  { d with accV := d.spillV.setWidth 8, accLen := d.spillLen.setWidth 4, spillV := 0, spillLen := 0 }

/-- 41_cursor.md R173: the next coordinate in raster order, none at the final one. -/
def Cursor.next (c : Cursor) : Option Cursor :=
  if c.x.toNat + 1 < c.wl.toNat then some { c with x := c.x + 1 }
  else if c.y.toNat + 1 < c.hl.toNat then some { c with x := 0, y := c.y + 1 }
  else none

/-- 41_cursor.md R172: the latched image has no pixel. -/
def Cursor.empty (c : Cursor) : Bool := c.wl == 0 || c.hl == 0

end Sys2Proof.Machine
end

