-- ==== Sys2Proof/Machine/Ops.lean ====
section
/-! DEFINITION. The named operations over the state: the end of a step (spec/60_exceptions.md R281, the
block's whole "exception entry": R287), UNSPEC reads, draws, memory, the two ports, the cursor, reset. -/

namespace Sys2Proof.Machine

/-! The end of a command step. The block has no trap (60_exceptions.md R287): success and failure both
end here, with the state the step's pseudocode has written. -/

/-- `finish(CODE)` (00_scope.md R11): `STATUS.RESULT <- CODE`, nothing else. -/
def State.finish (c : ResultCode) (s : State) : State :=
  { s with status := { s.status with result := c } }

/-- The BUSY update of 10_state.md R38. -/
def State.setBusy (b : Bool) (s : State) : State := { s with status := { s.status with busy := b } }

/-- `finish(CODE); BUSY <- 0`: the end of every command but a RUN that goes on. -/
def State.endStep (c : ResultCode) (s : State) : State := (s.finish c).setBusy false

/-- 60_exceptions.md R282: the outcome of an illegal word. -/
def State.illegal (s : State) : State := s.endStep .errIllegal

/-! UNSPEC reads and free values. -/

/-- Is the register UNSPEC: no writer since reset (10_state.md R21, 70_reset_and_hazards.md R324). -/
def ByteUnit.unspec (u : ByteUnit) : UnspecReg → Bool
  | .byte => !u.bSet
  | .seq => !u.seqSet
  | .str0 => !u.str0Set
  | .str1 => !u.str1Set

/-- `t` with the fault of 10_state.md R21 recorded, "naming the register": the first of `rs` that is UNSPEC in
`s`, unless one is recorded already (60_exceptions.md R290). -/
def State.noteRead (rs : List UnspecReg) (s t : State) : State :=
  { t with unspecRead := s.unspecRead.or (rs.find? s.bu.unspec) }

/-- A command that reads the registers `rs`, in that order, in `s` and goes to `t`: it goes on with what they
hold, and the read of an UNSPEC one is recorded (notes/assumptions/1.md). -/
def State.reading (rs : List UnspecReg) (s t : State) : Host.Outcome State Fault Refusal :=
  .next (s.noteRead rs t)

/-- `k` free values are drawn. -/
def State.draw (k : Nat) (s : State) : State :=
  { s with env := { s.env with draws := s.env.draws + k } }

/-- The `j`-th RandBit the next step draws (20_memory.md R65): free. -/
def State.randBit (j : Nat) (s : State) : Bool := Config.randBit (s.env.draws + j)

/-! Memory. -/

/-- The three memories: the payload buffer, the recovered-message buffer, the pixel channels. -/
inductive Space where
  | pbuf
  | mbuf
  | pixels
  deriving DecidableEq, Repr

/-- What an unlisted address reads as: nothing in the buffers (UNSPEC, 10_state.md R45;
notes/assumptions/3.md), 0x00 in the image (4.md). -/
def Space.unlisted : Space → Option Byte
  | .pbuf => none
  | .mbuf => none
  | .pixels => some 0

/-- The listed byte at an address. -/
def Memory.lookup : Memory → Nat → Option Byte
  | [], _ => none
  | (k, v) :: m, a => if a = k then some v else Memory.lookup m a

/-- The byte at an address, none where it has no value. -/
def Memory.read (sp : Space) (m : Memory) (a : Nat) : Option Byte :=
  match Memory.lookup m a with
  | some v => some v
  | none => sp.unlisted

/-- List `v` at `a`, in address order. -/
def Memory.insert : Memory → Nat → Byte → Memory
  | [], a, v => [(a, v)]
  | (k, w) :: m, a, v =>
    if a < k then (a, v) :: (k, w) :: m
    else if a = k then (a, v) :: m
    else (k, w) :: Memory.insert m a v

/-- List nothing at `a`. -/
def Memory.erase : Memory → Nat → Memory
  | [], _ => []
  | (k, w) :: m, a => if a = k then m else (k, w) :: Memory.erase m a

/-- Write a byte, keeping the canonical form: the value an unlisted address reads as is not listed. -/
def Memory.write (sp : Space) (m : Memory) (a : Nat) (v : Byte) : Memory :=
  if sp.unlisted = some v then Memory.erase m a else Memory.insert m a v

/-- Every listed address is above `a`, and the addresses rise strictly. -/
def Memory.risingFrom : Option Nat → Memory → Bool
  | _, [] => true
  | none, (k, _) :: m => Memory.risingFrom (some k) m
  | some b, (k, _) :: m => decide (b < k) && Memory.risingFrom (some k) m

/-- The canonical form: addresses strictly rising, no entry equal to what an unlisted address reads
as. -/
def Memory.wf (sp : Space) (m : Memory) : Bool :=
  Memory.risingFrom none m && m.all (fun c => decide (sp.unlisted ≠ some c.2))

/-! The pixel port (20_memory.md R60 to R62). -/

/-- The model's address of channel `c` (0 = r, 1 = g, 2 = b, 3 = a) of the pixel (x, y). -/
def chanKey (x y : Coord) (c : Nat) : Nat := (y.toNat * 2 ^ 24 + x.toNat) * 4 + c

/-- Does the open image have the coordinate (R60). -/
def Image.has (img : Image) (x y : Coord) : Bool :=
  decide (x.toNat < img.w.toNat) && decide (y.toNat < img.h.toNat)

/-- One channel of a pixel. -/
def Image.chan (img : Image) (x y : Coord) (c : Nat) : Byte :=
  (Memory.read .pixels img.mem (chanKey x y c)).getD 0

/-- `PixRead(x, y)` (R61). -/
def Image.pixRead (img : Image) (x y : Coord) : Pixel :=
  { r := img.chan x y 0, g := img.chan x y 1, b := img.chan x y 2, a := img.chan x y 3 }

/-- Write one channel of a pixel. -/
def Image.setChan (img : Image) (x y : Coord) (c : Nat) (v : Byte) : Image :=
  { img with mem := Memory.write .pixels img.mem (chanKey x y c) v }

/-- `PixWrite(x, y, (r, g, b, a))` (R62): all four channels. -/
def Image.pixWrite (img : Image) (x y : Coord) (p : Pixel) : Image :=
  (((img.setChan x y 0 p.r).setChan x y 1 p.g).setChan x y 2 p.b).setChan x y 3 p.a

/-- The pixel at the cursor. -/
def State.curPixel (s : State) : Pixel := s.image.pixRead s.cur.x s.cur.y

/-- PixWrite at the cursor. -/
def State.putCurPixel (p : Pixel) (s : State) : State :=
  { s with image := s.image.pixWrite s.cur.x s.cur.y p }

/-! The cursor functions (41_cursor.md section 1). -/

/-- `cursor_init()` (R171): latch the dimensions, (0, 0), EXH <- 0. -/
def State.cursorInit (s : State) : State :=
  { s with
    cur := { s.cur with
      wl := coordBitsOf s.params s.regs.width.toNat
      hl := coordBitsOf s.params s.regs.height.toNat
      x := 0
      y := 0 }
    status := s.status.setExh false }

/-- The state after `advance()` (R173): the next coordinate, or EXH <- 1 at the final one. -/
def State.advance (s : State) : State :=
  match s.cur.next with
  | some c => { s with cur := c }
  | none => { s with status := s.status.setExh true }

/-- Does `advance()` return ok (R173). -/
def State.advanceOk (s : State) : Bool := s.cur.next.isSome

/-! The Byte unit's writers (10_state.md R29 to R31, 70_reset_and_hazards.md R324). -/

/-- BYTE.B is set. -/
def State.putByte (v : Byte) (s : State) : State := { s with bu := { s.bu with b := v, bSet := true } }

/-- B is modified: one that is UNSPEC stays so (10_state.md R29, 70_reset_and_hazards.md R324;
notes/assumptions/16.md). -/
def State.modifyByte (v : Byte) (s : State) : State := { s with bu := { s.bu with b := v } }

/-- SEQ is set. -/
def State.putSeq (v : BitVec 16) (len : BitVec 5) (s : State) : State :=
  { s with bu := { s.bu with seqV := v, seqLen := len, seqSet := true } }

/-- STR0 is set, by the host or by BYTE_TO_STR. -/
def State.putStr0 (w : Word) (s : State) : State :=
  { s with bu := { s.bu with str0 := w, str0Set := true } }

/-- STR1 is set, by the host or by BYTE_TO_STR. -/
def State.putStr1 (w : Word) (s : State) : State :=
  { s with bu := { s.bu with str1 := w, str1Set := true } }

/-! Phases and resets. -/

/-- STATUS.EPH <- p. -/
def State.setEph (p : EncPhase) (s : State) : State := { s with status := { s.status with eph := p } }

/-- STATUS.DPH <- p. -/
def State.setDph (p : DecPhase) (s : State) : State := { s with status := { s.status with dph := p } }

/-- The state a reset event leaves (70_reset_and_hazards.md R320): every element of 10_state.md R45 at
its reset value. The parameters, the pixel buffer and the environment are not block state. -/
def State.resetEvent (s : State) : State :=
  { State.reset with params := s.params, image := s.image, env := s.env }

/-- The state SOFT_RESET leaves (44_control.md R261). -/
def State.softReset (s : State) : State :=
  { s with
    status := Status.zero
    cur := { x := 0, y := 0, wl := 0, hl := 0, cap := 0 }
    enc := { i := 0, l := 0, n := 0 }
    dec := { accV := 0, accLen := 0, spillV := 0, spillLen := 0, mlen := 0 } }

end Sys2Proof.Machine
end

