-- ==== Sys2Proof/Machine/RegisterPort.lean ====
section
/-! DEFINITION. The host register port: the address map of spec/30_encoding.md R93, HostRead and
HostWrite (R90, R91), the buffer windows (spec/20_memory.md R67, R68), reserved addresses (R79). -/

namespace Sys2Proof.Machine

/-- The registers of R93. -/
inductive PortReg where
  | cmd | status | byte | seq | str0 | str1 | width | height | curX | curY | wl | hl | capLo | capHi
  | term | plen | encI | encL | acc | mlen
  deriving DecidableEq, Repr

/-- What an address selects; a buffer word is given by the index of its lane 0. -/
inductive Target where
  | reg (r : PortReg)
  | pbuf (index : Nat)
  | mbuf (index : Nat)
  | reserved
  deriving DecidableEq, Repr

/-- The offsets of R93. -/
def portReg (addr : Word) : Option PortReg :=
  match addr with
  | 0x000#32 => some .cmd
  | 0x004#32 => some .status
  | 0x008#32 => some .byte
  | 0x00C#32 => some .seq
  | 0x010#32 => some .str0
  | 0x014#32 => some .str1
  | 0x018#32 => some .width
  | 0x01C#32 => some .height
  | 0x020#32 => some .curX
  | 0x024#32 => some .curY
  | 0x028#32 => some .wl
  | 0x02C#32 => some .hl
  | 0x030#32 => some .capLo
  | 0x034#32 => some .capHi
  | 0x038#32 => some .term
  | 0x03C#32 => some .plen
  | 0x040#32 => some .encI
  | 0x044#32 => some .encL
  | 0x048#32 => some .acc
  | 0x04C#32 => some .mlen
  | _ => none

/-- Base of the PBUF window (20_memory.md R66). -/
def pbufBase : Nat := 0x10000000

/-- Base of the MBUF window (20_memory.md R66). -/
def mbufBase : Nat := 0x20000000

/-- The address map: registers, "0 ≤ 4k < PBUF_MAX", "0 ≤ 4k < MBUF_MAX", everything else reserved
(R93, 20_memory.md R67, R68, R79). -/
def target (p : Params) (addr : Word) : Target :=
  match portReg addr with
  | some r => .reg r
  | none =>
    if pbufBase ≤ addr.toNat ∧ addr.toNat < pbufBase + p.pbufMax then .pbuf (addr.toNat - pbufBase)
    else if mbufBase ≤ addr.toNat ∧ addr.toNat < mbufBase + p.mbufMax then
      .mbuf (addr.toNat - mbufBase)
    else .reserved

/-- Is the access an aligned 32-bit word (20_memory.md R66, R71). -/
def aligned (addr : Word) (width : Nat) : Bool :=
  decide (width = 32) && decide (addr.toNat % 4 = 0)

/-- The word of ACC (10_state.md R41): [31:16] read 0. -/
def Decoder.accWord (d : Decoder) : Word := 0#16 ++ d.spillLen ++ d.spillV ++ d.accLen ++ d.accV

/-- What a read of a register returns; `draw` is used where the register is UNSPEC, in the bits that
are not reserved (10_state.md R21, R22 to R42). -/
def State.readReg (s : State) (draw : Word) : PortReg → Word
  | .cmd => 0
  | .status => s.status.word
  | .byte => (if s.bu.bSet then s.bu.b else draw.setWidth 8).setWidth 32
  | .seq =>
    (if s.bu.seqSet then s.bu.seqLen ++ s.bu.seqV else draw.setWidth 21 : BitVec 21).setWidth 32
  | .str0 => if s.bu.str0Set then s.bu.str0 else draw
  | .str1 => if s.bu.str1Set then s.bu.str1 else draw
  | .width => s.regs.width.setWidth 32
  | .height => s.regs.height.setWidth 32
  | .curX => s.cur.x.setWidth 32
  | .curY => s.cur.y.setWidth 32
  | .wl => s.cur.wl.setWidth 32
  | .hl => s.cur.hl.setWidth 32
  | .capLo => s.cur.cap.extractLsb' 0 32
  | .capHi => s.cur.cap.extractLsb' 32 32
  | .term => s.params.terminator.setWidth 32
  | .plen => s.regs.plen
  | .encI => s.enc.i
  | .encL => s.enc.l
  | .acc => s.dec.accWord
  | .mlen => s.dec.mlen

/-- Lane j of a PBUF word: 0 past PBUF_MAX, a draw if the byte is UNSPEC (20_memory.md R67,
10_state.md R21). -/
def State.pbufLane (s : State) (draw : Word) (index j : Nat) : Byte :=
  if s.params.pbufMax ≤ index + j then 0
  else (Memory.read .pbuf s.pbuf (index + j)).getD (lane draw j)

/-- Lane j of an MBUF word: 0 past MBUF_MAX, a draw at or above MLEN (20_memory.md R68). -/
def State.mbufLane (s : State) (draw : Word) (index j : Nat) : Byte :=
  if s.params.mbufMax ≤ index + j then 0
  else if s.dec.mlen.toNat ≤ index + j then lane draw j
  else (Memory.read .mbuf s.mbuf (index + j)).getD (lane draw j)

/-- The word a target returns (R90). -/
def State.readTarget (s : State) (draw : Word) : Target → Word
  | .reg r => s.readReg draw r
  | .pbuf i =>
    ofLanes (s.pbufLane draw i 0) (s.pbufLane draw i 1) (s.pbufLane draw i 2) (s.pbufLane draw i 3)
  | .mbuf i =>
    ofLanes (s.mbufLane draw i 0) (s.mbufLane draw i 1) (s.mbufLane draw i 2) (s.mbufLane draw i 3)
  | .reserved => 0

/-- `HostRead(addr)` (R90): the word goes to the host; "No read anywhere has a side effect"
(20_memory.md R72). Any other access is refused (R71). -/
def hostRead (addr : Word) (width : Nat) (s : State) : Host.Outcome State Fault Refusal :=
  if aligned addr width then
    .next { s with
      env := { s.env with
        rdata := some (s.readTarget (Config.hostDraw s.env.draws) (target s.params addr))
        draws := s.env.draws + 1 } }
  else .refused (.hostAccess addr width)

/-- A CMD write (R91, 10_state.md R39): accepted while BUSY = 0, dropped while BUSY = 1. -/
def State.issue (w : Word) (s : State) : State :=
  if s.status.busy then { s with status := { s.status with drop := true } }
  else { s with cmdr := w, status := { s.status with busy := true } }

/-- Write lane j of a PBUF word; a lane past PBUF_MAX ignores it (20_memory.md R67). -/
def State.putPbufLane (w : Word) (index j : Nat) (s : State) : State :=
  if s.params.pbufMax ≤ index + j then s
  else { s with pbuf := Memory.write .pbuf s.pbuf (index + j) (lane w j) }

/-- A write to a register: read-only registers ignore it (R90, R93). -/
def State.writeReg (s : State) (w : Word) : PortReg → State
  | .cmd => s.issue w
  | .str0 => s.putStr0 w
  | .str1 => s.putStr1 w
  | .width => { s with regs := { s.regs with width := coordBitsOf s.params w.toNat } }
  | .height => { s with regs := { s.regs with height := coordBitsOf s.params w.toNat } }
  | .plen => { s with regs := { s.regs with plen := w } }
  | .status => s
  | .byte => s
  | .seq => s
  | .curX => s
  | .curY => s
  | .wl => s
  | .hl => s
  | .capLo => s
  | .capHi => s
  | .term => s
  | .encI => s
  | .encL => s
  | .acc => s
  | .mlen => s

/-- A write to a target: MBUF and reserved addresses ignore it (20_memory.md R68, R79). -/
def State.writeTarget (s : State) (w : Word) : Target → State
  | .reg r => s.writeReg w r
  | .pbuf i =>
    (((s.putPbufLane w i 0).putPbufLane w i 1).putPbufLane w i 2).putPbufLane w i 3
  | .mbuf _ => s
  | .reserved => s

/-- `HostWrite(addr, word)` (R90). Any access that is not an aligned word is refused (20_memory.md
R71). -/
def hostWrite (addr : Word) (width : Nat) (w : Word) (s : State) :
    Host.Outcome State Fault Refusal :=
  if aligned addr width then .next (s.writeTarget w (target s.params addr))
  else .refused (.hostAccess addr width)

end Sys2Proof.Machine
end

