-- ==== Sys2Proof/Syntax.lean ====
section
/-! DEFINITION. The 24 commands of spec/30_encoding.md R96, one constructor per row of
spec/opcode_table.json. Operands are the fields of R94, assembled as R95 says. -/

namespace Sys2Proof

/-- A command of `bit_packer_3to8 command set v1`. -/
inductive Instr where
  /-- NOP, 44_control.md R260. -/
  | nop
  /-- BYTE_NEW IMM8, 40_byte_unit.md R130. -/
  | byteNew (imm8 : Byte)
  /-- BYTE_STORE_BIT BIT, 40_byte_unit.md R132. -/
  | byteStoreBit (bit : Bool)
  /-- BYTE_STORE_RANDOM_BIT, 40_byte_unit.md R133. -/
  | byteStoreRandomBit
  /-- BYTE_TO_SEQ, 40_byte_unit.md R134. -/
  | byteToSeq
  /-- BYTE_FROM_SEQ, 40_byte_unit.md R135. -/
  | byteFromSeq
  /-- BYTE_FROM_SEQ_BOUNDED, 40_byte_unit.md R136. -/
  | byteFromSeqBounded
  /-- SEQ_LOAD LEN, SEQ, 40_byte_unit.md R137. -/
  | seqLoad (len : BitVec 5) (seq : BitVec 16)
  /-- BYTE_FROM_STR, 40_byte_unit.md R138. -/
  | byteFromStr
  /-- BYTE_TO_STR, 40_byte_unit.md R139. -/
  | byteToStr
  /-- BYTE_CMP IMM8, 40_byte_unit.md R141. -/
  | byteCmp (imm8 : Byte)
  /-- CUR_INIT, 41_cursor.md R180. -/
  | curInit
  /-- CUR_ADVANCE, 41_cursor.md R174. -/
  | curAdvance
  /-- CUR_IN_BOUNDS_X COORD, 41_cursor.md R176. -/
  | curInBoundsX (coord : Coord)
  /-- CUR_IN_BOUNDS_Y COORD, 41_cursor.md R177. -/
  | curInBoundsY (coord : Coord)
  /-- CUR_CAPACITY, 41_cursor.md R178. -/
  | curCapacity
  /-- ENC_START, 42_encoder.md R201. -/
  | encStart
  /-- ENC_STEP, 42_encoder.md R203. -/
  | encStep
  /-- ENC_RUN, 42_encoder.md R207. -/
  | encRun
  /-- DEC_START, 43_decoder.md R241. -/
  | decStart
  /-- DEC_STEP, 43_decoder.md R247. -/
  | decStep
  /-- DEC_RUN, 43_decoder.md R248. -/
  | decRun
  /-- DEC_FEED t0, t1, t2, 43_decoder.md R249. -/
  | decFeed (t0 t1 t2 : Bool)
  /-- SOFT_RESET, 44_control.md R261. -/
  | softReset
  deriving DecidableEq, Repr

end Sys2Proof
end

