-- ==== Sys2Proof/WellFormed.lean ====
section
/-! DEFINITION. Which commands the block accepts: the one operand check of spec/30_encoding.md R97 that
the operand widths do not already make, LEN at most 16 in a Q word. -/

namespace Sys2Proof

/-- 30_encoding.md R95, R97: "LEN is a sequence length, 0 ≤ LEN ≤ 16". Every other operand fills its
field. -/
def Instr.wf : Instr → Bool
  | .seqLoad len _ => decide (len.toNat ≤ 16)
  | .nop => true
  | .byteNew _ => true
  | .byteStoreBit _ => true
  | .byteStoreRandomBit => true
  | .byteToSeq => true
  | .byteFromSeq => true
  | .byteFromSeqBounded => true
  | .byteFromStr => true
  | .byteToStr => true
  | .byteCmp _ => true
  | .curInit => true
  | .curAdvance => true
  | .curInBoundsX _ => true
  | .curInBoundsY _ => true
  | .curCapacity => true
  | .encStart => true
  | .encStep => true
  | .encRun => true
  | .decStart => true
  | .decStep => true
  | .decRun => true
  | .decFeed _ _ _ => true
  | .softReset => true

end Sys2Proof
end

