-- ==== Sys2Proof/Decode.lean ====
section
/-! DEFINITION. Decoding and encoding of command words, spec/30_encoding.md R92 to R98, and the opcode
table of R96 as data. -/

namespace Sys2Proof

/-- Why a word is ERR_ILLEGAL (30_encoding.md R97, R98). -/
inductive DecodeError where
  /-- OP has no row in R96. -/
  | reservedOp
  /-- A bit the format reserves as zero is set. -/
  | reservedBit
  /-- A Q word with LEN above 16. -/
  | seqLength
  deriving DecidableEq, Repr

/-- OP = w[31:26] (R92). -/
def opField (w : Word) : BitVec 6 := w.extractLsb' 26 6

/-- Format N: w[25:0] = 0. -/
def decodeN (i : Instr) (w : Word) : Except DecodeError Instr :=
  if w.extractLsb' 0 26 = 0 then .ok i else .error .reservedBit

/-- Format V8: IMM8 = w[7:0], w[25:8] = 0. -/
def decodeV8 (f : Byte → Instr) (w : Word) : Except DecodeError Instr :=
  if w.extractLsb' 8 18 = 0 then .ok (f (w.extractLsb' 0 8)) else .error .reservedBit

/-- Format BIT: BIT = w[0], w[25:1] = 0. -/
def decodeBit (f : Bool → Instr) (w : Word) : Except DecodeError Instr :=
  if w.extractLsb' 1 25 = 0 then .ok (f (w.getLsbD 0)) else .error .reservedBit

/-- Format Q: LEN = w[20:16], SEQ = w[15:0], w[25:21] = 0; LEN above 16 is illegal (R97). -/
def decodeQ (f : BitVec 5 → BitVec 16 → Instr) (w : Word) : Except DecodeError Instr :=
  if w.extractLsb' 21 5 ≠ 0 then .error .reservedBit
  else if 16 < (w.extractLsb' 16 5).toNat then .error .seqLength
  else .ok (f (w.extractLsb' 16 5) (w.extractLsb' 0 16))

/-- Format C24: COORD = w[23:0], w[25:24] = 0. -/
def decodeC24 (f : Coord → Instr) (w : Word) : Except DecodeError Instr :=
  if w.extractLsb' 24 2 = 0 then .ok (f (w.extractLsb' 0 24)) else .error .reservedBit

/-- Format T3: TRIP = w[2:0] with t0 = TRIP[0] (R95), w[25:3] = 0. -/
def decodeT3 (f : Bool → Bool → Bool → Instr) (w : Word) : Except DecodeError Instr :=
  if w.extractLsb' 3 23 = 0 then .ok (f (w.getLsbD 0) (w.getLsbD 1) (w.getLsbD 2))
  else .error .reservedBit

/-- R97: the command a word stands for, or why it is illegal. "A decoder finds the format from OP
alone" (R92). -/
def decode (w : Word) : Except DecodeError Instr :=
  match opField w with
  | 0x00#6 => decodeN .nop w
  | 0x01#6 => decodeV8 .byteNew w
  | 0x02#6 => decodeBit .byteStoreBit w
  | 0x03#6 => decodeN .byteStoreRandomBit w
  | 0x04#6 => decodeN .byteToSeq w
  | 0x05#6 => decodeN .byteFromSeq w
  | 0x06#6 => decodeN .byteFromSeqBounded w
  | 0x07#6 => decodeQ .seqLoad w
  | 0x08#6 => decodeN .byteFromStr w
  | 0x09#6 => decodeN .byteToStr w
  | 0x0A#6 => decodeV8 .byteCmp w
  | 0x10#6 => decodeN .curInit w
  | 0x11#6 => decodeN .curAdvance w
  | 0x12#6 => decodeC24 .curInBoundsX w
  | 0x13#6 => decodeC24 .curInBoundsY w
  | 0x14#6 => decodeN .curCapacity w
  | 0x20#6 => decodeN .encStart w
  | 0x21#6 => decodeN .encStep w
  | 0x22#6 => decodeN .encRun w
  | 0x28#6 => decodeN .decStart w
  | 0x29#6 => decodeN .decStep w
  | 0x2A#6 => decodeN .decRun w
  | 0x2B#6 => decodeT3 .decFeed w
  | 0x3F#6 => decodeN .softReset w
  | _ => .error .reservedOp

/-- The word of a command, field by field from R94 and R96 ({a, b} of 00_scope.md R9 is `a ++ b`). -/
def encode : Instr → Word
  | .nop => 0x00#6 ++ 0#26
  | .byteNew v => 0x01#6 ++ 0#18 ++ v
  | .byteStoreBit b => 0x02#6 ++ 0#25 ++ BitVec.ofBool b
  | .byteStoreRandomBit => 0x03#6 ++ 0#26
  | .byteToSeq => 0x04#6 ++ 0#26
  | .byteFromSeq => 0x05#6 ++ 0#26
  | .byteFromSeqBounded => 0x06#6 ++ 0#26
  | .seqLoad len seq => 0x07#6 ++ 0#5 ++ len ++ seq
  | .byteFromStr => 0x08#6 ++ 0#26
  | .byteToStr => 0x09#6 ++ 0#26
  | .byteCmp v => 0x0A#6 ++ 0#18 ++ v
  | .curInit => 0x10#6 ++ 0#26
  | .curAdvance => 0x11#6 ++ 0#26
  | .curInBoundsX c => 0x12#6 ++ 0#2 ++ c
  | .curInBoundsY c => 0x13#6 ++ 0#2 ++ c
  | .curCapacity => 0x14#6 ++ 0#26
  | .encStart => 0x20#6 ++ 0#26
  | .encStep => 0x21#6 ++ 0#26
  | .encRun => 0x22#6 ++ 0#26
  | .decStart => 0x28#6 ++ 0#26
  | .decStep => 0x29#6 ++ 0#26
  | .decRun => 0x2A#6 ++ 0#26
  | .decFeed t0 t1 t2 => 0x2B#6 ++ 0#23 ++ BitVec.ofBool t2 ++ BitVec.ofBool t1 ++ BitVec.ofBool t0
  | .softReset => 0x3F#6 ++ 0#26

/-- A row of the opcode map R96: the mnemonic, `match` ("the word with all operand fields zero") and
`mask` ("a 1 in every bit fixed by the format"). -/
structure OpcodeRow where
  mnemonic : String
  matchWord : Word
  mask : Word
  deriving DecidableEq, Repr

/-- The rows of R96 for the Byte unit and NOP. -/
def opcodeRowsByte : List OpcodeRow :=
  [⟨"NOP", 0x00000000, 0xFFFFFFFF⟩, ⟨"BYTE_NEW", 0x04000000, 0xFFFFFF00⟩,
   ⟨"BYTE_STORE_BIT", 0x08000000, 0xFFFFFFFE⟩, ⟨"BYTE_STORE_RANDOM_BIT", 0x0C000000, 0xFFFFFFFF⟩,
   ⟨"BYTE_TO_SEQ", 0x10000000, 0xFFFFFFFF⟩, ⟨"BYTE_FROM_SEQ", 0x14000000, 0xFFFFFFFF⟩,
   ⟨"BYTE_FROM_SEQ_BOUNDED", 0x18000000, 0xFFFFFFFF⟩, ⟨"SEQ_LOAD", 0x1C000000, 0xFFE00000⟩,
   ⟨"BYTE_FROM_STR", 0x20000000, 0xFFFFFFFF⟩, ⟨"BYTE_TO_STR", 0x24000000, 0xFFFFFFFF⟩,
   ⟨"BYTE_CMP", 0x28000000, 0xFFFFFF00⟩]

/-- The rows of R96 for the cursor, encoder, decoder and SOFT_RESET. -/
def opcodeRowsWalk : List OpcodeRow :=
  [⟨"CUR_INIT", 0x40000000, 0xFFFFFFFF⟩, ⟨"CUR_ADVANCE", 0x44000000, 0xFFFFFFFF⟩,
   ⟨"CUR_IN_BOUNDS_X", 0x48000000, 0xFF000000⟩, ⟨"CUR_IN_BOUNDS_Y", 0x4C000000, 0xFF000000⟩,
   ⟨"CUR_CAPACITY", 0x50000000, 0xFFFFFFFF⟩, ⟨"ENC_START", 0x80000000, 0xFFFFFFFF⟩,
   ⟨"ENC_STEP", 0x84000000, 0xFFFFFFFF⟩, ⟨"ENC_RUN", 0x88000000, 0xFFFFFFFF⟩,
   ⟨"DEC_START", 0xA0000000, 0xFFFFFFFF⟩, ⟨"DEC_STEP", 0xA4000000, 0xFFFFFFFF⟩,
   ⟨"DEC_RUN", 0xA8000000, 0xFFFFFFFF⟩, ⟨"DEC_FEED", 0xAC000000, 0xFFFFFFF8⟩,
   ⟨"SOFT_RESET", 0xFC000000, 0xFFFFFFFF⟩]

/-- The opcode map of R96. -/
def opcodeRows : List OpcodeRow := opcodeRowsByte ++ opcodeRowsWalk

/-- The mnemonic of a command: its row of R96. -/
def Instr.mnemonic : Instr → String
  | .nop => "NOP"
  | .byteNew _ => "BYTE_NEW"
  | .byteStoreBit _ => "BYTE_STORE_BIT"
  | .byteStoreRandomBit => "BYTE_STORE_RANDOM_BIT"
  | .byteToSeq => "BYTE_TO_SEQ"
  | .byteFromSeq => "BYTE_FROM_SEQ"
  | .byteFromSeqBounded => "BYTE_FROM_SEQ_BOUNDED"
  | .seqLoad _ _ => "SEQ_LOAD"
  | .byteFromStr => "BYTE_FROM_STR"
  | .byteToStr => "BYTE_TO_STR"
  | .byteCmp _ => "BYTE_CMP"
  | .curInit => "CUR_INIT"
  | .curAdvance => "CUR_ADVANCE"
  | .curInBoundsX _ => "CUR_IN_BOUNDS_X"
  | .curInBoundsY _ => "CUR_IN_BOUNDS_Y"
  | .curCapacity => "CUR_CAPACITY"
  | .encStart => "ENC_START"
  | .encStep => "ENC_STEP"
  | .encRun => "ENC_RUN"
  | .decStart => "DEC_START"
  | .decStep => "DEC_STEP"
  | .decRun => "DEC_RUN"
  | .decFeed _ _ _ => "DEC_FEED"
  | .softReset => "SOFT_RESET"

/-- The command word the host numbers as spec/opcode_table.json does: one 32-bit word (R92, R100),
bits above nbits zero. -/
def tableWord (nbits w : Nat) : Word := BitVec.ofNat 32 (w % 2 ^ nbits)

/-- What this decoder reads from the table word w of nbits bits; none where it is illegal. -/
def decodeTableWord (nbits w : Nat) : Option Instr :=
  match decode (tableWord nbits w) with
  | .ok i => some i
  | .error _ => none

end Sys2Proof
end

