-- ==== Sys2Proof/Machine/ByteCmds.lean ====
section
/-! DEFINITION. The Byte unit commands of spec/40_byte_unit.md. One that reads BYTE, SEQ or STR0 and STR1
goes on with what the register holds, and records the read of an UNSPEC one (State.reading, spec/10_state.md
R21). -/

namespace Sys2Proof.Machine

/-- BYTE_NEW, R130: `BYTE.B <- IMM8; finish(OK)`. -/
def execByteNew (imm8 : Byte) (s : State) : Host.Outcome State Fault Refusal :=
  .next ((s.putByte imm8).endStep .ok)

/-- `BYTE.B <- store_bit(BYTE.B, bit)`, shared by R132 and R133. -/
def State.storeByteBit (bit : Bool) (s : State) : State :=
  s.modifyByte (storeBit s.bu.b bit)

/-- BYTE_STORE_BIT, R132. -/
def execByteStoreBit (bit : Bool) (s : State) : Host.Outcome State Fault Refusal :=
  s.reading [.byte] ((s.storeByteBit bit).endStep .ok)

/-- BYTE_STORE_RANDOM_BIT, R133: one draw. -/
def execByteStoreRandomBit (s : State) : Host.Outcome State Fault Refusal :=
  s.reading [.byte] (((s.draw 1).storeByteBit (s.randBit 0)).endStep .ok)

/-- BYTE_TO_SEQ, R134: `SEQ_V <- zext_16(BYTE.B); SEQ_LEN <- 8`. -/
def execByteToSeq (s : State) : Host.Outcome State Fault Refusal :=
  s.reading [.byte] ((s.putSeq (s.bu.b.setWidth 16) 8).endStep .ok)

/-- BYTE_FROM_SEQ, R135: ERR_LENGTH unless SEQ_LEN = 8, and then BYTE is unchanged. -/
def execByteFromSeq (s : State) : Host.Outcome State Fault Refusal :=
  s.reading [.seq]
    (if s.bu.seqLen = 8#5 then (s.putByte (s.bu.seqV.setWidth 8)).endStep .ok
     else s.endStep .errLength)

/-- BYTE_FROM_SEQ_BOUNDED, R136: ERR_LENGTH if SEQ_LEN > 8; otherwise zext_8(SEQ_V[SEQ_LEN-1:0]). -/
def execByteFromSeqBounded (s : State) : Host.Outcome State Fault Refusal :=
  s.reading [.seq]
    (if 8 < s.bu.seqLen.toNat then s.endStep .errLength
     else (s.putByte ((seqBits s.bu.seqV s.bu.seqLen).setWidth 8)).endStep .ok)

/-- SEQ_LOAD, R137. LEN above 16 is no command word: it would be ERR_ILLEGAL (30_encoding.md R97). -/
def execSeqLoad (len : BitVec 5) (seq : BitVec 16) (s : State) : Host.Outcome State Fault Refusal :=
  .next (if 16 < len.toNat then s.illegal else (s.putSeq (seqBits seq len) len).endStep .ok)

/-- BYTE_FROM_STR, R138: the fold of the eight digits, or ERR_DIGIT with BYTE unchanged. It reads STR0 and
STR1, whatever their characters (notes/assumptions/16.md). -/
def execByteFromStr (s : State) : Host.Outcome State Fault Refusal :=
  s.reading [.str0, .str1]
    (match digits (chars s.bu.str0 s.bu.str1) with
     | some ds => (s.putByte (BitVec.ofNat 8 (fold ds))).endStep .ok
     | none => s.endStep .errDigit)

/-- BYTE_TO_STR, R139. -/
def execByteToStr (s : State) : Host.Outcome State Fault Refusal :=
  s.reading [.byte] (((s.putStr0 (strHi s.bu.b)).putStr1 (strLo s.bu.b)).endStep .ok)

/-- BYTE_CMP, R141. -/
def execByteCmp (imm8 : Byte) (s : State) : Host.Outcome State Fault Refusal :=
  s.reading [.byte] ({ s with status := s.status.compare s.bu.b imm8 }.endStep .ok)

end Sys2Proof.Machine
end

