-- ==== Sys2Proof/Machine/ControlCmds.lean ====
section
/-! DEFINITION. The control commands of spec/44_control.md. -/

namespace Sys2Proof.Machine

/-- NOP, R260: `finish(OK); BUSY <- 0`. -/
def execNop (s : State) : Host.Outcome State Fault Refusal := .next (s.endStep .ok)

/-- SOFT_RESET, R261. -/
def execSoftReset (s : State) : Host.Outcome State Fault Refusal := .next s.softReset

end Sys2Proof.Machine
end

