-- ==== Sys2Proof/Machine/CursorCmds.lean ====
section
/-! DEFINITION. The raster cursor commands of spec/41_cursor.md. Each gives ERR_SEQ, before any other
check, while a walk is active (R180, spec/60_exceptions.md R284). -/

namespace Sys2Proof.Machine

/-- CUR_INIT, R180: ERR_EMPTY still latches WL, HL and resets the position. -/
def execCurInit (s : State) : Host.Outcome State Fault Refusal :=
  .next
    (if s.status.walkActive then s.endStep .errSeq
     else if s.cursorInit.cur.empty then s.cursorInit.endStep .errEmpty
     else s.cursorInit.endStep .ok)

/-- CUR_ADVANCE, R174. -/
def execCurAdvance (s : State) : Host.Outcome State Fault Refusal :=
  .next
    (if s.status.walkActive then s.endStep .errSeq
     else if s.cur.empty then s.endStep .errEmpty
     else if s.advanceOk then s.advance.endStep .ok
     else s.advance.endStep .errExhausted)

/-- CUR_IN_BOUNDS_X, R176: IB <- (COORD < WL). -/
def execCurInBoundsX (coord : Coord) (s : State) : Host.Outcome State Fault Refusal :=
  .next
    (if s.status.walkActive then s.endStep .errSeq
     else { s with status := s.status.inBounds coord s.cur.wl }.endStep .ok)

/-- CUR_IN_BOUNDS_Y, R177: IB <- (COORD < HL). -/
def execCurInBoundsY (coord : Coord) (s : State) : Host.Outcome State Fault Refusal :=
  .next
    (if s.status.walkActive then s.endStep .errSeq
     else { s with status := s.status.inBounds coord s.cur.hl }.endStep .ok)

/-- `CAP <- 3 * WL * HL` (R178, 42_encoder.md R201). -/
def State.putCap (s : State) : State :=
  { s with cur := { s.cur with cap := BitVec.ofNat 64 (capacityBits s.cur.wl s.cur.hl) } }

/-- CUR_CAPACITY, R178. -/
def execCurCapacity (s : State) : Host.Outcome State Fault Refusal :=
  .next (if s.status.walkActive then s.endStep .errSeq else s.putCap.endStep .ok)

end Sys2Proof.Machine
end

