-- ==== Sys2Proof/Machine/DecoderCmds.lean ====
section
/-! DEFINITION. The decoder commands of spec/43_decoder.md: start (R241), the feed function (R243), the
pixel step (R247), run (R248), the synthetic feed (R249). -/

namespace Sys2Proof.Machine

/-- DEC_START, R241. -/
def State.decStart (s : State) : State :=
  let t := { (s.setEph .idle).cursorInit with
    dec := { accV := 0, accLen := 0, spillV := 0, spillLen := 0, mlen := 0 } }
  if t.cur.empty then (t.setDph .error).endStep .errEmpty else (t.setDph .running).endStep .ok

/-- DEC_START, R241. -/
def execDecStart (s : State) : Host.Outcome State Fault Refusal := .next s.decStart

/-- What `feed` returns (R243). -/
inductive FeedOut where
  | found
  | overflow
  | cont
  deriving DecidableEq, Repr

/-- The result of `feed` (R243). It does not depend on the triplet: a completed byte equal to TERM is
found, "ACC, SPILL, MLEN unchanged"; any other, with MBUF full, overflows. -/
def State.feedOut (s : State) : FeedOut :=
  if s.dec.accLen = 8#4 then
    if s.dec.accV = s.params.terminator then .found
    else if s.dec.mlen.toNat = s.params.mbufMax then .overflow
    else .cont
  else .cont

/-- R243 with n < 8: push the triplet into the accumulator, the last bits into the spillover if n is 6
or 7. -/
def Decoder.pushTriplet (t0 t1 t2 : Bool) (d : Decoder) : Decoder :=
  if d.accLen = 7#4 then ((d.pushAcc t0).pushSpill t1).pushSpill t2
  else if d.accLen = 6#4 then ((d.pushAcc t0).pushAcc t1).pushSpill t2
  else ((d.pushAcc t0).pushAcc t1).pushAcc t2

/-- R243 with n = 8 and no terminator: `MBUF[MLEN] <- v; MLEN <- MLEN + 1`, the spillover becomes the
accumulator. -/
def State.appendByte (s : State) : State :=
  { s with
    mbuf := Memory.write .mbuf s.mbuf s.dec.mlen.toNat s.dec.accV
    dec := { s.dec.spillToAcc with mlen := s.dec.mlen + 1 } }

/-- The state after `feed` returned cont (R243). -/
def State.feed (t0 t1 t2 : Bool) (s : State) : State :=
  if s.dec.accLen = 8#4 then
    { s.appendByte with
      dec := ((s.appendByte.dec.pushAcc t0).pushAcc t1).pushAcc t2 }
  else { s with dec := s.dec.pushTriplet t0 t1 t2 }

/-- R247 after the triplet is fed: advance(), or NOTFOUND with MLEN <- 0. -/
def State.afterFeed (s : State) : State :=
  if s.advanceOk then s.advance.finish .ok
  else
    ({ s.advance with dec := { s.dec with mlen := 0 } }.setDph .notFound).finish .errNotFound

/-- The decoder has found the terminator, or its buffer is full (R247, R249). -/
def State.decFound (s : State) : State := (s.setDph .found).finish .found

/-- DPH <- ERROR, ERR_MBUF_OVERFLOW (R247, R249). -/
def State.decOverflow (s : State) : State := (s.setDph .error).finish .errMbufOverflow

/-- One pixel of the decode walk (R247), less the BUSY update; ERR_SEQ unless DPH = RUNNING. -/
def State.decPixel (s : State) : Except Fault State :=
  if s.status.dph.active then
    if s.image.has s.cur.x s.cur.y then
      match s.feedOut with
      | .found => .ok s.decFound
      | .overflow => .ok s.decOverflow
      | .cont =>
        .ok (s.feed s.curPixel.triplet.1 s.curPixel.triplet.2.1 s.curPixel.triplet.2.2).afterFeed
    else .error (.pixelOutsideImage s.cur.x s.cur.y)
  else .ok (s.finish .errSeq)

/-- DEC_STEP, R247. -/
def execDecStep (s : State) : Host.Outcome State Fault Refusal :=
  match s.decPixel with
  | .ok t => .next (t.setBusy false)
  | .error f => .fault f

/-- DEC_RUN, R248: one DEC_STEP body; BUSY stays 1 while DPH = RUNNING. -/
def execDecRun (s : State) : Host.Outcome State Fault Refusal :=
  match s.decPixel with
  | .ok t => .next (t.setBusy t.status.dph.active)
  | .error f => .fault f

/-- DEC_FEED, R249: the feed function on an operand triplet; no pixel access, no cursor move. -/
def execDecFeed (t0 t1 t2 : Bool) (s : State) : Host.Outcome State Fault Refusal :=
  .next
    (if s.status.dph.active then
      match s.feedOut with
      | .found => s.decFound.setBusy false
      | .overflow => s.decOverflow.setBusy false
      | .cont => (s.feed t0 t1 t2).endStep .ok
     else s.endStep .errSeq)

end Sys2Proof.Machine
end

