-- ==== Sys2Proof/Machine/EncoderCmds.lean ====
section
/-! DEFINITION. The encoder commands of spec/42_encoder.md: start (R201), the payload bit function
(R202), the payload and padding pixel steps (R203, R205), run (R207). -/

namespace Sys2Proof.Machine

/-- ENC_N, ENC_L and ENC_I as ENC_START writes them from PLEN (R201). -/
def Encoder.start (plen : Word) : Encoder :=
  { i := 0, l := BitVec.ofNat 32 (payloadBits plen.toNat), n := plen }

/-- ENC_START, R201: the checks in the order of its pseudocode (spec/60_exceptions.md R284). -/
def State.encStart (s : State) : State :=
  let s1 := s.setDph .idle
  if s.params.pbufMax < s.regs.plen.toNat then (s1.setEph .error).endStep .errPlen
  else
    let s2 := { s1.cursorInit with enc := Encoder.start s.regs.plen }.putCap
    if payloadBits s.regs.plen.toNat < capacityBits s2.cur.wl s2.cur.hl then
      (s2.setEph .payload).endStep .ok
    else (s2.setEph .error).endStep .errCapacity

/-- ENC_START, R201. -/
def execEncStart (s : State) : Host.Outcome State Fault Refusal := .next s.encStart

/-- `pbyte(j)` of R202: PBUF[j] below ENC_N, TERM at ENC_N. -/
def State.payloadByte (s : State) (j : Nat) : Except Fault Byte :=
  if j < s.enc.n.toNat then
    match Memory.read .pbuf s.pbuf j with
    | some v => .ok v
    | none => .error (.pbufUnspec j)
  else if j = s.enc.n.toNat then .ok s.params.terminator
  else .error (.pastPayload j)

/-- `pbit(i) = pbyte(i div 8)[7 - (i mod 8)]` (R202). -/
def State.payloadBit (s : State) (i : Nat) : Except Fault Bool :=
  match s.payloadByte (i / 8) with
  | .ok v => .ok (v.getLsbD (7 - i % 8))
  | .error f => .error f

/-- Channel j of the pixel: store_bit with pbit(ENC_I + j) if j < k, otherwise as read (R203). -/
def State.packChannel (s : State) (k j : Nat) (c : Byte) : Except Fault Byte :=
  if j < k then
    match s.payloadBit (s.enc.i.toNat + j) with
    | .ok b => .ok (storeBit c b)
    | .error f => .error f
  else .ok c

/-- The pixel with k payload bits written, R first, then G, then B; alpha unchanged (R203). -/
def State.packPixel (s : State) (k : Nat) (p : Pixel) : Except Fault Pixel :=
  match s.packChannel k 0 p.r with
  | .error f => .error f
  | .ok r =>
    match s.packChannel k 1 p.g with
    | .error f => .error f
    | .ok g =>
      match s.packChannel k 2 p.b with
      | .error f => .error f
      | .ok b => .ok { r := r, g := g, b := b, a := p.a }

/-- `k <- min(rem, 3)`, the bits written into this pixel (R203). -/
def Encoder.take (e : Encoder) : Nat := min (e.l.toNat - e.i.toNat) 3

/-- R203 after the pixel is written: ENC_I, advance(), the phase and the result. -/
def State.afterPayload (k : Nat) (s : State) : State :=
  let t := { s.advance with enc := { s.enc with i := BitVec.ofNat 32 (s.enc.i.toNat + k) } }
  if s.enc.i.toNat + k < s.enc.l.toNat then
    if s.advanceOk then t.finish .ok else (t.setEph .error).finish .errNoMorePixels
  else if s.advanceOk then (t.setEph .padding).finish .ok
  else (t.setEph .done).finish .encDone

/-- The payload pixel step (R203), less the BUSY update. -/
def State.encPayload (s : State) : Except Fault State :=
  if s.image.has s.cur.x s.cur.y then
    match s.packPixel s.enc.take s.curPixel with
    | .ok p => .ok ((s.putCurPixel p).afterPayload s.enc.take)
    | .error f => .error f
  else .error (.pixelOutsideImage s.cur.x s.cur.y)

/-- The pixel with its three LSBs replaced (R205). -/
def Pixel.storeBits (p : Pixel) (d0 d1 d2 : Bool) : Pixel :=
  { r := storeBit p.r d0, g := storeBit p.g d1, b := storeBit p.b d2, a := p.a }

/-- R205 after the pixel is written: advance(), the phase and the result. -/
def State.afterPadding (s : State) : State :=
  if s.advanceOk then s.advance.finish .ok else (s.advance.setEph .done).finish .encDone

/-- The padding pixel step (R205), less the BUSY update: three independent draws, R, G, B. -/
def State.encPadding (s : State) : Except Fault State :=
  if s.image.has s.cur.x s.cur.y then
    .ok ((s.draw 3).putCurPixel
      (s.curPixel.storeBits (s.randBit 0) (s.randBit 1) (s.randBit 2))).afterPadding
  else .error (.pixelOutsideImage s.cur.x s.cur.y)

/-- One pixel of the encode walk, by EPH (R203); ERR_SEQ outside a walk. -/
def State.encPixel (s : State) : Except Fault State :=
  match s.status.eph with
  | .payload => s.encPayload
  | .padding => s.encPadding
  | .idle => .ok (s.finish .errSeq)
  | .done => .ok (s.finish .errSeq)
  | .error => .ok (s.finish .errSeq)

/-- ENC_STEP, R203: "In every case it ends with BUSY <- 0". -/
def execEncStep (s : State) : Host.Outcome State Fault Refusal :=
  match s.encPixel with
  | .ok t => .next (t.setBusy false)
  | .error f => .fault f

/-- ENC_RUN, R207: one ENC_STEP body; BUSY stays 1 while EPH is in {PAYLOAD, PADDING}. -/
def execEncRun (s : State) : Host.Outcome State Fault Refusal :=
  match s.encPixel with
  | .ok t => .next (t.setBusy t.status.eph.active)
  | .error f => .fault f

end Sys2Proof.Machine
end

