-- ==== Sys2Proof/Machine/Dispatch.lean ====
section
/-! DEFINITION. One command step of a command (spec/10_state.md R38): one arm per row of
spec/opcode_table.json. -/

namespace Sys2Proof.Machine

def exec (i : Instr) (s : State) : Host.Outcome State Fault Refusal :=
  match i with
  | .nop => Sys2Proof.Machine.execNop s
  | .byteNew imm8 => Sys2Proof.Machine.execByteNew imm8 s
  | .byteStoreBit bit => Sys2Proof.Machine.execByteStoreBit bit s
  | .byteStoreRandomBit => Sys2Proof.Machine.execByteStoreRandomBit s
  | .byteToSeq => Sys2Proof.Machine.execByteToSeq s
  | .byteFromSeq => Sys2Proof.Machine.execByteFromSeq s
  | .byteFromSeqBounded => Sys2Proof.Machine.execByteFromSeqBounded s
  | .seqLoad len seq => Sys2Proof.Machine.execSeqLoad len seq s
  | .byteFromStr => Sys2Proof.Machine.execByteFromStr s
  | .byteToStr => Sys2Proof.Machine.execByteToStr s
  | .byteCmp imm8 => Sys2Proof.Machine.execByteCmp imm8 s
  | .curInit => Sys2Proof.Machine.execCurInit s
  | .curAdvance => Sys2Proof.Machine.execCurAdvance s
  | .curInBoundsX coord => Sys2Proof.Machine.execCurInBoundsX coord s
  | .curInBoundsY coord => Sys2Proof.Machine.execCurInBoundsY coord s
  | .curCapacity => Sys2Proof.Machine.execCurCapacity s
  | .encStart => Sys2Proof.Machine.execEncStart s
  | .encStep => Sys2Proof.Machine.execEncStep s
  | .encRun => Sys2Proof.Machine.execEncRun s
  | .decStart => Sys2Proof.Machine.execDecStart s
  | .decStep => Sys2Proof.Machine.execDecStep s
  | .decRun => Sys2Proof.Machine.execDecRun s
  | .decFeed t0 t1 t2 => Sys2Proof.Machine.execDecFeed t0 t1 t2 s
  | .softReset => Sys2Proof.Machine.execSoftReset s

end Sys2Proof.Machine
end

