-- ==== Sys2Proof/Machine/Sequencer.lean ====
section
/-! DEFINITION. The sequencer's step (spec/10_state.md R38, spec/30_encoding.md R97). -/

namespace Sys2Proof.Machine

/-- One command step of the word in CMDR, enabled while STATUS.BUSY = 1: an illegal word finishes with
ERR_ILLEGAL (R97), any other executes its command. -/
def seqStep (s : State) : Host.Outcome State Fault Refusal :=
  match decode s.cmdr with
  | .ok i => exec i s
  | .error _ => .next s.illegal

end Sys2Proof.Machine
end

