-- ==== Sys2Proof/Machine/Environment.lean ====
section
/-! DEFINITION. One step of the whole machine: the environment's next move, or the sequencer's step
(spec/60_exceptions.md R285, spec/20_memory.md R72, R74). notes/assumptions/7.md. -/

namespace Sys2Proof.Machine

/-- The sequencer's turn: its step while BUSY = 1; while BUSY = 0 it "has no enabled step"
(10_state.md R38) and nothing changes. -/
def sequencerTurn (s : State) : Host.Outcome State Fault Refusal :=
  if s.status.busy then seqStep s else .next s

/-- The image layer's moves: none during a walk (20_memory.md R74, 70_reset_and_hazards.md R334), none
at a coordinate the image does not have (20_memory.md R60). -/
def imageMove (x y : Coord) (s : State) (t : State) : Host.Outcome State Fault Refusal :=
  if s.status.walkActive then .fault .noPixelMove
  else if s.image.has x y then .next t
  else .fault (.pixelOutsideImage x y)

/-- The host's test of the word it read last (30_encoding.md R102). -/
def testHolds (mask value : Word) (s : State) : Bool :=
  match s.env.rdata with
  | some w => w &&& mask == value
  | none => false

/-- The environment's moves are now `ms`. -/
def State.setMoves (ms : List Move) (s : State) : State := { s with env := { s.env with moves := ms } }

/-- One move of the environment, already taken off its list. -/
def applyMove (m : Move) (s : State) : Host.Outcome State Fault Refusal :=
  match m with
  | .read addr width => hostRead addr width s
  | .write addr width w => hostWrite addr width w s
  | .pass => sequencerTurn s
  | .wait =>
    if s.status.busy then seqStep (s.setMoves (.wait :: s.env.moves)) else hostRead 0x004#32 32 s
  | .test mask value n =>
    .next (if testHolds mask value s then s else s.setMoves (s.env.moves.drop n))
  | .reset => .next s.resetEvent
  | .openImage w h =>
    if s.status.walkActive then .fault .noPixelMove
    else .next { s with image := { w := w, h := h, mem := [] } }
  | .putPixel x y p => imageMove x y s { s with image := s.image.pixWrite x y p }
  | .getPixel x y =>
    imageMove x y s { s with env := { s.env with pixOut := some (s.image.pixRead x y) } }

/-- One step of the machine: the environment's next move if it has one, otherwise the sequencer's
turn. -/
def machineStep (s : State) : Host.Outcome State Fault Refusal :=
  match s.env.moves with
  | [] => sequencerTurn s
  | m :: ms => applyMove m (s.setMoves ms)

/-- The state in which the sequencer's very next step runs the command word `w`: what a CMD write of
`w` leaves (30_encoding.md R91), with the environment holding back. -/
def State.withCommand (s : State) (w : Word) : State :=
  { s with cmdr := w, status := { s.status with busy := true }, env := { s.env with moves := [] } }

end Sys2Proof.Machine
end

