-- ==== Sys2Proof/Machine/Step.lean ====
section
/-! DEFINITION. The fixed names over Machine/Environment.lean. -/

namespace Sys2Proof.Machine

/-- One step: the environment's next move, or one command step of the sequencer. -/
def step (s : State) : Host.Outcome State Fault Refusal := machineStep s

/-- `s` with the opcode table's word `w` of `nbits` bits in CMDR and BUSY = 1: the block fetches nothing
(spec/10_state.md R38), so this stands for the CMD write that issues it (notes/assumptions/6.md). -/
def State.withFetchWord (s : State) (nbits w : Nat) : State := s.withCommand (tableWord nbits w)

end Sys2Proof.Machine
end

