-- ==== Sys2Proof/Machine/Strict.lean ====
section
/-! DEFINITION. The machine's step as spec/10_state.md R21, spec/60_exceptions.md R290 and
spec/93_implementation_defined.md I6 have a model take it: stopping at the read of an UNSPEC register. -/

namespace Sys2Proof.Machine

/-- Why a strict step stops: one of the machine's faults, or the fault that the machine records. -/
inductive StrictFault where
  /-- A command has read a register that no writer has set since reset: "a fault naming the register"
  (10_state.md R21). Safe: "errs toward unprovable". -/
  | unspecRead (r : UnspecReg)
  /-- The machine's own step stops. Safe or unsafe as that fault is. -/
  | machine (f : Fault)
  deriving DecidableEq, Repr

/-- The step with the stop: where the machine's step leaves a read of an UNSPEC register recorded, "the model
stops with an error that names the state" (93_implementation_defined.md). -/
def strictStep (s : State) : Host.Outcome State StrictFault Refusal :=
  match step s with
  | .next t =>
    match t.unspecRead with
    | some r => .fault (.unspecRead r)
    | none => .next t
  | .fault f => .fault (.machine f)
  | .refused r => .refused r

end Sys2Proof.Machine
end

