-- ==== Sys2Proof/Machine/Observation.lean ====
section
/-! DEFINITION. What is observed at the end of a run (spec/70_reset_and_hazards.md R326). -/

namespace Sys2Proof.Machine

/-- The observation of R326. CMDR, ENC_N and the MBUF bytes at or above MLEN are no part of it. -/
structure Observation where
  status : Word
  /-- The registers of 30_encoding.md R93 with their offsets; none where the register is UNSPEC. -/
  registers : List (Word × Option Word)
  /-- MBUF[0 .. MLEN−1]; none where the byte is UNSPEC. -/
  message : List (Option Byte)
  /-- The pixel buffer: its dimensions and its pixels in raster order (20_memory.md R64). -/
  width : Nat
  height : Nat
  pixels : List Pixel
  deriving DecidableEq, Repr

/-- The register's UNSPEC mark, for those that have one (10_state.md R21). -/
def PortReg.unspec : PortReg → Option UnspecReg
  | .byte => some .byte
  | .seq => some .seq
  | .str0 => some .str0
  | .str1 => some .str1
  | .cmd | .status | .width | .height | .curX | .curY | .wl | .hl | .capLo | .capHi | .term | .plen
  | .encI | .encL | .acc | .mlen => none

/-- The word a register shows; none if it is UNSPEC, when a read of it is a draw (10_state.md R21). -/
def State.observeReg (s : State) (r : PortReg) : Option Word :=
  match r.unspec with
  | some q => if s.bu.unspec q then none else some (s.readReg 0 r)
  | none => some (s.readReg 0 r)

/-- The registers in the order of R93. -/
def portRegs : List (Word × PortReg) :=
  [(0x000, .cmd), (0x004, .status), (0x008, .byte), (0x00C, .seq), (0x010, .str0), (0x014, .str1),
   (0x018, .width), (0x01C, .height), (0x020, .curX), (0x024, .curY)] ++
  [(0x028, .wl), (0x02C, .hl), (0x030, .capLo), (0x034, .capHi), (0x038, .term), (0x03C, .plen),
   (0x040, .encI), (0x044, .encL), (0x048, .acc), (0x04C, .mlen)]

/-- The pixels of an image in raster order. -/
def Image.raster (img : Image) : List Pixel :=
  ((List.range img.h.toNat).map (fun y =>
    (List.range img.w.toNat).map (fun x =>
      img.pixRead (BitVec.ofNat 24 x) (BitVec.ofNat 24 y)))).flatten

/-- "The observation at the end of a run" (R326). -/
def State.observe (s : State) : Observation where
  status := s.status.word
  registers := portRegs.map (fun p => (p.1, s.observeReg p.2))
  message := (List.range s.dec.mlen.toNat).map (Memory.read .mbuf s.mbuf)
  width := s.image.w.toNat
  height := s.image.h.toNat
  pixels := s.image.raster

end Sys2Proof.Machine
end

