-- ==== Sys2Proof/Safety.lean ====
section
/-! DEFINITION. What a claim about a run is stated in terms of: the launch premises of
spec/70_reset_and_hazards.md R325, the ends of commands, walks and runs of R326, the invariants every
reachable state keeps (spec/10_state.md R44 and the invariants stated with the registers), what a pixel
keeps. -/

namespace Sys2Proof.Machine

/-! The ends of a run (70_reset_and_hazards.md R326). -/

/-- "A command ends at the step that sets BUSY <- 0." -/
def State.commandEnded (s : State) : Prop := s.status.busy = false

/-- "An encode walk ends when EPH ∈ {DONE, ERROR}." -/
def State.encodeEnded (s : State) : Prop := s.status.eph = .done ∨ s.status.eph = .error

/-- "A decode walk ends when DPH ∈ {FOUND, NOTFOUND, ERROR}." -/
def State.decodeEnded (s : State) : Prop :=
  s.status.dph = .found ∨ s.status.dph = .notFound ∨ s.status.dph = .error

/-- Does the environment's move issue a command: a CMD write (30_encoding.md R91). -/
def Move.issues : Move → Bool
  | .write addr _ _ => addr == 0x000#32
  | .read _ _ => false
  | .pass => false
  | .wait => false
  | .test _ _ _ => false
  | .reset => false
  | .openImage _ _ => false
  | .putPixel _ _ _ => false
  | .getPixel _ _ => false

/-- "A run of a host script ends when its last command has ended and the host issues no further CMD
write." What it ends with is `State.observe`. -/
def State.scriptEnded (s : State) : Prop :=
  s.commandEnded ∧ ∀ m ∈ s.env.moves, m.issues = false

/-! Launch premises (70_reset_and_hazards.md R325). -/

/-- `idle`: BUSY = 0. -/
def State.idle (s : State) : Prop := s.status.busy = false

/-- `no_drop`: DROP = 0. -/
def State.noDrop (s : State) : Prop := s.status.drop = false

/-- `no_fault`: no fault recorded: no command has read an UNSPEC register. Every other fault is the outcome of
its step and leaves no state (60_exceptions.md R290). -/
def State.noFault (s : State) : Prop := s.unspecRead = none

/-- PBUF[0 .. n−1] written: the buffer's half of `payload_written(n)`, which a walk needs for its latched
length ENC_N whatever PLEN holds by then. -/
def State.pbufWritten (n : Nat) (s : State) : Prop :=
  ∀ j, j < n → (Memory.read .pbuf s.pbuf j).isSome = true

/-- `payload_written(n)`: PBUF[0 .. n−1] written and PLEN = n. -/
def State.payloadWritten (n : Nat) (s : State) : Prop := s.pbufWritten n ∧ s.regs.plen.toNat = n

/-- `dims(W, H)`: WIDTH = W and HEIGHT = H with W, H < 2^COORD_BITS, and the pixel buffer has exactly W×H
pixels. -/
structure State.dims (W H : Nat) (s : State) : Prop where
  width : s.regs.width.toNat = W
  height : s.regs.height.toNat = H
  widthFits : W < 2 ^ s.params.coordBits
  heightFits : H < 2 ^ s.params.coordBits
  imageWidth : s.image.w.toNat = W
  imageHeight : s.image.h.toNat = H

/-- Would the move touch the pixel buffer or change its dimensions (R334). -/
def Move.touchesPixels : Move → Bool
  | .openImage _ _ => true
  | .putPixel _ _ _ => true
  | .getPixel _ _ => true
  | .read _ _ => false
  | .write _ _ _ => false
  | .pass => false
  | .wait => false
  | .test _ _ _ => false
  | .reset => false

/-- `exclusive`: in the run from here no agent other than the block accesses the pixel buffer from the
step that starts a walk until the walk ends (R334). -/
def State.exclusive (s : State) : Prop :=
  ∀ (k : Nat) (t : State) (m : Move) (ms : List Move), Sys2Proof.core.run k s = .next t →
    t.status.walkActive = true → t.env.moves = m :: ms → m.touchesPixels = false

/-- What the two launches share. -/
structure Launch (W H : Nat) (s : State) : Prop where
  idle : s.idle
  noDrop : s.noDrop
  noFault : s.noFault
  dims : s.dims W H
  exclusive : s.exclusive

/-- The launch of an encode of n ciphertext bytes into a W×H image. -/
structure EncodeLaunch (n W H : Nat) (s : State) : Prop extends Launch W H s where
  payload : s.payloadWritten n

/-- The image that is open has exactly the latched dimensions, "with WL = W and HL = H"
(20_memory.md R60): what `dims` is once a walk's start has latched them. -/
def State.imageLatched (s : State) : Prop := s.image.w = s.cur.wl ∧ s.image.h = s.cur.hl

/-! Invariants. -/

/-- The nine (ACC_LEN, SPILL_LEN) pairs of 10_state.md R44. -/
def accShapes : List (Nat × Nat) :=
  [(0, 0), (3, 0), (6, 0), (8, 1), (4, 0), (7, 0), (8, 2), (5, 0), (8, 0)]

/-- The pair of lengths in ACC. -/
def Decoder.shape (d : Decoder) : Nat × Nat := (d.accLen.toNat, d.spillLen.toNat)

/-- The decoder's part: 10_state.md R41, R42, R44. -/
structure Decoder.Inv (d : Decoder) (mbufMax : Nat) : Prop where
  shape : d.shape ∈ accShapes
  accV : d.accV.toNat < 2 ^ d.accLen.toNat
  spillV : d.spillV.toNat < 2 ^ d.spillLen.toNat
  mlen : d.mlen.toNat ≤ mbufMax

/-- The cursor's part: 10_state.md R32, R33, R34, R44. -/
structure Cursor.Inv (c : Cursor) (p : Params) (exh : Bool) : Prop where
  wl : c.wl.toNat < 2 ^ p.coordBits
  hl : c.hl.toNat < 2 ^ p.coordBits
  inside : 1 ≤ c.wl.toNat → 1 ≤ c.hl.toNat → c.x.toNat < c.wl.toNat ∧ c.y.toNat < c.hl.toNat
  home : c.empty = true → c.x = 0 ∧ c.y = 0
  final : exh = true → c.x.toNat + 1 = c.wl.toNat ∧ c.y.toNat + 1 = c.hl.toNat

/-- The encoder's part: 10_state.md R36 and the arithmetic of 42_encoder.md R204, R209. During the
payload every pixel before the cursor holds three bits; during the padding the payload is behind. -/
structure Encoder.Inv (e : Encoder) (c : Cursor) (pbufMax : Nat) (eph : EncPhase) : Prop where
  len : eph.active = true →
    e.l.toNat = payloadBits e.n.toNat ∧ e.n.toNat ≤ pbufMax ∧ e.l.toNat < capacityBits c.wl c.hl
  payload : eph = .payload → e.i.toNat < e.l.toNat ∧ e.i.toNat = 3 * linear c.wl c.x c.y
  padding : eph = .padding → e.i = e.l ∧ e.l.toNat ≤ 3 * linear c.wl c.x c.y
  done : eph = .done → e.i = e.l

/-- What every reachable state keeps (10_state.md R44 and the invariants stated beside the registers),
with the canonical form of the memories, which is the model's own. -/
structure State.Inv (s : State) : Prop where
  /-- R30, R44: SEQ_V < 2^SEQ_LEN, SEQ_LEN 0 to 16. -/
  seqV : s.bu.seqV.toNat < 2 ^ s.bu.seqLen.toNat
  seqLen : s.bu.seqLen.toNat ≤ 16
  /-- R26: WIDTH and HEIGHT keep their low COORD_BITS bits. -/
  width : s.regs.width.toNat < 2 ^ s.params.coordBits
  height : s.regs.height.toNat < 2 ^ s.params.coordBits
  cursor : s.cur.Inv s.params s.status.exh
  encoder : s.enc.Inv s.cur s.params.pbufMax s.status.eph
  decoder : s.dec.Inv s.params.mbufMax
  /-- R44: the two walks are never active together. -/
  oneWalk : ¬ (s.status.eph.active = true ∧ s.status.dph.active = true)
  /-- 41_cursor.md R172: no walk is active on an empty image. -/
  walkDims : s.status.walkActive = true → s.cur.empty = false
  /-- 10_state.md R42: a NOTFOUND outcome leaves MLEN = 0. -/
  notFound : s.status.dph = .notFound → s.dec.mlen = 0
  /-- The recovered bytes are in MBUF (20_memory.md R68). -/
  message : ∀ k, k < s.dec.mlen.toNat → (Memory.read .mbuf s.mbuf k).isSome = true
  pbuf : Memory.wf .pbuf s.pbuf = true
  mbuf : Memory.wf .mbuf s.mbuf = true
  image : Memory.wf .pixels s.image.mem = true

/-- 20_memory.md R63: the pixel differs in at most bit 0 of r, g and b; alpha is the same. -/
def Pixel.sameButLsbs (p q : Pixel) : Prop :=
  p.r.extractLsb' 1 7 = q.r.extractLsb' 1 7 ∧ p.g.extractLsb' 1 7 = q.g.extractLsb' 1 7 ∧
    p.b.extractLsb' 1 7 = q.b.extractLsb' 1 7 ∧ p.a = q.a

end Sys2Proof.Machine
end

