-- ==== Sys2Proof/Certificates/Slice0/Obligations.lean ====
section
/-! DEFINITION. The statements for the provers. Each docstring names the rule of spec/ it formalises. -/

open Sys2Proof Sys2Proof.Machine

namespace Sys2Proof.Claims

/-! What the statements are written in. -/

/-- STATUS after a step that ended with a result: RESULT and BUSY, nothing else. -/
def ended (st : Status) (c : ResultCode) : Status := { st with result := c, busy := false }

/-- The words of a command of format N: with OP given, w[25:0] = 0 or the word is illegal
(30_encoding.md R94, R97). -/
def WordN (op : BitVec 6) (i : Instr) : Prop :=
  ∀ w : Word, opField w = op →
    if w.extractLsb' 0 26 = 0 then decode w = .ok i else decode w = .error .reservedBit

/-- The words of a command of format V8: IMM8 = w[7:0], w[25:8] = 0. -/
def WordV8 (op : BitVec 6) (f : Byte → Instr) : Prop :=
  ∀ w : Word, opField w = op →
    if w.extractLsb' 8 18 = 0 then decode w = .ok (f (w.extractLsb' 0 8))
    else decode w = .error .reservedBit

/-- The words of a command of format BIT: BIT = w[0], w[25:1] = 0. -/
def WordBit (op : BitVec 6) (f : Bool → Instr) : Prop :=
  ∀ w : Word, opField w = op →
    if w.extractLsb' 1 25 = 0 then decode w = .ok (f (w.getLsbD 0))
    else decode w = .error .reservedBit

/-- The words of a command of format C24: COORD = w[23:0], w[25:24] = 0. -/
def WordC24 (op : BitVec 6) (f : Coord → Instr) : Prop :=
  ∀ w : Word, opField w = op →
    if w.extractLsb' 24 2 = 0 then decode w = .ok (f (w.extractLsb' 0 24))
    else decode w = .error .reservedBit

/-- The Byte unit commands of 40_byte_unit.md. -/
def isByteCommand : Instr → Bool
  | .byteNew _ | .byteStoreBit _ | .byteStoreRandomBit | .byteToSeq | .byteFromSeq
  | .byteFromSeqBounded | .seqLoad _ _ | .byteFromStr | .byteToStr | .byteCmp _ => true
  | _ => false

/-- The registers a command reads, in order (70_reset_and_hazards.md R324). -/
def readsOf : Instr → List UnspecReg
  | .byteStoreBit _ | .byteStoreRandomBit | .byteToSeq | .byteToStr | .byteCmp _ => [.byte]
  | .byteFromSeq | .byteFromSeqBounded => [.seq]
  | .byteFromStr => [.str0, .str1]
  | _ => []

/-- The state with every register of the Byte unit marked as written, what it holds unchanged, and no read of
an UNSPEC one recorded (notes/assumptions/1.md). -/
def allWritten (s : State) : State :=
  { s with
    bu := { s.bu with bSet := true, seqSet := true, str0Set := true, str1Set := true }
    unspecRead := none }

/-- The commands that take a step of a walk at a pixel (20_memory.md R60). -/
def isPixelCommand : Instr → Bool
  | .encStep | .encRun | .decStep | .decRun => true
  | _ => false

/-- Payload bit `q` is one of the bits the next payload step writes (42_encoder.md R203). -/
def bitOfStep (s : State) (q : Nat) : Prop :=
  s.enc.i.toNat ≤ q ∧ q < s.enc.i.toNat + min (s.enc.l.toNat - s.enc.i.toNat) 3

/-- The five cursor commands of 41_cursor.md. -/
def isCursorCommand : Instr → Bool
  | .curInit | .curAdvance | .curInBoundsX _ | .curInBoundsY _ | .curCapacity => true
  | _ => false

/-- The commands that start a walk or reset the phases (60_exceptions.md R286). -/
def isPhaseReset : Instr → Bool
  | .encStart | .decStart | .softReset => true
  | _ => false

/-- The encoder commands of 42_encoder.md. -/
def isEncoderCommand : Instr → Bool
  | .encStart | .encStep | .encRun => true
  | _ => false

/-- The decoder commands of 43_decoder.md. -/
def isDecoderCommand : Instr → Bool
  | .decStart | .decStep | .decRun | .decFeed _ _ _ => true
  | _ => false

/-- The commands that write STATUS.EXH: cursor advance, cursor initialisation, SOFT_RESET
(10_state.md R24, R34). -/
def writesExh : Instr → Bool
  | .curInit | .curAdvance | .encStart | .encStep | .encRun | .decStart | .decStep | .decRun
  | .softReset => true
  | _ => false

/-- The state after `ms` are the moves left and a HostRead was answered with `w`. The counter of free values
is the model's (notes/assumptions/5.md). -/
def answered (s : State) (ms : List Move) (w : Word) : State :=
  { s with env := { s.env with moves := ms, rdata := some w, draws := s.env.draws + 1 } }

/-- In the phases `p` the command gives ERR_SEQ and has no other effect. -/
def outOfPhase (i : Instr) (p : Status → Bool) : Prop :=
  ∀ s : State, p s.status = true → exec i s = .next { s with status := ended s.status .errSeq }

/-- The registers of 30_encoding.md R93 at their offsets, with the word a HostRead returns; BYTE, SEQ,
STR0 and STR1 where they are not UNSPEC. -/
def registerWords (s : State) : List (Word × Word) :=
  [(0x000, 0), (0x004, s.status.word), (0x018, s.regs.width.setWidth 32),
   (0x01C, s.regs.height.setWidth 32), (0x020, s.cur.x.setWidth 32), (0x024, s.cur.y.setWidth 32),
   (0x028, s.cur.wl.setWidth 32), (0x02C, s.cur.hl.setWidth 32),
   (0x030, s.cur.cap.extractLsb' 0 32), (0x034, s.cur.cap.extractLsb' 32 32),
   (0x038, s.params.terminator.setWidth 32), (0x03C, s.regs.plen), (0x040, s.enc.i),
   (0x044, s.enc.l), (0x048, s.dec.accWord), (0x04C, s.dec.mlen)] ++
  (if s.bu.bSet then [(0x008, s.bu.b.setWidth 32)] else []) ++
  (if s.bu.seqSet then [(0x00C, (s.bu.seqLen ++ s.bu.seqV).setWidth 32)] else []) ++
  (if s.bu.str0Set then [(0x010, s.bu.str0)] else []) ++
  (if s.bu.str1Set then [(0x014, s.bu.str1)] else [])

/-- The read-only registers' offsets (R93). -/
def readOnlyOffsets : List Word :=
  [0x004, 0x008, 0x00C, 0x020, 0x024, 0x028, 0x02C, 0x030, 0x034, 0x038, 0x040, 0x044, 0x048, 0x04C]

/-- Is the address in no register and no buffer window (20_memory.md R79): not one of the 20 register
offsets 0x000 to 0x04C, outside both windows. -/
def reservedAddress (p : Params) (a : Word) : Prop :=
  0x050 ≤ a.toNat ∧ ¬ (0x10000000 ≤ a.toNat ∧ a.toNat < 0x10000000 + p.pbufMax) ∧
    ¬ (0x20000000 ≤ a.toNat ∧ a.toNat < 0x20000000 + p.mbufMax)

/-- Channel j of a pixel: 0 = R, 1 = G, 2 = B (42_encoder.md R208). -/
def channel (p : Pixel) (j : Nat) : Byte := if j = 0 then p.r else if j = 1 then p.g else p.b

/-- Bit i of a payload of ciphertext bytes `c` and a terminator, most-significant bit first
(42_encoder.md R202). -/
def flatBit (c : List Byte) (term : Byte) (i : Nat) : Bool :=
  ((c ++ [term]).getD (i / 8) 0).getLsbD (7 - i % 8)

/-- `P = ceil(L / 3)` (42_encoder.md R204). -/
def payloadPixels (l : Nat) : Nat := (l + 2) / 3

/-- The pixels a walk at the cursor still has to visit, the current one included. -/
def pixelsLeft (c : Cursor) : Nat := c.wl.toNat * c.hl.toNat - linear c.wl c.x c.y

/-- Feeding a list of triplets (43_decoder.md R243) as long as each returns cont. -/
def feedAll : List (Bool × Bool × Bool) → State → Option State
  | [], s => some s
  | (t0, t1, t2) :: ts, s =>
    match s.feedOut with
    | .cont => feedAll ts (s.feed t0 t1 t2)
    | .found => none
    | .overflow => none

/-- The flat sequence of fed bits, f(3p+j) = t_j of triplet p (43_decoder.md R251). -/
def flat : List (Bool × Bool × Bool) → List Bool
  | [] => []
  | (t0, t1, t2) :: ts => t0 :: t1 :: t2 :: flat ts

end Sys2Proof.Claims

open Sys2Proof.Claims

/-! ## Encoding -/

/-- 30_encoding.md R103, the worked encodings, each as the word of its command and as what decodes. -/
def Obligations.WorkedEncodingsDecode : Prop :=
  (encode (.byteNew 0xB4) = 0x040000B4#32 ∧ decode 0x040000B4#32 = .ok (.byteNew 0xB4)) ∧
  (encode (.byteStoreBit true) = 0x08000001#32 ∧ decode 0x08000001#32 = .ok (.byteStoreBit true)) ∧
  (encode (.seqLoad 5 0b10110) = 0x1C050016#32 ∧ decode 0x1C050016#32 = .ok (.seqLoad 5 0b10110)) ∧
  (encode (.curInBoundsX 3) = 0x48000003#32 ∧ decode 0x48000003#32 = .ok (.curInBoundsX 3)) ∧
  (encode (.decFeed true false true) = 0xAC000005#32 ∧
    decode 0xAC000005#32 = .ok (.decFeed true false true)) ∧
  (encode (.decFeed false true true) = 0xAC000006#32 ∧
    decode 0xAC000006#32 = .ok (.decFeed false true true)) ∧
  (encode .encStart = 0x80000000#32 ∧ decode 0x80000000#32 = .ok .encStart) ∧
  (encode .softReset = 0xFC000000#32 ∧ decode 0xFC000000#32 = .ok .softReset) ∧
  decode 0x04000100#32 = .error .reservedBit ∧
  decode 0x1C110000#32 = .error .seqLength ∧
  decode 0x2C000000#32 = .error .reservedOp

/-- 30_encoding.md R92 to R96: decoding the word of a well-formed command gives it back, with every
operand at every value its field admits. -/
def Obligations.DecodeOfEncodeIsTheCommand : Prop :=
  ∀ i : Instr, i.wf = true → decode (encode i) = .ok i

/-- 30_encoding.md R92 to R97: a word that decodes is the word of the command it decodes to, which is
well-formed; so no two words are one command, and no bit of a legal word is dropped. -/
def Obligations.EncodeOfDecodeIsTheWord : Prop :=
  ∀ (w : Word) (i : Instr), decode w = .ok i → encode i = w ∧ i.wf = true

/-- 30_encoding.md R96, R97: the words that decode are those some row of the opcode map matches under
its mask, less Q words with LEN > 16; the row has the command's mnemonic; no two rows match one word. -/
def Obligations.LegalWordsAreTheOpcodeMap : Prop :=
  (∀ w : Word, (∃ i, decode w = .ok i) ↔
    (∃ r ∈ opcodeRows, w &&& r.mask = r.matchWord) ∧
      ¬ (opField w = 0x07#6 ∧ 16 < (w.extractLsb' 16 5).toNat)) ∧
  (∀ (w : Word) (i : Instr), decode w = .ok i →
    ∃ r ∈ opcodeRows, r.mnemonic = i.mnemonic ∧ w &&& r.mask = r.matchWord) ∧
  (∀ (w : Word), ∀ r ∈ opcodeRows, ∀ q ∈ opcodeRows,
    w &&& r.mask = r.matchWord → w &&& q.mask = q.matchWord → r = q)

/-- 30_encoding.md R98 and 60_exceptions.md R282: a reserved OP, a listed OP with a reserved bit set, and
a Q word with LEN > 16 finish with ERR_ILLEGAL and change nothing but RESULT and BUSY. The forms with PASS
and WAIT are the model's (notes/assumptions/7.md), as in StepRunsTheDecodedCommand. -/
def Obligations.IllegalWordsChangeOnlyResultAndBusy : Prop :=
  ∀ s : State, s.status.busy = true →
    (((0x0B ≤ (opField s.cmdr).toNat ∧ (opField s.cmdr).toNat ≤ 0x0F) ∨
      (0x15 ≤ (opField s.cmdr).toNat ∧ (opField s.cmdr).toNat ≤ 0x1F) ∨
      (0x23 ≤ (opField s.cmdr).toNat ∧ (opField s.cmdr).toNat ≤ 0x27) ∨
      (0x2C ≤ (opField s.cmdr).toNat ∧ (opField s.cmdr).toNat ≤ 0x3E)) ∨
     (∃ r ∈ opcodeRows, opField s.cmdr = opField r.matchWord ∧ s.cmdr &&& r.mask ≠ r.matchWord) ∨
     (opField s.cmdr = 0x07#6 ∧ 16 < (s.cmdr.extractLsb' 16 5).toNat)) →
    (s.env.moves = [] → step s = .next { s with status := ended s.status .errIllegal }) ∧
    (∀ ms, s.env.moves = .pass :: ms →
      step s = .next { s.setMoves ms with status := ended s.status .errIllegal }) ∧
    (∀ ms, s.env.moves = .wait :: ms →
      step s = .next { s.setMoves (.wait :: ms) with status := ended s.status .errIllegal })

/-! ## Sequencing and the host port -/

/-- 10_state.md R38, 30_encoding.md R91, R97: while BUSY = 1, and the environment makes no move of its
own (or passes, or waits), a step is one command step of the command CMDR decodes to. The passed move is
taken off the environment's list; a WAIT stays on it. While BUSY = 0 the sequencer has no enabled step:
with no move of the environment nothing changes (the model's idle step, notes/assumptions/7.md). -/
def Obligations.StepRunsTheDecodedCommand : Prop :=
  (∀ (s : State) (i : Instr), s.status.busy = true → decode s.cmdr = .ok i →
    (s.env.moves = [] → step s = exec i s) ∧
    (∀ ms, s.env.moves = .pass :: ms → step s = exec i (s.setMoves ms)) ∧
    (∀ ms, s.env.moves = .wait :: ms → step s = exec i (s.setMoves (.wait :: ms)))) ∧
  (∀ s : State, s.status.busy = false → s.env.moves = [] → step s = .next s)

/-- 30_encoding.md R91: a CMD write while BUSY = 0 latches the word, whatever it is, and sets BUSY; while
BUSY = 1 it sets DROP and nothing else. -/
def Obligations.CommandWriteIssuesOrDrops : Prop :=
  ∀ (s : State) (w : Word) (ms : List Move), s.env.moves = .write 0x000#32 32 w :: ms →
    (s.status.busy = false →
      step s = .next { s.setMoves ms with cmdr := w, status := { s.status with busy := true } }) ∧
    (s.status.busy = true →
      step s = .next { s.setMoves ms with status := { s.status with drop := true } })

/-- 30_encoding.md R93, 10_state.md R21: every register at its offset: a HostRead returns its word and
changes nothing of the block or the image; a HostRead of BYTE, SEQ, STR0 or STR1 answers a draw if the
register is UNSPEC, and the reserved bits of BYTE and SEQ read 0 all the same (R29, R30). The observation of a
run's end holds the registers (70_reset_and_hazards.md R326), with those words. The model's choice
(notes/assumptions/17.md): for an UNSPEC register the observation shows no word, which R326 does not say. -/
def Obligations.RegisterReadsFollowTheMap : Prop :=
  (∀ (s : State) (a : Word) (v : Word),
    (a, some v) ∈ s.observe.registers ↔ (a, v) ∈ registerWords s) ∧
  ∀ (s : State) (a : Word) (ms : List Move), s.env.moves = .read a 32 :: ms →
    (∀ v, (a, v) ∈ registerWords s → step s = .next (answered s ms v)) ∧
    (a ∈ [0x008#32, 0x00C#32, 0x010#32, 0x014#32] → ∃ w, step s = .next (answered s ms w) ∧
      (a = 0x008#32 → w.extractLsb' 8 24 = 0) ∧ (a = 0x00C#32 → w.extractLsb' 21 11 = 0))

/-- 20_memory.md R67, R68: the PBUF and MBUF windows, lane by lane; lanes past the buffer read 0. -/
def Obligations.BufferWindowReadsGiveTheBytes : Prop :=
  (∀ (s : State) (k : Nat) (ms : List Move), 4 * k < s.params.pbufMax →
    s.env.moves = .read (BitVec.ofNat 32 (0x10000000 + 4 * k)) 32 :: ms →
    ∃ w, step s = .next (answered s ms w) ∧ ∀ j, j < 4 →
      (s.params.pbufMax ≤ 4 * k + j → lane w j = 0) ∧
      (4 * k + j < s.params.pbufMax → ∀ v, Memory.read .pbuf s.pbuf (4 * k + j) = some v →
        lane w j = v)) ∧
  (∀ (s : State) (k : Nat) (ms : List Move), 4 * k < s.params.mbufMax →
    s.env.moves = .read (BitVec.ofNat 32 (0x20000000 + 4 * k)) 32 :: ms →
    ∃ w, step s = .next (answered s ms w) ∧ ∀ j, j < 4 →
      (s.params.mbufMax ≤ 4 * k + j → lane w j = 0) ∧
      (4 * k + j < s.params.mbufMax → 4 * k + j < s.dec.mlen.toNat →
        ∀ v, Memory.read .mbuf s.mbuf (4 * k + j) = some v → lane w j = v))

/-- 20_memory.md R67: a write to a PBUF word stores its lanes below PBUF_MAX and changes no other byte
and nothing else. -/
def Obligations.PbufWritesStoreTheirLanes : Prop :=
  ∀ (s : State) (k : Nat) (w : Word) (ms : List Move), 4 * k < s.params.pbufMax →
    s.env.moves = .write (BitVec.ofNat 32 (0x10000000 + 4 * k)) 32 w :: ms →
    ∃ m, step s = .next { s.setMoves ms with pbuf := m } ∧
      (∀ j, j < 4 → 4 * k + j < s.params.pbufMax →
        Memory.read .pbuf m (4 * k + j) = some (lane w j)) ∧
      (∀ a, ¬ (4 * k ≤ a ∧ a < 4 * k + 4 ∧ a < s.params.pbufMax) →
        Memory.read .pbuf m a = Memory.read .pbuf s.pbuf a)

/-- 10_state.md R26, R28, R31, 30_encoding.md R93: the plain read-write registers: WIDTH and HEIGHT keep
the low COORD_BITS bits, the others the whole word. -/
def Obligations.HostWritesToRegisters : Prop :=
  ∀ (s : State) (w : Word) (ms : List Move),
    (s.env.moves = .write 0x018#32 32 w :: ms → ∃ v : Coord,
      v.toNat = w.toNat % 2 ^ s.params.coordBits ∧
      step s = .next { s.setMoves ms with regs := { s.regs with width := v } }) ∧
    (s.env.moves = .write 0x01C#32 32 w :: ms → ∃ v : Coord,
      v.toNat = w.toNat % 2 ^ s.params.coordBits ∧
      step s = .next { s.setMoves ms with regs := { s.regs with height := v } }) ∧
    (s.env.moves = .write 0x03C#32 32 w :: ms →
      step s = .next { s.setMoves ms with regs := { s.regs with plen := w } }) ∧
    (s.env.moves = .write 0x010#32 32 w :: ms →
      step s = .next { s.setMoves ms with bu := { s.bu with str0 := w, str0Set := true } }) ∧
    (s.env.moves = .write 0x014#32 32 w :: ms →
      step s = .next { s.setMoves ms with bu := { s.bu with str1 := w, str1Set := true } })

/-- 20_memory.md R79, R68, 30_encoding.md R90, R93: a reserved address reads 0, and a write to it, to a
read-only register or to the MBUF window is ignored. -/
def Obligations.ReservedAndReadOnlyAddresses : Prop :=
  ∀ (s : State) (a w : Word) (ms : List Move), a.toNat % 4 = 0 →
    (s.env.moves = .read a 32 :: ms → reservedAddress s.params a →
      step s = .next (answered s ms 0)) ∧
    (s.env.moves = .write a 32 w :: ms →
      (reservedAddress s.params a ∨ a ∈ readOnlyOffsets ∨
        (0x20000000 ≤ a.toNat ∧ a.toNat < 0x20000000 + s.params.mbufMax)) →
      step s = .next (s.setMoves ms))

/-- 20_memory.md R71: a host access at an address that is not a multiple of 4, or of a width other than
32 bits, is refused. -/
def Obligations.UnalignedHostAccessIsRefused : Prop :=
  ∀ (s : State) (a w : Word) (width : Nat) (ms : List Move), (a.toNat % 4 ≠ 0 ∨ width ≠ 32) →
    (s.env.moves = .read a width :: ms → step s = .refused (.hostAccess a width)) ∧
    (s.env.moves = .write a width w :: ms → step s = .refused (.hostAccess a width))

/-- 20_memory.md R74, 70_reset_and_hazards.md R334: the image layer has no move during a walk; between
walks it reads and writes the pixels of the open image, and opens another; in a run that is `exclusive`
(R325) it never tries one during a walk. The model's choices: that a move tried during a walk is a stuck
state by name (notes/assumptions/15.md); that an opened image has no channel written, so that every one reads
0x00, and that an access outside the open image is a fault (notes/assumptions/4.md). -/
def Obligations.ImageLayerMovesOnlyBetweenWalks : Prop :=
  (∀ (s : State) (m : Move) (ms : List Move) (x y w h : Coord) (p : Pixel), s.env.moves = m :: ms →
    ((m = .putPixel x y p ∨ m = .getPixel x y ∨ m = .openImage w h) →
      s.status.walkActive = true → step s = .fault .noPixelMove) ∧
    (m = .openImage w h → s.status.walkActive = false →
      step s = .next { s.setMoves ms with image := { w := w, h := h, mem := [] } }) ∧
    ((m = .putPixel x y p ∨ m = .getPixel x y) → s.status.walkActive = false →
      s.image.has x y = false → step s = .fault (.pixelOutsideImage x y)) ∧
    (m = .getPixel x y → s.status.walkActive = false → s.image.has x y = true →
      step s = .next { s with
        env := { s.env with moves := ms, pixOut := some (s.image.pixRead x y) } }) ∧
    (m = .putPixel x y p → s.status.walkActive = false → s.image.has x y = true →
      Memory.wf .pixels s.image.mem = true →
      ∃ img : Image, step s = .next { s.setMoves ms with image := img } ∧ img.w = s.image.w ∧
        img.h = s.image.h ∧ img.pixRead x y = p ∧
        ∀ x' y', ¬ (x' = x ∧ y' = y) → img.pixRead x' y' = s.image.pixRead x' y')) ∧
  (∀ (s : State) (k : Nat), s.exclusive → Sys2Proof.core.run k s ≠ .fault .noPixelMove)

/-! ## STATUS and ACC as words -/

/-- 10_state.md R24, R37, R41, 60_exceptions.md R280: the fields of the STATUS word and of the ACC word,
and their reserved bits; the 14 result codes and their classes, and the five encodings of each phase. -/
def Obligations.StatusAndAccWordLayout : Prop :=
  (∀ st : Status,
    st.word.extractLsb' 0 8 = st.result.code ∧ st.word.getLsbD 8 = st.eq ∧
    st.word.getLsbD 9 = st.lt ∧ st.word.getLsbD 10 = st.ib ∧ st.word.getLsbD 11 = st.exh ∧
    st.word.getLsbD 12 = st.busy ∧ st.word.getLsbD 13 = st.drop ∧
    st.word.extractLsb' 14 2 = 0 ∧ st.word.extractLsb' 16 3 = st.eph.code ∧
    st.word.getLsbD 19 = false ∧ st.word.extractLsb' 20 3 = st.dph.code ∧
    st.word.extractLsb' 23 9 = 0 ∧
    (st.result ∈ [.ok, .encDone, .found] ↔ st.word.extractLsb' 4 4 = 0) ∧
    (st.result ∉ [.ok, .encDone, .found] ↔ st.word.extractLsb' 4 4 = 1)) ∧
  (ResultCode.code .ok = 0x00#8 ∧ ResultCode.code .encDone = 0x01#8 ∧ ResultCode.code .found = 0x02#8 ∧
    ResultCode.code .errIllegal = 0x10#8 ∧ ResultCode.code .errSeq = 0x11#8 ∧
    ResultCode.code .errLength = 0x12#8 ∧ ResultCode.code .errDigit = 0x13#8 ∧
    ResultCode.code .errEmpty = 0x14#8 ∧ ResultCode.code .errExhausted = 0x15#8 ∧
    ResultCode.code .errCapacity = 0x16#8 ∧ ResultCode.code .errNoMorePixels = 0x17#8 ∧
    ResultCode.code .errNotFound = 0x18#8 ∧ ResultCode.code .errPlen = 0x19#8 ∧
    ResultCode.code .errMbufOverflow = 0x1A#8) ∧
  (EncPhase.code .idle = 0#3 ∧ EncPhase.code .payload = 1#3 ∧ EncPhase.code .padding = 2#3 ∧
    EncPhase.code .done = 3#3 ∧ EncPhase.code .error = 4#3) ∧
  (DecPhase.code .idle = 0#3 ∧ DecPhase.code .running = 1#3 ∧ DecPhase.code .found = 2#3 ∧
    DecPhase.code .notFound = 3#3 ∧ DecPhase.code .error = 4#3) ∧
  (∀ d : Decoder,
    d.accWord.extractLsb' 0 8 = d.accV ∧ d.accWord.extractLsb' 8 4 = d.accLen ∧
    d.accWord.extractLsb' 12 2 = d.spillV ∧ d.accWord.extractLsb' 14 2 = d.spillLen ∧
    d.accWord.extractLsb' 16 16 = 0)

/-! ## Reset -/

/-- 10_state.md R45, 70_reset_and_hazards.md R320: a reset event loads every element with its reset
value, at any time, and touches neither the pixel buffer, nor the parameters (TERM keeps TERMINATOR), nor
the draws. UNSPEC elements are those marked unwritten (BYTE, SEQ, STR0, STR1) or listing nothing (PBUF,
MBUF), and no read of one is recorded. State.reset itself has the same values. What the UNSPEC registers hold is the model's choice
(notes/assumptions/1.md) and is not stated. -/
def Obligations.ResetLoadsTheResetValues : Prop :=
  let loaded : State → Prop := fun t =>
    t.status.word = 0 ∧ t.regs = { width := 0, height := 0, plen := 0 } ∧
    t.cur = { x := 0, y := 0, wl := 0, hl := 0, cap := 0 } ∧ t.enc = { i := 0, l := 0, n := 0 } ∧
    t.dec = { accV := 0, accLen := 0, spillV := 0, spillLen := 0, mlen := 0 } ∧
    (t.bu.bSet = false ∧ t.bu.seqSet = false ∧ t.bu.str0Set = false ∧ t.bu.str1Set = false) ∧
    (∀ j, Memory.read .pbuf t.pbuf j = none) ∧ (∀ j, Memory.read .mbuf t.mbuf j = none) ∧
    t.unspecRead = none
  loaded State.reset ∧ State.reset.params.terminator = Config.terminator ∧
  ∀ (s : State) (ms : List Move), s.env.moves = .reset :: ms →
    ∃ t, step s = .next t ∧ loaded t ∧ t.params = s.params ∧ t.image = s.image ∧
      t.env = { s.env with moves := ms }

/-- The invariant holds at reset. -/
def Obligations.ResetMeetsTheInvariant : Prop := State.reset.Inv

/-- 10_state.md R44 (and R26, R30, R33, R34, R36, R41, R42): every step, of the sequencer or of the
environment, keeps the invariant; the memories keep their canonical form. -/
def Obligations.EveryStepKeepsTheInvariant : Prop :=
  ∀ s t : State, s.Inv → step s = .next t → t.Inv

/-- 10_state.md R27, 00_scope.md R6: no step changes a parameter, so TERM reads TERMINATOR at reset and
forever, with bits [31:8] zero; a write to it is ignored. -/
def Obligations.TermIsHardwired : Prop :=
  (∀ s t : State, step s = .next t → t.params = s.params) ∧
  (∀ (s : State) (ms : List Move), s.env.moves = .read 0x038#32 32 :: ms →
    ∃ w, step s = .next (answered s ms w) ∧ w.extractLsb' 0 8 = s.params.terminator ∧
      w.extractLsb' 8 24 = 0) ∧
  (∀ (s : State) (ms : List Move) (w : Word), s.env.moves = .write 0x038#32 32 w :: ms →
    step s = .next (s.setMoves ms))

/-! ## Control -/

/-- 44_control.md R260, 30_encoding.md R99: NOP is the all-zero word and no other word of OP 0x00; it sets
RESULT to OK and changes nothing else; and no other word, legal or not, does only that in every state. -/
def Obligations.NopSetsResultOk : Prop :=
  WordN 0x00#6 .nop ∧ encode .nop = 0 ∧
  (∀ s : State, exec .nop s = .next { s with status := ended s.status .ok }) ∧
  ∀ w : Word,
    (∀ s : State, s.status.busy = true → s.env.moves = [] → s.cmdr = w →
      step s = .next { s with status := ended s.status .ok }) → w = 0

/-- 44_control.md R261: SOFT_RESET; issued while BUSY = 1 it is dropped like any command. -/
def Obligations.SoftResetClearsTheWalkState : Prop :=
  WordN 0x3F#6 .softReset ∧
  (∀ s : State, ∃ st : Status, st.word = 0 ∧
    exec .softReset s = .next { s with
      status := st
      cur := { x := 0, y := 0, wl := 0, hl := 0, cap := 0 }
      enc := { i := 0, l := 0, n := 0 }
      dec := { accV := 0, accLen := 0, spillV := 0, spillLen := 0, mlen := 0 } }) ∧
  ∀ (s : State) (ms : List Move), s.env.moves = .write 0x000#32 32 (encode .softReset) :: ms →
    s.status.busy = true →
    step s = .next { s.setMoves ms with status := { s.status with drop := true } }

/-! ## Byte unit -/

/-- 40_byte_unit.md R130: BYTE_NEW. -/
def Obligations.ByteNewSetsTheByte : Prop :=
  WordV8 0x01#6 .byteNew ∧
  ∀ (s : State) (v : Byte), exec (.byteNew v) s =
    .next { s with
      bu := { s.bu with b := v, bSet := true }
      status := ended s.status .ok }

/-- 40_byte_unit.md R131, R132, R133: BYTE_STORE_BIT and BYTE_STORE_RANDOM_BIT replace bit 0 of B with
the operand, or with the draw, whatever it is, and change nothing else. B is not UNSPEC. -/
def Obligations.ByteStoreBitReplacesTheLsb : Prop :=
  WordBit 0x02#6 .byteStoreBit ∧ WordN 0x03#6 .byteStoreRandomBit ∧
  ∀ s : State, s.bu.bSet = true →
    (∀ bit : Bool, ∃ v : Byte, v.getLsbD 0 = bit ∧ v.extractLsb' 1 7 = s.bu.b.extractLsb' 1 7 ∧
      exec (.byteStoreBit bit) s =
        .next { s with bu := { s.bu with b := v }, status := ended s.status .ok }) ∧
    (∃ v : Byte, v.getLsbD 0 = s.randBit 0 ∧ v.extractLsb' 1 7 = s.bu.b.extractLsb' 1 7 ∧
      exec .byteStoreRandomBit s =
        .next { s with
          bu := { s.bu with b := v }
          status := ended s.status .ok
          env := { s.env with draws := s.env.draws + 1 } })

/-- 40_byte_unit.md R134: BYTE_TO_SEQ: SEQ is the sequence of B, of length 8. B is not UNSPEC. -/
def Obligations.ByteToSeqHoldsTheBits : Prop :=
  WordN 0x04#6 .byteToSeq ∧
  ∀ s : State, s.bu.bSet = true → ∃ v : BitVec 16, v.toNat = fold (toSeq s.bu.b) ∧
    exec .byteToSeq s =
      .next { s with
        bu := { s.bu with seqV := v, seqLen := 8, seqSet := true }
        status := ended s.status .ok }

/-- 40_byte_unit.md R135, R136, R137: any sequence of at most 16 bits that SEQ_LOAD presents, folded: the
exact variant takes it if its length is 8, the bounded variant if it is at most 8, and otherwise they
give ERR_LENGTH and leave B (and whether it is UNSPEC) as it was. -/
def Obligations.SequencesFoldIntoTheByte : Prop :=
  WordN 0x05#6 .byteFromSeq ∧ WordN 0x06#6 .byteFromSeqBounded ∧
  ∀ (s : State) (l : List Bool), s.bu.seqSet = true → s.bu.seqLen.toNat = l.length →
    s.bu.seqV.toNat = fold l →
    ∃ v : Byte, (l.length ≤ 8 → v.toNat = fold l) ∧
      exec .byteFromSeq s = .next
        (if l.length = 8 then
          { s with bu := { s.bu with b := v, bSet := true }, status := ended s.status .ok }
         else { s with status := ended s.status .errLength }) ∧
      exec .byteFromSeqBounded s = .next
        (if l.length ≤ 8 then
          { s with bu := { s.bu with b := v, bSet := true }, status := ended s.status .ok }
         else { s with status := ended s.status .errLength })

/-- 40_byte_unit.md R137, 30_encoding.md R95: SEQ_LOAD holds the sequence right-aligned; bits of SEQ at or
above LEN are discarded; element j of a sequence of n bits is SEQ_V[n−1−j] (10_state.md R30). -/
def Obligations.SeqLoadHoldsTheSequence : Prop :=
  (∀ w : Word, opField w = 0x07#6 →
    if w.extractLsb' 21 5 = 0 ∧ (w.extractLsb' 16 5).toNat ≤ 16 then
      decode w = .ok (.seqLoad (w.extractLsb' 16 5) (w.extractLsb' 0 16))
    else ∃ e, decode w = .error e) ∧
  (∀ (s : State) (len : BitVec 5) (seq : BitVec 16), len.toNat ≤ 16 →
    ∃ v : BitVec 16, v.toNat = seq.toNat % 2 ^ len.toNat ∧
      exec (.seqLoad len seq) s =
        .next { s with
          bu := { s.bu with seqV := v, seqLen := len, seqSet := true }
          status := ended s.status .ok }) ∧
  (∀ (s : State) (l : List Bool), l.length ≤ 16 →
    ∃ v : BitVec 16, v.toNat = fold l ∧
      (∀ j, j < l.length → l[j]? = some (v.getLsbD (l.length - 1 - j))) ∧
      exec (.seqLoad (BitVec.ofNat 5 l.length) (BitVec.ofNat 16 (fold l))) s =
        .next { s with
          bu := { s.bu with seqV := v, seqLen := BitVec.ofNat 5 l.length, seqSet := true }
          status := ended s.status .ok })

/-- 40_byte_unit.md R138: BYTE_FROM_STR: eight digits c0 to c7 (lanes of STR0, then of STR1), c0 the most
significant; any other character gives ERR_DIGIT and leaves B. STR0 and STR1 are not UNSPEC. -/
def Obligations.BinaryStringsBecomeTheByte : Prop :=
  WordN 0x08#6 .byteFromStr ∧
  ∀ s : State, s.bu.str0Set = true → s.bu.str1Set = true →
    (∀ l : List Bool, l.length = 8 →
      (∀ j, j < 8 → (if j < 4 then lane s.bu.str0 j else lane s.bu.str1 (j - 4)) =
        if l.getD j false then 0x31#8 else 0x30#8) →
      ∃ v : Byte, v.toNat = fold l ∧
        exec .byteFromStr s =
          .next { s with
            bu := { s.bu with b := v, bSet := true }
            status := ended s.status .ok }) ∧
    ((∃ j, j < 8 ∧ (if j < 4 then lane s.bu.str0 j else lane s.bu.str1 (j - 4)) ≠ 0x30#8 ∧
        (if j < 4 then lane s.bu.str0 j else lane s.bu.str1 (j - 4)) ≠ 0x31#8) →
      exec .byteFromStr s = .next { s with status := ended s.status .errDigit })

/-- 40_byte_unit.md R139: BYTE_TO_STR: c(j) is 0x30 + B[7−j]; then BYTE_FROM_STR leaves B as it was. B is
not UNSPEC. -/
def Obligations.ByteBecomesItsBinaryString : Prop :=
  WordN 0x09#6 .byteToStr ∧
  ∀ s : State, s.bu.bSet = true → ∃ w0 w1 : Word,
    (∀ j, j < 4 →
      lane w0 j = (if s.bu.b.getLsbD (7 - j) then 0x31#8 else 0x30#8) ∧
      lane w1 j = (if s.bu.b.getLsbD (3 - j) then 0x31#8 else 0x30#8)) ∧
    exec .byteToStr s =
      .next { s with
        bu := { s.bu with str0 := w0, str0Set := true, str1 := w1, str1Set := true }
        status := ended s.status .ok } ∧
    ∀ t, exec .byteToStr s = .next t → exec .byteFromStr t = .next t

/-- 40_byte_unit.md R141, R140: BYTE_CMP: EQ and LT of the unsigned comparison, no other flag. B is not
UNSPEC. -/
def Obligations.ByteCmpComparesUnsigned : Prop :=
  WordV8 0x0A#6 .byteCmp ∧
  ∀ (s : State) (v : Byte), s.bu.bSet = true → ∃ e l : Bool,
    (e = true ↔ s.bu.b.toNat = v.toNat) ∧ (l = true ↔ s.bu.b.toNat < v.toNat) ∧
    exec (.byteCmp v) s =
      .next { s with status := { ended s.status .ok with eq := e, lt := l } }

/-- 00_scope.md R10, 40_byte_unit.md R142: `fold` and `to_seq`; BYTE_NEW v, BYTE_TO_SEQ, BYTE_FROM_SEQ (or
the bounded variant) leave B = v with RESULT OK. -/
def Obligations.ByteSequenceRoundTrip : Prop :=
  fold [] = 0 ∧ (∀ (l : List Bool) (b : Bool), fold (l ++ [b]) = 2 * fold l + b.toNat) ∧
  (∀ l : List Bool, fold l < 2 ^ l.length) ∧
  (∀ v : Byte, (toSeq v).length = 8 ∧ (∀ j, j < 8 → (toSeq v)[j]? = some (v.getLsbD (7 - j))) ∧
    fold (toSeq v) = v.toNat) ∧
  ∀ (s : State) (v : Byte), ∃ s1 s2 s3 s4 : State,
    exec (.byteNew v) s = .next s1 ∧ exec .byteToSeq s1 = .next s2 ∧
    exec .byteFromSeq s2 = .next s3 ∧ s3.bu.b = v ∧ s3.status.result = .ok ∧
    exec .byteFromSeqBounded s2 = .next s4 ∧ s4.bu.b = v ∧ s4.status.result = .ok

/-- 40_byte_unit.md R143: the frame of the Byte unit commands: B stays in [0, 255], and no pixel, cursor,
encoder, decoder, buffer or host register state changes, no flag but EQ and LT, and those only by BYTE_CMP.
Every one completes in any state: where a register it reads is UNSPEC that is the model's choice
(notes/assumptions/1.md), and UnspecReadsAreRecorded says what it does there. -/
def Obligations.ByteCommandsFrame : Prop :=
  ∀ (i : Instr) (s : State), isByteCommand i = true → ∃ t, exec i s = .next t ∧
    t.bu.b.toNat ≤ 255 ∧ t.image = s.image ∧ t.cur = s.cur ∧ t.enc = s.enc ∧ t.dec = s.dec ∧
    t.pbuf = s.pbuf ∧ t.mbuf = s.mbuf ∧ t.regs = s.regs ∧ t.params = s.params ∧
    t.cmdr = s.cmdr ∧ t.env.moves = s.env.moves ∧ t.env.rdata = s.env.rdata ∧
    t.env.pixOut = s.env.pixOut ∧
    t.status = { s.status with
      result := t.status.result, busy := false, eq := t.status.eq, lt := t.status.lt } ∧
    ((∀ v, i ≠ .byteCmp v) → t.status.eq = s.status.eq ∧ t.status.lt = s.status.lt)

/-- 10_state.md R21, 60_exceptions.md R290, 70_reset_and_hazards.md R324, R325, R341: a command that reads an
UNSPEC register is a fault naming the register, recorded; the first record stays; no other command records one,
in any state; and a register is UNSPEC until one of its writers has run since reset. With none recorded before,
the strict step of R21, the model's that stops, stops there naming the register, and nowhere else at a command
that completes. The model's choice (notes/assumptions/1.md): the machine's own step goes on, with what the
register holds. DEDUCED (notes/assumptions/16.md): BYTE_FROM_STR reads both STR0 and STR1 and names STR0 first,
a length error has read SEQ, a modified B stays UNSPEC, and SOFT_RESET leaves the marks and the record. -/
def Obligations.UnspecReadsAreRecorded : Prop :=
  (∀ (i : Instr) (s t : State) (r : UnspecReg), s.unspecRead = some r → exec i s = .next t →
    t.unspecRead = some r) ∧
  (∀ (i : Instr) (s : State), s.unspecRead = none →
    (((∃ b, i = .byteStoreBit b) ∨ i = .byteStoreRandomBit ∨ i = .byteToSeq ∨ i = .byteToStr ∨
        (∃ v, i = .byteCmp v)) → s.bu.bSet = false →
      ∃ t, exec i s = .next t ∧ t.unspecRead = some .byte) ∧
    ((i = .byteFromSeq ∨ i = .byteFromSeqBounded) → s.bu.seqSet = false →
      ∃ t, exec i s = .next t ∧ t.unspecRead = some .seq) ∧
    (i = .byteFromStr → s.bu.str0Set = false →
      ∃ t, exec i s = .next t ∧ t.unspecRead = some .str0) ∧
    (i = .byteFromStr → s.bu.str0Set = true → s.bu.str1Set = false →
      ∃ t, exec i s = .next t ∧ t.unspecRead = some .str1)) ∧
  (∀ (i : Instr) (s t : State), exec i s = .next t → t.unspecRead ≠ s.unspecRead →
    ∃ r ∈ readsOf i, s.unspecRead = none ∧ t.unspecRead = some r ∧
      (r = .byte → s.bu.bSet = false) ∧ (r = .seq → s.bu.seqSet = false) ∧
      (r = .str0 → s.bu.str0Set = false) ∧ (r = .str1 → s.bu.str1Set = false)) ∧
  (∀ (i : Instr) (s : State), isByteCommand i = true → ∃ t u, exec i s = .next t ∧
    exec i (allWritten s) = .next u ∧ allWritten t = u) ∧
  (∀ (i : Instr) (s t : State), s.unspecRead = none → s.status.busy = true → s.env.moves = [] →
    decode s.cmdr = .ok i → exec i s = .next t →
    (t.unspecRead = none → strictStep s = .next t) ∧
    (∀ r, t.unspecRead = some r → strictStep s = .fault (.unspecRead r))) ∧
  (∀ (i : Instr) (s t : State), exec i s = .next t →
    (t.bu.bSet = true ↔ s.bu.bSet = true ∨ (∃ v, i = .byteNew v) ∨
      ((i = .byteFromSeq ∨ i = .byteFromSeqBounded ∨ i = .byteFromStr) ∧ t.status.result = .ok)) ∧
    (t.bu.seqSet = true ↔ s.bu.seqSet = true ∨ i = .byteToSeq ∨
      ∃ l q, i = .seqLoad l q ∧ i.wf = true) ∧
    (t.bu.str0Set = true ↔ s.bu.str0Set = true ∨ i = .byteToStr) ∧
    (t.bu.str1Set = true ↔ s.bu.str1Set = true ∨ i = .byteToStr))

/-! ## Cursor -/

/-- 41_cursor.md R180, R171: CUR_INIT: ERR_SEQ alone in a walk; otherwise it latches the low COORD_BITS bits
of WIDTH and HEIGHT, goes to (0, 0) and clears EXH; ERR_EMPTY if the image has no pixel. -/
def Obligations.CurInitLatchesTheDimensions : Prop :=
  WordN 0x10#6 .curInit ∧ outOfPhase .curInit (fun st => st.walkActive) ∧
  ∀ s : State, s.status.walkActive = false → ∃ wl hl : Coord,
    wl.toNat = s.regs.width.toNat % 2 ^ s.params.coordBits ∧
    hl.toNat = s.regs.height.toNat % 2 ^ s.params.coordBits ∧
    exec .curInit s =
      .next { s with
        cur := { s.cur with x := 0, y := 0, wl := wl, hl := hl }
        status := { ended s.status
            (if wl.toNat = 0 ∨ hl.toNat = 0 then .errEmpty else .ok) with exh := false } }

/-- 41_cursor.md R174, R173: CUR_ADVANCE: ERR_SEQ alone in a walk; otherwise the next coordinate in raster
order, ERR_EXHAUSTED with EXH at the final one, ERR_EMPTY if the image has no pixel. -/
def Obligations.CurAdvanceIsRasterOrder : Prop :=
  WordN 0x11#6 .curAdvance ∧ outOfPhase .curAdvance (fun st => st.walkActive) ∧
  ∀ s : State, s.status.walkActive = false →
    ((s.cur.wl.toNat = 0 ∨ s.cur.hl.toNat = 0) →
      exec .curAdvance s = .next { s with status := ended s.status .errEmpty }) ∧
    (1 ≤ s.cur.wl.toNat → 1 ≤ s.cur.hl.toNat →
      (s.cur.x.toNat + 1 < s.cur.wl.toNat → ∃ x : Coord, x.toNat = s.cur.x.toNat + 1 ∧
        exec .curAdvance s =
          .next { s with cur := { s.cur with x := x }, status := ended s.status .ok }) ∧
      (¬ s.cur.x.toNat + 1 < s.cur.wl.toNat → s.cur.y.toNat + 1 < s.cur.hl.toNat →
        ∃ y : Coord, y.toNat = s.cur.y.toNat + 1 ∧
          exec .curAdvance s =
            .next { s with cur := { s.cur with x := 0, y := y }, status := ended s.status .ok }) ∧
      (¬ s.cur.x.toNat + 1 < s.cur.wl.toNat → ¬ s.cur.y.toNat + 1 < s.cur.hl.toNat →
        exec .curAdvance s =
          .next { s with status := { ended s.status .errExhausted with exh := true } }))

/-- 41_cursor.md R179, 20_memory.md R64: from (0, 0), call number k of advance() leaves the cursor at the
pixel of linear index k and returns ok while k < WL·HL; call number WL·HL returns exhausted, and so does
every later one, at the final coordinate. -/
def Obligations.TraversalVisitsEveryPixelInOrder : Prop :=
  ∀ s : State, 1 ≤ s.cur.wl.toNat → 1 ≤ s.cur.hl.toNat → s.cur.x = 0 → s.cur.y = 0 →
    (∀ k, k < s.cur.wl.toNat * s.cur.hl.toNat →
      linear s.cur.wl (State.advance^[k] s).cur.x (State.advance^[k] s).cur.y = k ∧
      (State.advance^[k] s).cur.x.toNat < s.cur.wl.toNat ∧
      ((State.advance^[k] s).advanceOk = true ↔ k + 1 < s.cur.wl.toNat * s.cur.hl.toNat)) ∧
    (∀ k, s.cur.wl.toNat * s.cur.hl.toNat ≤ k + 1 →
      (State.advance^[k] s).advanceOk = false ∧
      (State.advance^[k] s).cur.x.toNat + 1 = s.cur.wl.toNat ∧
      (State.advance^[k] s).cur.y.toNat + 1 = s.cur.hl.toNat ∧
      (State.advance^[k + 1] s).status.exh = true)

/-- 41_cursor.md R176, R177: CUR_IN_BOUNDS_X and CUR_IN_BOUNDS_Y: ERR_SEQ alone in a walk; otherwise IB is
the unsigned comparison, no other flag. -/
def Obligations.InBoundsComparesWithTheLatchedDimension : Prop :=
  WordC24 0x12#6 .curInBoundsX ∧ WordC24 0x13#6 .curInBoundsY ∧
  (∀ c, outOfPhase (.curInBoundsX c) (fun st => st.walkActive)) ∧
  (∀ c, outOfPhase (.curInBoundsY c) (fun st => st.walkActive)) ∧
  ∀ (s : State) (c : Coord), s.status.walkActive = false →
    (∃ v : Bool, (v = true ↔ c.toNat < s.cur.wl.toNat) ∧
      exec (.curInBoundsX c) s = .next { s with status := { ended s.status .ok with ib := v } }) ∧
    (∃ v : Bool, (v = true ↔ c.toNat < s.cur.hl.toNat) ∧
      exec (.curInBoundsY c) s = .next { s with status := { ended s.status .ok with ib := v } })

/-- 41_cursor.md R178, 00_scope.md R12: CUR_CAPACITY: ERR_SEQ alone in a walk; otherwise the product of the
latched dimensions, exact in 64 bits. -/
def Obligations.CapacityIsExact : Prop :=
  WordN 0x14#6 .curCapacity ∧ outOfPhase .curCapacity (fun st => st.walkActive) ∧
  ∀ s : State, s.status.walkActive = false → ∃ cap : BitVec 64,
    cap.toNat = 3 * s.cur.wl.toNat * s.cur.hl.toNat ∧
    exec .curCapacity s =
      .next { s with cur := { s.cur with cap := cap }, status := ended s.status .ok }

/-- 60_exceptions.md R284 (step 2): outside their phase the cursor, encoder and decoder commands give
ERR_SEQ before any other check, and change nothing but RESULT and BUSY. -/
def Obligations.CommandsOutOfPhaseGiveErrSeq : Prop :=
  ∀ (i : Instr) (s : State),
    ((isCursorCommand i = true ∧ s.status.walkActive = true) ∨
     ((i = .encStep ∨ i = .encRun) ∧ s.status.eph ≠ .payload ∧ s.status.eph ≠ .padding) ∨
     ((i = .decStep ∨ i = .decRun ∨ ∃ t0 t1 t2, i = .decFeed t0 t1 t2) ∧
       s.status.dph ≠ .running)) →
    exec i s = .next { s with status := ended s.status .errSeq }

/-! ## Encoder -/

/-- 42_encoder.md R201: ENC_START: ERR_PLEN before the cursor is touched; otherwise the cursor is
initialised, ENC_N, ENC_L, ENC_I and CAP are written, and the walk starts exactly if
3·W·H > 8·(n+1). -/
def Obligations.EncStartChecksLengthThenCapacity : Prop :=
  WordN 0x20#6 .encStart ∧
  ∀ s : State,
    (s.params.pbufMax < s.regs.plen.toNat →
      exec .encStart s =
        .next { s with status := { ended s.status .errPlen with eph := .error, dph := .idle } }) ∧
    (s.regs.plen.toNat ≤ s.params.pbufMax →
      ∃ (wl hl : Coord) (cap : BitVec 64) (l : Word),
        wl.toNat = s.regs.width.toNat % 2 ^ s.params.coordBits ∧
        hl.toNat = s.regs.height.toNat % 2 ^ s.params.coordBits ∧
        cap.toNat = 3 * wl.toNat * hl.toNat ∧ l.toNat = 8 * (s.regs.plen.toNat + 1) ∧
        exec .encStart s =
          .next { s with
            cur := { x := 0, y := 0, wl := wl, hl := hl, cap := cap }
            enc := { i := 0, l := l, n := s.regs.plen }
            status :=
              if l.toNat < cap.toNat then
                { ended s.status .ok with eph := .payload, dph := .idle, exh := false }
              else
                { ended s.status .errCapacity with eph := .error, dph := .idle, exh := false } })

/-- 42_encoder.md R202, 20_memory.md R69: flat bit i of the payload is bit 7 − (i mod 8) of byte i div 8,
a PBUF byte below ENC_N and TERMINATOR at ENC_N; an UNSPEC PBUF byte is the fault naming it. -/
def Obligations.PayloadBitsAreMostSignificantFirst : Prop :=
  ∀ (s : State) (i : Nat),
    (i / 8 < s.enc.n.toNat → ∀ v, Memory.read .pbuf s.pbuf (i / 8) = some v →
      s.payloadBit i = .ok (v.getLsbD (7 - i % 8))) ∧
    (i / 8 < s.enc.n.toNat → Memory.read .pbuf s.pbuf (i / 8) = none →
      s.payloadBit i = .error (.pbufUnspec (i / 8))) ∧
    (i / 8 = s.enc.n.toNat → s.payloadBit i = .ok (s.params.terminator.getLsbD (7 - i % 8)))

/-- 42_encoder.md R203: the payload pixel step of ENC_STEP, in any state that meets the invariant with the
latched image open and the payload written: k = min(ENC_L − ENC_I, 3) channels get the next bits, R first,
the others and alpha are as read; every other pixel is unchanged; ENC_I grows by k; the cursor advances;
the walk goes on, turns to padding, or is done. -/
def Obligations.EncStepWritesThePayloadPixel : Prop :=
  WordN 0x21#6 .encStep ∧
  ∀ s : State, s.Inv → s.imageLatched → s.pbufWritten s.enc.n.toNat → s.status.eph = .payload →
    ∃ (img : Image) (i : Word) (k : Nat),
      k = min (s.enc.l.toNat - s.enc.i.toNat) 3 ∧ i.toNat = s.enc.i.toNat + k ∧
      img.w = s.image.w ∧ img.h = s.image.h ∧
      (∀ x y, ¬ (x = s.cur.x ∧ y = s.cur.y) → img.pixRead x y = s.image.pixRead x y) ∧
      (∀ j, j < 3 → if j < k then
          s.payloadBit (s.enc.i.toNat + j) =
            .ok (lsb (channel (img.pixRead s.cur.x s.cur.y) j))
        else channel (img.pixRead s.cur.x s.cur.y) j = channel s.curPixel j) ∧
      s.curPixel.sameButLsbs (img.pixRead s.cur.x s.cur.y) ∧
      exec .encStep s =
        .next { s with
          image := img
          enc := { s.enc with i := i }
          cur := s.advance.cur
          status := { ended s.status (if i = s.enc.l ∧ s.advanceOk = false then .encDone else .ok)
            with
            exh := s.advance.status.exh
            eph := if i ≠ s.enc.l then .payload
              else if s.advanceOk then .padding else .done } }

/-- 42_encoder.md R205: the padding pixel step: the LSBs of R, G and B are the three draws, in that order and
whatever they are; bits [7:1] and alpha are as read; every other pixel is unchanged; the walk goes on or is
done. -/
def Obligations.EncStepPadsThePixel : Prop :=
  ∀ s : State, s.Inv → s.imageLatched → s.status.eph = .padding →
    ∃ img : Image, img.w = s.image.w ∧ img.h = s.image.h ∧
      (∀ x y, ¬ (x = s.cur.x ∧ y = s.cur.y) → img.pixRead x y = s.image.pixRead x y) ∧
      (∀ j, j < 3 → lsb (channel (img.pixRead s.cur.x s.cur.y) j) = s.randBit j) ∧
      s.curPixel.sameButLsbs (img.pixRead s.cur.x s.cur.y) ∧
      exec .encStep s =
        .next { s with
          image := img
          cur := s.advance.cur
          env := { s.env with draws := s.env.draws + 3 }
          status := { ended s.status (if s.advanceOk then .ok else .encDone) with
            exh := s.advance.status.exh
            eph := if s.advanceOk then .padding else .done } }

/-- 42_encoder.md R207, 10_state.md R38: a command step of ENC_RUN is one ENC_STEP body, and BUSY stays 1
exactly while EPH is in {PAYLOAD, PADDING}; with R203, R205 it completes where ENC_STEP does. -/
def Obligations.EncRunIsEncStepWithBusyHeld : Prop :=
  WordN 0x22#6 .encRun ∧
  (∀ s t : State, exec .encStep s = .next t →
    exec .encRun s = .next { t with status := { t.status with
      busy := decide (t.status.eph = .payload ∨ t.status.eph = .padding) } }) ∧
  (∀ s : State, s.Inv → s.imageLatched → s.pbufWritten s.enc.n.toNat →
    ∃ t, exec .encStep s = .next t ∧
      exec .encRun s = .next { t with status := { t.status with
        busy := decide (t.status.eph = .payload ∨ t.status.eph = .padding) } })

/-- 42_encoder.md R209: in a state that meets the invariant no command ends with ERR_NO_MORE_PIXELS. -/
def Obligations.NoMorePixelsIsUnreachable : Prop :=
  ∀ (i : Instr) (s t : State), s.Inv → exec i s = .next t → t.status.result ≠ .errNoMorePixels

/-- 42_encoder.md R207, R208, R210: the closed form of an encode walk. ENC_RUN from the start of a walk
takes W·H command steps and ends DONE with ENC_DONE; flat bit 3p+j is in channel j of pixel p; a channel
of the last payload pixel past the payload is unchanged; bits [7:1] and alpha of every pixel are
unchanged; a padding pixel's LSBs are three draws of their own, whatever they are. -/
def Obligations.EncodeWalkClosedForm : Prop :=
  ∀ s : State, s.Inv → s.imageLatched → s.pbufWritten s.enc.n.toNat →
    s.status.eph = .payload → s.enc.i = 0 → s.status.busy = true → s.env.moves = [] →
    s.cmdr = 0x88000000#32 →
    ∃ t, Sys2Proof.core.run (s.cur.wl.toNat * s.cur.hl.toNat) s = .next t ∧
      t.status.eph = .done ∧ t.status.result = .encDone ∧ t.status.busy = false ∧
      t.env.moves = [] ∧ t.image.w = s.image.w ∧ t.image.h = s.image.h ∧ t.pbuf = s.pbuf ∧
      t.regs = s.regs ∧ t.params = s.params ∧
      ∀ x y : Coord, x.toNat < s.cur.wl.toNat → y.toNat < s.cur.hl.toNat →
        (s.image.pixRead x y).sameButLsbs (t.image.pixRead x y) ∧
        ∀ j, j < 3 →
          (3 * linear s.cur.wl x y + j < s.enc.l.toNat →
            s.payloadBit (3 * linear s.cur.wl x y + j) =
              .ok (lsb (channel (t.image.pixRead x y) j))) ∧
          (linear s.cur.wl x y < payloadPixels s.enc.l.toNat →
            s.enc.l.toNat ≤ 3 * linear s.cur.wl x y + j →
            channel (t.image.pixRead x y) j = channel (s.image.pixRead x y) j) ∧
          (payloadPixels s.enc.l.toNat ≤ linear s.cur.wl x y →
            lsb (channel (t.image.pixRead x y) j) =
              s.randBit (3 * (linear s.cur.wl x y - payloadPixels s.enc.l.toNat) + j))

/-- 42_encoder.md R211: what the encoder never does, command by command: PBUF, MBUF, BYTE, SEQ, STR and
ACC are never written, ENC_START touches no pixel, a payload step draws nothing. -/
def Obligations.EncoderCommandsFrame : Prop :=
  ∀ (i : Instr) (s t : State), isEncoderCommand i = true → exec i s = .next t →
    t.pbuf = s.pbuf ∧ t.mbuf = s.mbuf ∧ t.bu = s.bu ∧ t.unspecRead = s.unspecRead ∧ t.dec = s.dec ∧
    t.regs = s.regs ∧
    t.cmdr = s.cmdr ∧ t.env.moves = s.env.moves ∧ t.env.rdata = s.env.rdata ∧
    t.env.pixOut = s.env.pixOut ∧ t.status.eq = s.status.eq ∧
    t.status.lt = s.status.lt ∧ t.status.ib = s.status.ib ∧ t.status.drop = s.status.drop ∧
    (i = .encStart → t.image = s.image) ∧
    (t.env.draws ≠ s.env.draws → s.status.eph = .padding) ∧
    (t.enc ≠ s.enc → i = .encStart ∨ s.status.eph = .payload)

/-! ## Decoder -/

/-- 43_decoder.md R241: DEC_START. -/
def Obligations.DecStartClearsTheDecoder : Prop :=
  WordN 0x28#6 .decStart ∧
  ∀ s : State, ∃ wl hl : Coord,
    wl.toNat = s.regs.width.toNat % 2 ^ s.params.coordBits ∧
    hl.toNat = s.regs.height.toNat % 2 ^ s.params.coordBits ∧
    exec .decStart s =
      .next { s with
        cur := { s.cur with x := 0, y := 0, wl := wl, hl := hl }
        dec := { accV := 0, accLen := 0, spillV := 0, spillLen := 0, mlen := 0 }
        status :=
          if wl.toNat = 0 ∨ hl.toNat = 0 then
            { ended s.status .errEmpty with eph := .idle, dph := .error, exh := false }
          else { ended s.status .ok with eph := .idle, dph := .running, exh := false } }

/-- 43_decoder.md R249, R243, R244: DEC_FEED: ERR_SEQ alone unless RUNNING. While RUNNING, a completed byte
equal to TERMINATOR is FOUND; any other with MLEN = MBUF_MAX is ERR_MBUF_OVERFLOW; both leave ACC and MLEN.
Otherwise, in a state that meets the invariant, the bits of the accumulator, the spillover and the triplet
in that order are regrouped: a completed byte goes to MBUF[MLEN], and no other byte of MBUF changes. -/
def Obligations.DecFeedFollowsTheTable : Prop :=
  (∀ w : Word, opField w = 0x2B#6 →
    if w.extractLsb' 3 23 = 0 then
      decode w = .ok (.decFeed (w.getLsbD 0) (w.getLsbD 1) (w.getLsbD 2))
    else decode w = .error .reservedBit) ∧
  (∀ t0 t1 t2, outOfPhase (.decFeed t0 t1 t2) (fun st => st.dph != .running)) ∧
  ∀ (s : State) (t0 t1 t2 : Bool), s.Inv → s.status.dph = .running →
    (s.dec.accLen.toNat = 8 → s.dec.accV = s.params.terminator →
      exec (.decFeed t0 t1 t2) s =
        .next { s with status := { ended s.status .found with dph := .found } }) ∧
    (s.dec.accLen.toNat = 8 → s.dec.accV ≠ s.params.terminator →
      s.dec.mlen.toNat = s.params.mbufMax →
      exec (.decFeed t0 t1 t2) s =
        .next { s with status := { ended s.status .errMbufOverflow with dph := .error } }) ∧
    (s.dec.accLen.toNat = 8 → s.dec.accV ≠ s.params.terminator →
      s.dec.mlen.toNat < s.params.mbufMax →
      ∃ (m : Memory) (d : Decoder),
        exec (.decFeed t0 t1 t2) s =
          .next { s with mbuf := m, dec := d, status := ended s.status .ok } ∧
        Memory.read .mbuf m s.dec.mlen.toNat = some s.dec.accV ∧
        (∀ a, a ≠ s.dec.mlen.toNat → Memory.read .mbuf m a = Memory.read .mbuf s.mbuf a) ∧
        d.mlen.toNat = s.dec.mlen.toNat + 1 ∧
        d.accLen.toNat = s.dec.spillLen.toNat + 3 ∧ d.spillLen = 0 ∧ d.spillV = 0 ∧
        d.accV.toNat = 8 * s.dec.spillV.toNat + fold [t0, t1, t2]) ∧
    (s.dec.accLen.toNat < 8 →
      ∃ d : Decoder,
        exec (.decFeed t0 t1 t2) s =
          .next { s with dec := d, status := ended s.status .ok } ∧
        d.mlen = s.dec.mlen ∧
        d.accLen.toNat = min 8 (s.dec.accLen.toNat + 3) ∧
        d.spillLen.toNat = s.dec.accLen.toNat + 3 - 8 ∧
        d.accV.toNat =
          s.dec.accV.toNat * 2 ^ min 3 (8 - s.dec.accLen.toNat) +
            fold ([t0, t1, t2].take (8 - s.dec.accLen.toNat)) ∧
        d.spillV.toNat = fold ([t0, t1, t2].drop (8 - s.dec.accLen.toNat)))

/-- 43_decoder.md R247, R242: DEC_STEP: ERR_SEQ alone unless RUNNING. While RUNNING, in a state that meets
the invariant with the latched image open: the pixel's LSBs are fed; found and overflow leave the cursor;
otherwise it advances, and at the final pixel the walk ends NOTFOUND with MLEN = 0. No pixel is written. -/
def Obligations.DecStepFeedsThePixel : Prop :=
  WordN 0x29#6 .decStep ∧ outOfPhase .decStep (fun st => st.dph != .running) ∧
  ∀ s : State, s.Inv → s.imageLatched → s.status.dph = .running →
    (s.feedOut = .found →
      exec .decStep s =
        .next { s with status := { ended s.status .found with dph := .found } }) ∧
    (s.feedOut = .overflow →
      exec .decStep s =
        .next { s with status := { ended s.status .errMbufOverflow with dph := .error } }) ∧
    (s.feedOut = .cont → ∃ u,
      exec (.decFeed (lsb s.curPixel.r) (lsb s.curPixel.g) (lsb s.curPixel.b)) s = .next u ∧
      exec .decStep s = .next
        (if s.advanceOk then { u with cur := s.advance.cur }
         else
          { u with
            dec := { u.dec with mlen := 0 }
            status := { u.status with result := .errNotFound, dph := .notFound, exh := true } }))

/-- 43_decoder.md R248, 10_state.md R38: a command step of DEC_RUN is one DEC_STEP body, and BUSY stays 1
exactly while DPH = RUNNING; it completes wherever the latched image is open. -/
def Obligations.DecRunIsDecStepWithBusyHeld : Prop :=
  WordN 0x2A#6 .decRun ∧
  (∀ s t : State, exec .decStep s = .next t →
    exec .decRun s = .next { t with status := { t.status with
      busy := decide (t.status.dph = .running) } }) ∧
  (∀ s : State, s.Inv → s.imageLatched →
    ∃ t, exec .decStep s = .next t ∧
      exec .decRun s = .next { t with status := { t.status with
        busy := decide (t.status.dph = .running) } })

/-- 43_decoder.md R251: the reassembly law. Feeding triplets from a fresh start, as long as each returns
cont: every byte in MBUF below MLEN is the fold of 8 consecutive flat bits, and the accumulator and the
spillover hold the rest. -/
def Obligations.FedBitsAreReassembled : Prop :=
  ∀ (s t : State) (ts : List (Bool × Bool × Bool)),
    s.dec = { accV := 0, accLen := 0, spillV := 0, spillLen := 0, mlen := 0 } →
    feedAll ts s = some t →
    8 * t.dec.mlen.toNat + t.dec.accLen.toNat + t.dec.spillLen.toNat = 3 * ts.length ∧
    (∀ k, k < t.dec.mlen.toNat → ∃ v : Byte, Memory.read .mbuf t.mbuf k = some v ∧
      v.toNat = fold (((flat ts).drop (8 * k)).take 8)) ∧
    t.dec.accV.toNat = fold (((flat ts).drop (8 * t.dec.mlen.toNat)).take t.dec.accLen.toNat) ∧
    t.dec.spillV.toNat =
      fold ((flat ts).drop (8 * t.dec.mlen.toNat + t.dec.accLen.toNat))

/-- 43_decoder.md R250, R252, R244, 70_reset_and_hazards.md R338 (with 42_encoder.md R208): DEC_RUN from the
start of a walk over an image whose LSBs hold ciphertext bytes C and the terminator. Let j be the index of the
first byte of C followed by the terminator that equals TERMINATOR: j = n where no byte of C does, and the
first such byte of C otherwise. With room for j bytes in MBUF and a pixel after those of the first j + 1
bytes, the walk ends FOUND at that pixel, with MLEN = j and MBUF[0 .. j−1] the first j bytes of C. -/
def Obligations.EmbeddedMessageIsRecovered : Prop :=
  ∀ (s : State) (c : List Byte) (j : Nat), s.Inv → s.imageLatched → s.status.dph = .running →
    s.dec = { accV := 0, accLen := 0, spillV := 0, spillLen := 0, mlen := 0 } →
    s.cur.x = 0 → s.cur.y = 0 → s.status.busy = true → s.env.moves = [] →
    s.cmdr = 0xA8000000#32 →
    (c ++ [s.params.terminator])[j]? = some s.params.terminator →
    s.params.terminator ∉ c.take j → j ≤ s.params.mbufMax →
    payloadPixels (payloadBits j) + 1 ≤ s.cur.wl.toNat * s.cur.hl.toNat →
    (∀ x y : Coord, x.toNat < s.cur.wl.toNat → y.toNat < s.cur.hl.toNat → ∀ k, k < 3 →
      3 * linear s.cur.wl x y + k < payloadBits c.length →
      lsb (channel (s.image.pixRead x y) k) =
        flatBit c s.params.terminator (3 * linear s.cur.wl x y + k)) →
    ∃ t, Sys2Proof.core.run (payloadPixels (payloadBits j) + 1) s = .next t ∧
      t.status.dph = .found ∧ t.status.result = .found ∧ t.status.busy = false ∧
      t.dec.mlen.toNat = j ∧
      (∀ k, k < j → Memory.read .mbuf t.mbuf k = some (c.getD k 0)) ∧ t.image = s.image ∧
      linear s.cur.wl t.cur.x t.cur.y = payloadPixels (payloadBits j)

/-- 43_decoder.md R254: what the decoder never does, command by command: no pixel, PBUF, BYTE, SEQ or STR
is written, nothing is drawn, DEC_FEED leaves the cursor, and no byte of MBUF below MLEN changes. -/
def Obligations.DecoderCommandsFrame : Prop :=
  ∀ (i : Instr) (s t : State), isDecoderCommand i = true → exec i s = .next t →
    t.image = s.image ∧ t.pbuf = s.pbuf ∧ t.bu = s.bu ∧ t.unspecRead = s.unspecRead ∧ t.enc = s.enc ∧
    t.regs = s.regs ∧ t.cmdr = s.cmdr ∧ t.env = s.env ∧
    t.status.eq = s.status.eq ∧ t.status.lt = s.status.lt ∧ t.status.ib = s.status.ib ∧
    t.status.drop = s.status.drop ∧
    ((∃ t0 t1 t2, i = .decFeed t0 t1 t2) → t.cur = s.cur ∧ t.status.exh = s.status.exh) ∧
    (∀ a, a ≠ s.dec.mlen.toNat → Memory.read .mbuf t.mbuf a = Memory.read .mbuf s.mbuf a)

/-! ## Whole-machine rules -/

/-- 42_encoder.md R202, R203, 60_exceptions.md R290, 20_memory.md R60: where a command stops, by name. A walk
step stops at a coordinate the open image does not have (the model's stop, notes/assumptions/4.md), and a
payload step at the first byte it needs that is UNSPEC; in a state that meets the invariant these are the only
stops. So with the latched image open and the payload written every command completes; and a command that takes
no walk step completes in any state, where it reads an UNSPEC register too (the model's choice,
notes/assumptions/1.md). -/
def Obligations.CommandsStopOnlyByName : Prop :=
  (∀ s : State, s.image.has s.cur.x s.cur.y = false →
    ((s.status.eph = .payload ∨ s.status.eph = .padding) →
      exec .encStep s = .fault (.pixelOutsideImage s.cur.x s.cur.y) ∧
      exec .encRun s = .fault (.pixelOutsideImage s.cur.x s.cur.y)) ∧
    (s.status.dph = .running →
      exec .decStep s = .fault (.pixelOutsideImage s.cur.x s.cur.y) ∧
      exec .decRun s = .fault (.pixelOutsideImage s.cur.x s.cur.y))) ∧
  (∀ (s : State) (q : Nat), s.image.has s.cur.x s.cur.y = true → s.status.eph = .payload →
    bitOfStep s q → q / 8 < s.enc.n.toNat → Memory.read .pbuf s.pbuf (q / 8) = none →
    (∀ p, bitOfStep s p → p < q → ∃ b, s.payloadBit p = .ok b) →
    exec .encStep s = .fault (.pbufUnspec (q / 8)) ∧
    exec .encRun s = .fault (.pbufUnspec (q / 8))) ∧
  (∀ (i : Instr) (s : State) (f : Fault), s.Inv → exec i s = .fault f →
    (isPixelCommand i = true ∧ s.image.has s.cur.x s.cur.y = false ∧
      f = .pixelOutsideImage s.cur.x s.cur.y) ∨
    ((i = .encStep ∨ i = .encRun) ∧ s.status.eph = .payload ∧
      ∃ q, bitOfStep s q ∧ q / 8 < s.enc.n.toNat ∧ Memory.read .pbuf s.pbuf (q / 8) = none ∧
        f = .pbufUnspec (q / 8))) ∧
  (∀ (i : Instr) (s : State) (r : Refusal), exec i s ≠ .refused r) ∧
  (∀ (i : Instr) (s : State), isPixelCommand i = false → ∃ t, exec i s = .next t) ∧
  (∀ (i : Instr) (s : State), s.Inv → s.imageLatched → s.pbufWritten s.enc.n.toNat →
    ∃ t, exec i s = .next t)

/-- 10_state.md R25, R34, R39: which commands write a flag or DROP. -/
def Obligations.OnlyTheNamedCommandsWriteFlags : Prop :=
  ∀ (i : Instr) (s t : State), exec i s = .next t →
    ((∀ v, i ≠ .byteCmp v) → i ≠ .softReset →
      t.status.eq = s.status.eq ∧ t.status.lt = s.status.lt) ∧
    ((∀ c, i ≠ .curInBoundsX c) → (∀ c, i ≠ .curInBoundsY c) → i ≠ .softReset →
      t.status.ib = s.status.ib) ∧
    (writesExh i = false → t.status.exh = s.status.exh) ∧
    (i ≠ .softReset → t.status.drop = s.status.drop)

/-- 60_exceptions.md R286: an ended walk stays ended until ENC_START, DEC_START, SOFT_RESET or reset. -/
def Obligations.EndedWalksStayEnded : Prop :=
  ∀ s t : State, step s = .next t →
    ((s.status.eph = .done ∨ s.status.eph = .error) → t.status.eph ≠ s.status.eph →
      (∃ ms, s.env.moves = .reset :: ms) ∨
        (s.status.busy = true ∧ ∃ i, decode s.cmdr = .ok i ∧ isPhaseReset i = true)) ∧
    ((s.status.dph = .found ∨ s.status.dph = .notFound ∨ s.status.dph = .error) →
      t.status.dph ≠ s.status.dph →
      (∃ ms, s.env.moves = .reset :: ms) ∨
        (s.status.busy = true ∧ ∃ i, decode s.cmdr = .ok i ∧ isPhaseReset i = true))

/-- 20_memory.md R62, R63: whatever command runs, every pixel differs in at most bit 0 of r, g and b, the
image keeps its dimensions, and only the pixel at the cursor can change at all, by ENC_STEP or ENC_RUN
alone (42_encoder.md R211). -/
def Obligations.CommandsChangeOnlyLsbs : Prop :=
  ∀ (i : Instr) (s t : State), Memory.wf .pixels s.image.mem = true → exec i s = .next t →
    t.image.w = s.image.w ∧ t.image.h = s.image.h ∧
    (i ≠ .encStep → i ≠ .encRun → t.image = s.image) ∧
    ∀ x y : Coord, (s.image.pixRead x y).sameButLsbs (t.image.pixRead x y) ∧
      (¬ (x = s.cur.x ∧ y = s.cur.y) → t.image.pixRead x y = s.image.pixRead x y)

/-- 20_memory.md R65, R67, R68: RandBit is drawn only by BYTE_STORE_RANDOM_BIT (once) and by a padding step
(three times); no command writes PBUF; MBUF changes only in a decode walk, and only at MLEN. -/
def Obligations.DrawsAndBufferWritesByCommand : Prop :=
  ∀ (i : Instr) (s t : State), exec i s = .next t →
    t.pbuf = s.pbuf ∧
    t.env.draws = (s.env.draws + if i = .byteStoreRandomBit then 1
      else if (i = .encStep ∨ i = .encRun) ∧ s.status.eph = .padding then 3 else 0) ∧
    (t.mbuf ≠ s.mbuf → s.status.dph = .running ∧ isDecoderCommand i = true) ∧
    (∀ a, a ≠ s.dec.mlen.toNat → Memory.read .mbuf t.mbuf a = Memory.read .mbuf s.mbuf a)

/-- 42_encoder.md R207, 43_decoder.md R248, 70_reset_and_hazards.md R346: a step of a RUN command that leaves
BUSY = 1 has one pixel fewer to visit, so a RUN takes at most as many steps as pixels are left. Every
other command ends in its one step (10_state.md R38). -/
def Obligations.RunsVisitOnePixelAStep : Prop :=
  ∀ (i : Instr) (s t : State), s.Inv → exec i s = .next t → t.status.busy = true →
    (i = .encRun ∨ i = .decRun) ∧ pixelsLeft t.cur + 1 = pixelsLeft s.cur

/-- 70_reset_and_hazards.md R335, R343, 10_state.md R26, R28: PLEN, WIDTH and HEIGHT are latched: two
states that differ in them alone take the same walk step. -/
def Obligations.WalkStepsIgnoreUnlatchedRegisters : Prop :=
  ∀ (s t : State) (r : HostRegs) (i : Instr),
    (i = .encStep ∨ i = .encRun ∨ i = .decStep ∨ i = .decRun ∨ ∃ t0 t1 t2, i = .decFeed t0 t1 t2) →
    exec i s = .next t → exec i { s with regs := r } = .next { t with regs := r }
end

