-- ==== Sys2Proof/Laws/Memory.lean ====
section
/-! SUPPORT. The laws of the memories: a read after a write, the canonical form, and the pixel port over
them. -/

namespace Sys2Proof.Machine

theorem Memory.risingFrom_lt {k : Nat} {m : Memory} (h : Memory.risingFrom (some k) m = true) :
    ∀ c ∈ m, k < c.1 := by
  induction m generalizing k with
  | nil => simp
  | cons c m ih =>
    simp only [Memory.risingFrom, Bool.and_eq_true, decide_eq_true_eq] at h
    intro d hd
    rcases List.mem_cons.mp hd with rfl | hd
    · exact h.1
    · exact lt_trans h.1 (ih h.2 d hd)

theorem Memory.risingFrom_weaken {b k : Nat} {m : Memory} (hbk : b ≤ k)
    (h : Memory.risingFrom (some k) m = true) : Memory.risingFrom (some b) m = true := by
  cases m with
  | nil => rfl
  | cons c m =>
    simp only [Memory.risingFrom, Bool.and_eq_true, decide_eq_true_eq] at h ⊢
    exact ⟨lt_of_le_of_lt hbk h.1, h.2⟩

theorem Memory.lookup_none {m : Memory} {a : Nat} (h : ∀ c ∈ m, a < c.1) :
    Memory.lookup m a = none := by
  induction m with
  | nil => rfl
  | cons c m ih =>
    have := h c (List.mem_cons_self ..)
    simp only [Memory.lookup, if_neg (by omega : ¬ a = c.1)]
    exact ih fun d hd => h d (List.mem_cons_of_mem _ hd)

theorem Memory.lookup_insert_same (m : Memory) (a : Nat) (v : Byte) :
    Memory.lookup (Memory.insert m a v) a = some v := by
  induction m with
  | nil => simp [Memory.insert, Memory.lookup]
  | cons c m ih =>
    simp only [Memory.insert]
    split
    · simp [Memory.lookup]
    · split
      · simp [Memory.lookup]
      · next h => simp [Memory.lookup, h, ih]

theorem Memory.lookup_insert_other (m : Memory) {a b : Nat} (v : Byte) (h : b ≠ a) :
    Memory.lookup (Memory.insert m a v) b = Memory.lookup m b := by
  induction m with
  | nil => simp [Memory.insert, Memory.lookup, h]
  | cons c m ih =>
    simp only [Memory.insert]
    split
    · simp [Memory.lookup, h]
    · split
      · next he => subst he; simp [Memory.lookup, h]
      · simp [Memory.lookup, ih]

theorem Memory.lookup_erase_same {m : Memory} {lo : Option Nat} (a : Nat)
    (h : Memory.risingFrom lo m = true) : Memory.lookup (Memory.erase m a) a = none := by
  induction m generalizing lo with
  | nil => rfl
  | cons c m ih =>
    have hm : Memory.risingFrom (some c.1) m = true := by
      cases lo <;> simp_all [Memory.risingFrom]
    simp only [Memory.erase]
    split
    · next he => subst he; exact Memory.lookup_none (Memory.risingFrom_lt hm)
    · next he => simp [Memory.lookup, he, ih hm]

theorem Memory.lookup_erase_other (m : Memory) {a b : Nat} (h : b ≠ a) :
    Memory.lookup (Memory.erase m a) b = Memory.lookup m b := by
  induction m with
  | nil => rfl
  | cons c m ih =>
    simp only [Memory.erase]
    split
    · next he => subst he; simp [Memory.lookup, h]
    · simp [Memory.lookup, ih]

/-- A read at the address written gives the byte written. -/
theorem Memory.read_write_same {sp : Space} {m : Memory} (a : Nat) (v : Byte)
    (h : Memory.wf sp m = true) : Memory.read sp (Memory.write sp m a v) a = some v := by
  simp only [Memory.wf, Bool.and_eq_true] at h
  unfold Memory.write
  split
  · next he => simp [Memory.read, Memory.lookup_erase_same a h.1, he]
  · simp [Memory.read, Memory.lookup_insert_same]

/-- A read anywhere else is as before. -/
theorem Memory.read_write_other {sp : Space} (m : Memory) {a b : Nat} (v : Byte) (h : b ≠ a) :
    Memory.read sp (Memory.write sp m a v) b = Memory.read sp m b := by
  unfold Memory.write
  split
  · simp [Memory.read, Memory.lookup_erase_other m h]
  · simp [Memory.read, Memory.lookup_insert_other m v h]

/-- A lower bound of an insertion is a bound of both parts. -/
theorem Memory.risingFrom_insert {m : Memory} {lo : Option Nat} {a : Nat} (v : Byte)
    (h : Memory.risingFrom lo m = true) (ha : ∀ b, lo = some b → b < a) :
    Memory.risingFrom lo (Memory.insert m a v) = true := by
  induction m generalizing lo with
  | nil => cases lo <;> simp_all [Memory.insert, Memory.risingFrom]
  | cons c m ih =>
    have hm : Memory.risingFrom (some c.1) m = true := by
      cases lo <;> simp_all [Memory.risingFrom]
    simp only [Memory.insert]
    split
    · next hlt =>
      cases lo <;> simp_all [Memory.risingFrom]
    · split
      · next he => cases lo <;> simp_all [Memory.risingFrom]
      · next h1 h2 =>
        have := ih hm (by simp; omega)
        cases lo <;> simp_all [Memory.risingFrom]

theorem Memory.risingFrom_erase {m : Memory} {lo : Option Nat} (a : Nat)
    (h : Memory.risingFrom lo m = true) : Memory.risingFrom lo (Memory.erase m a) = true := by
  induction m generalizing lo with
  | nil => cases lo <;> rfl
  | cons c m ih =>
    have hm : Memory.risingFrom (some c.1) m = true := by
      cases lo <;> simp_all [Memory.risingFrom]
    simp only [Memory.erase]
    split
    · cases lo with
      | none => cases m <;> simp_all [Memory.risingFrom]
      | some b =>
        simp only [Memory.risingFrom, Bool.and_eq_true, decide_eq_true_eq] at h
        exact Memory.risingFrom_weaken (le_of_lt h.1) hm
    · have := ih hm
      cases lo <;> simp_all [Memory.risingFrom]

theorem Memory.mem_insert {m : Memory} {a : Nat} {v : Byte} {c : Host.Cell}
    (h : c ∈ Memory.insert m a v) : c = (a, v) ∨ c ∈ m := by
  induction m with
  | nil => simpa [Memory.insert] using h
  | cons d m ih =>
    simp only [Memory.insert] at h
    split at h
    · simpa using h
    · split at h
      · rcases List.mem_cons.mp h with h | h
        · exact .inl h
        · exact .inr (List.mem_cons_of_mem _ h)
      · rcases List.mem_cons.mp h with h | h
        · exact .inr (h ▸ List.mem_cons_self ..)
        · exact (ih h).imp_right (List.mem_cons_of_mem _)

theorem Memory.mem_erase {m : Memory} {a : Nat} {c : Host.Cell} (h : c ∈ Memory.erase m a) :
    c ∈ m := by
  induction m with
  | nil => exact h
  | cons d m ih =>
    simp only [Memory.erase] at h
    split at h
    · exact List.mem_cons_of_mem _ h
    · rcases List.mem_cons.mp h with h | h
      · exact h ▸ List.mem_cons_self ..
      · exact List.mem_cons_of_mem _ (ih h)

/-- Every write keeps the canonical form. -/
theorem Memory.write_wf {sp : Space} {m : Memory} (a : Nat) (v : Byte)
    (h : Memory.wf sp m = true) : Memory.wf sp (Memory.write sp m a v) = true := by
  simp only [Memory.wf, Bool.and_eq_true, List.all_eq_true, decide_eq_true_eq] at h ⊢
  unfold Memory.write
  split
  · exact ⟨Memory.risingFrom_erase a h.1, fun c hc => h.2 c (Memory.mem_erase hc)⟩
  · next hv =>
    refine ⟨Memory.risingFrom_insert v h.1 (by simp), fun c hc => ?_⟩
    rcases Memory.mem_insert hc with rfl | hc
    · exact hv
    · exact h.2 c hc

/-! The pixel port over memory. -/

@[simp] theorem Image.setChan_w (img : Image) (x y : Coord) (c : Nat) (v : Byte) :
    (img.setChan x y c v).w = img.w := rfl

@[simp] theorem Image.setChan_h (img : Image) (x y : Coord) (c : Nat) (v : Byte) :
    (img.setChan x y c v).h = img.h := rfl

@[simp] theorem Image.pixWrite_w (img : Image) (x y : Coord) (p : Pixel) :
    (img.pixWrite x y p).w = img.w := rfl

@[simp] theorem Image.pixWrite_h (img : Image) (x y : Coord) (p : Pixel) :
    (img.pixWrite x y p).h = img.h := rfl

/-- Two channels of two coordinates have one key only if they are the same channel. -/
theorem chanKey_inj {x y x' y' : Coord} {c c' : Nat} (hc : c < 4) (hc' : c' < 4)
    (h : chanKey x y c = chanKey x' y' c') : x = x' ∧ y = y' ∧ c = c' := by
  have hx := x.isLt
  have hx' := x'.isLt
  unfold chanKey at h
  have hn : y.toNat * 2 ^ 24 + x.toNat = y'.toNat * 2 ^ 24 + x'.toNat := by omega
  refine ⟨BitVec.eq_of_toNat_eq ?_, BitVec.eq_of_toNat_eq ?_, by omega⟩ <;> omega

theorem Image.chan_setChan_same {img : Image} (h : Memory.wf .pixels img.mem = true)
    (x y : Coord) (c : Nat) (v : Byte) : (img.setChan x y c v).chan x y c = v := by
  simp [Image.chan, Image.setChan, Memory.read_write_same _ _ h]

theorem Image.chan_setChan_other (img : Image) {x y x' y' : Coord} {c c' : Nat} (v : Byte)
    (hc : c < 4) (hc' : c' < 4) (h : ¬ (x' = x ∧ y' = y ∧ c' = c)) :
    (img.setChan x y c v).chan x' y' c' = img.chan x' y' c' := by
  have hne : chanKey x' y' c' ≠ chanKey x y c := fun he => h (chanKey_inj hc' hc he)
  simp [Image.chan, Image.setChan, Memory.read_write_other _ _ hne]

theorem Image.setChan_wf {img : Image} (h : Memory.wf .pixels img.mem = true) (x y : Coord)
    (c : Nat) (v : Byte) : Memory.wf .pixels (img.setChan x y c v).mem = true :=
  Memory.write_wf _ _ h

/-- PixWrite keeps the image's canonical form. -/
theorem Image.pixWrite_wf {img : Image} (h : Memory.wf .pixels img.mem = true) (x y : Coord)
    (p : Pixel) : Memory.wf .pixels (img.pixWrite x y p).mem = true :=
  Image.setChan_wf (Image.setChan_wf (Image.setChan_wf (Image.setChan_wf h ..) ..) ..) ..

/-- PixRead of the pixel written gives the tuple written (20_memory.md R61). -/
theorem Image.pixRead_pixWrite_same {img : Image} (h : Memory.wf .pixels img.mem = true)
    (x y : Coord) (p : Pixel) : (img.pixWrite x y p).pixRead x y = p := by
  have h1 := Image.setChan_wf h x y 0 p.r
  have h2 := Image.setChan_wf h1 x y 1 p.g
  have h3 := Image.setChan_wf h2 x y 2 p.b
  unfold Image.pixRead Image.pixWrite
  cases p
  simp [Image.chan_setChan_other, Image.chan_setChan_same, h, h1, h2, h3]

/-- PixRead of any other pixel is as before. -/
theorem Image.pixRead_pixWrite_other (img : Image) {x y x' y' : Coord} (p : Pixel)
    (h : ¬ (x' = x ∧ y' = y)) : (img.pixWrite x y p).pixRead x' y' = img.pixRead x' y' := by
  have key : ∀ (i : Image) (c c' : Nat) (v : Byte), c < 4 → c' < 4 →
      (i.setChan x y c v).chan x' y' c' = i.chan x' y' c' := fun i c c' v hc hc' =>
    Image.chan_setChan_other i v hc hc' (fun ⟨a, b, _⟩ => h ⟨a, b⟩)
  unfold Image.pixRead Image.pixWrite
  simp [key]

end Sys2Proof.Machine
end

