-- ==== Sys2Proof/Laws/State.lean ====
section
/-! SUPPORT. One lemma per field per named update of the state, so that no proof unfolds a record update. -/

namespace Sys2Proof.Machine

variable (s : State)

/-! `State.finish`. -/

@[simp] theorem State.finish_params (c : ResultCode) : (s.finish c).params = s.params := rfl
@[simp] theorem State.finish_cmdr (c : ResultCode) : (s.finish c).cmdr = s.cmdr := rfl
@[simp] theorem State.finish_status (c : ResultCode) :
    (s.finish c).status = { s.status with result := c } := rfl
@[simp] theorem State.finish_bu (c : ResultCode) : (s.finish c).bu = s.bu := rfl
@[simp] theorem State.finish_regs (c : ResultCode) : (s.finish c).regs = s.regs := rfl
@[simp] theorem State.finish_cur (c : ResultCode) : (s.finish c).cur = s.cur := rfl
@[simp] theorem State.finish_enc (c : ResultCode) : (s.finish c).enc = s.enc := rfl
@[simp] theorem State.finish_dec (c : ResultCode) : (s.finish c).dec = s.dec := rfl
@[simp] theorem State.finish_pbuf (c : ResultCode) : (s.finish c).pbuf = s.pbuf := rfl
@[simp] theorem State.finish_mbuf (c : ResultCode) : (s.finish c).mbuf = s.mbuf := rfl
@[simp] theorem State.finish_image (c : ResultCode) : (s.finish c).image = s.image := rfl
@[simp] theorem State.finish_env (c : ResultCode) : (s.finish c).env = s.env := rfl
@[simp] theorem State.finish_unspecRead (c : ResultCode) :
    (s.finish c).unspecRead = s.unspecRead := rfl

/-! `State.setBusy`. -/

@[simp] theorem State.setBusy_params (b : Bool) : (s.setBusy b).params = s.params := rfl
@[simp] theorem State.setBusy_cmdr (b : Bool) : (s.setBusy b).cmdr = s.cmdr := rfl
@[simp] theorem State.setBusy_status (b : Bool) :
    (s.setBusy b).status = { s.status with busy := b } := rfl
@[simp] theorem State.setBusy_bu (b : Bool) : (s.setBusy b).bu = s.bu := rfl
@[simp] theorem State.setBusy_regs (b : Bool) : (s.setBusy b).regs = s.regs := rfl
@[simp] theorem State.setBusy_cur (b : Bool) : (s.setBusy b).cur = s.cur := rfl
@[simp] theorem State.setBusy_enc (b : Bool) : (s.setBusy b).enc = s.enc := rfl
@[simp] theorem State.setBusy_dec (b : Bool) : (s.setBusy b).dec = s.dec := rfl
@[simp] theorem State.setBusy_pbuf (b : Bool) : (s.setBusy b).pbuf = s.pbuf := rfl
@[simp] theorem State.setBusy_mbuf (b : Bool) : (s.setBusy b).mbuf = s.mbuf := rfl
@[simp] theorem State.setBusy_image (b : Bool) : (s.setBusy b).image = s.image := rfl
@[simp] theorem State.setBusy_env (b : Bool) : (s.setBusy b).env = s.env := rfl
@[simp] theorem State.setBusy_unspecRead (b : Bool) :
    (s.setBusy b).unspecRead = s.unspecRead := rfl

/-! `State.endStep`. -/

@[simp] theorem State.endStep_params (c : ResultCode) : (s.endStep c).params = s.params := rfl
@[simp] theorem State.endStep_cmdr (c : ResultCode) : (s.endStep c).cmdr = s.cmdr := rfl
@[simp] theorem State.endStep_status (c : ResultCode) :
    (s.endStep c).status = { s.status with result := c, busy := false } := rfl
@[simp] theorem State.endStep_bu (c : ResultCode) : (s.endStep c).bu = s.bu := rfl
@[simp] theorem State.endStep_regs (c : ResultCode) : (s.endStep c).regs = s.regs := rfl
@[simp] theorem State.endStep_cur (c : ResultCode) : (s.endStep c).cur = s.cur := rfl
@[simp] theorem State.endStep_enc (c : ResultCode) : (s.endStep c).enc = s.enc := rfl
@[simp] theorem State.endStep_dec (c : ResultCode) : (s.endStep c).dec = s.dec := rfl
@[simp] theorem State.endStep_pbuf (c : ResultCode) : (s.endStep c).pbuf = s.pbuf := rfl
@[simp] theorem State.endStep_mbuf (c : ResultCode) : (s.endStep c).mbuf = s.mbuf := rfl
@[simp] theorem State.endStep_image (c : ResultCode) : (s.endStep c).image = s.image := rfl
@[simp] theorem State.endStep_env (c : ResultCode) : (s.endStep c).env = s.env := rfl
@[simp] theorem State.endStep_unspecRead (c : ResultCode) :
    (s.endStep c).unspecRead = s.unspecRead := rfl

/-! `State.setEph`. -/

@[simp] theorem State.setEph_params (p : EncPhase) : (s.setEph p).params = s.params := rfl
@[simp] theorem State.setEph_cmdr (p : EncPhase) : (s.setEph p).cmdr = s.cmdr := rfl
@[simp] theorem State.setEph_status (p : EncPhase) :
    (s.setEph p).status = { s.status with eph := p } := rfl
@[simp] theorem State.setEph_bu (p : EncPhase) : (s.setEph p).bu = s.bu := rfl
@[simp] theorem State.setEph_regs (p : EncPhase) : (s.setEph p).regs = s.regs := rfl
@[simp] theorem State.setEph_cur (p : EncPhase) : (s.setEph p).cur = s.cur := rfl
@[simp] theorem State.setEph_enc (p : EncPhase) : (s.setEph p).enc = s.enc := rfl
@[simp] theorem State.setEph_dec (p : EncPhase) : (s.setEph p).dec = s.dec := rfl
@[simp] theorem State.setEph_pbuf (p : EncPhase) : (s.setEph p).pbuf = s.pbuf := rfl
@[simp] theorem State.setEph_mbuf (p : EncPhase) : (s.setEph p).mbuf = s.mbuf := rfl
@[simp] theorem State.setEph_image (p : EncPhase) : (s.setEph p).image = s.image := rfl
@[simp] theorem State.setEph_env (p : EncPhase) : (s.setEph p).env = s.env := rfl
@[simp] theorem State.setEph_unspecRead (p : EncPhase) :
    (s.setEph p).unspecRead = s.unspecRead := rfl

/-! `State.setDph`. -/

@[simp] theorem State.setDph_params (p : DecPhase) : (s.setDph p).params = s.params := rfl
@[simp] theorem State.setDph_cmdr (p : DecPhase) : (s.setDph p).cmdr = s.cmdr := rfl
@[simp] theorem State.setDph_status (p : DecPhase) :
    (s.setDph p).status = { s.status with dph := p } := rfl
@[simp] theorem State.setDph_bu (p : DecPhase) : (s.setDph p).bu = s.bu := rfl
@[simp] theorem State.setDph_regs (p : DecPhase) : (s.setDph p).regs = s.regs := rfl
@[simp] theorem State.setDph_cur (p : DecPhase) : (s.setDph p).cur = s.cur := rfl
@[simp] theorem State.setDph_enc (p : DecPhase) : (s.setDph p).enc = s.enc := rfl
@[simp] theorem State.setDph_dec (p : DecPhase) : (s.setDph p).dec = s.dec := rfl
@[simp] theorem State.setDph_pbuf (p : DecPhase) : (s.setDph p).pbuf = s.pbuf := rfl
@[simp] theorem State.setDph_mbuf (p : DecPhase) : (s.setDph p).mbuf = s.mbuf := rfl
@[simp] theorem State.setDph_image (p : DecPhase) : (s.setDph p).image = s.image := rfl
@[simp] theorem State.setDph_env (p : DecPhase) : (s.setDph p).env = s.env := rfl
@[simp] theorem State.setDph_unspecRead (p : DecPhase) :
    (s.setDph p).unspecRead = s.unspecRead := rfl

/-! `State.noteRead`. -/

@[simp] theorem State.noteRead_params (rs : List UnspecReg) (t : State) :
    (s.noteRead rs t).params = t.params := rfl
@[simp] theorem State.noteRead_cmdr (rs : List UnspecReg) (t : State) :
    (s.noteRead rs t).cmdr = t.cmdr := rfl
@[simp] theorem State.noteRead_status (rs : List UnspecReg) (t : State) :
    (s.noteRead rs t).status = t.status := rfl
@[simp] theorem State.noteRead_bu (rs : List UnspecReg) (t : State) :
    (s.noteRead rs t).bu = t.bu := rfl
@[simp] theorem State.noteRead_regs (rs : List UnspecReg) (t : State) :
    (s.noteRead rs t).regs = t.regs := rfl
@[simp] theorem State.noteRead_cur (rs : List UnspecReg) (t : State) :
    (s.noteRead rs t).cur = t.cur := rfl
@[simp] theorem State.noteRead_enc (rs : List UnspecReg) (t : State) :
    (s.noteRead rs t).enc = t.enc := rfl
@[simp] theorem State.noteRead_dec (rs : List UnspecReg) (t : State) :
    (s.noteRead rs t).dec = t.dec := rfl
@[simp] theorem State.noteRead_pbuf (rs : List UnspecReg) (t : State) :
    (s.noteRead rs t).pbuf = t.pbuf := rfl
@[simp] theorem State.noteRead_mbuf (rs : List UnspecReg) (t : State) :
    (s.noteRead rs t).mbuf = t.mbuf := rfl
@[simp] theorem State.noteRead_image (rs : List UnspecReg) (t : State) :
    (s.noteRead rs t).image = t.image := rfl
@[simp] theorem State.noteRead_env (rs : List UnspecReg) (t : State) :
    (s.noteRead rs t).env = t.env := rfl
@[simp] theorem State.noteRead_unspecRead (rs : List UnspecReg) (t : State) :
    (s.noteRead rs t).unspecRead = s.unspecRead.or (rs.find? s.bu.unspec) := rfl

/-! `State.draw`. -/

@[simp] theorem State.draw_params (k : Nat) : (s.draw k).params = s.params := rfl
@[simp] theorem State.draw_cmdr (k : Nat) : (s.draw k).cmdr = s.cmdr := rfl
@[simp] theorem State.draw_status (k : Nat) : (s.draw k).status = s.status := rfl
@[simp] theorem State.draw_bu (k : Nat) : (s.draw k).bu = s.bu := rfl
@[simp] theorem State.draw_regs (k : Nat) : (s.draw k).regs = s.regs := rfl
@[simp] theorem State.draw_cur (k : Nat) : (s.draw k).cur = s.cur := rfl
@[simp] theorem State.draw_enc (k : Nat) : (s.draw k).enc = s.enc := rfl
@[simp] theorem State.draw_dec (k : Nat) : (s.draw k).dec = s.dec := rfl
@[simp] theorem State.draw_pbuf (k : Nat) : (s.draw k).pbuf = s.pbuf := rfl
@[simp] theorem State.draw_mbuf (k : Nat) : (s.draw k).mbuf = s.mbuf := rfl
@[simp] theorem State.draw_image (k : Nat) : (s.draw k).image = s.image := rfl
@[simp] theorem State.draw_env (k : Nat) :
    (s.draw k).env = { s.env with draws := s.env.draws + k } := rfl
@[simp] theorem State.draw_unspecRead (k : Nat) :
    (s.draw k).unspecRead = s.unspecRead := rfl

/-! `State.setMoves`. -/

@[simp] theorem State.setMoves_params (ms : List Move) : (s.setMoves ms).params = s.params := rfl
@[simp] theorem State.setMoves_cmdr (ms : List Move) : (s.setMoves ms).cmdr = s.cmdr := rfl
@[simp] theorem State.setMoves_status (ms : List Move) : (s.setMoves ms).status = s.status := rfl
@[simp] theorem State.setMoves_bu (ms : List Move) : (s.setMoves ms).bu = s.bu := rfl
@[simp] theorem State.setMoves_regs (ms : List Move) : (s.setMoves ms).regs = s.regs := rfl
@[simp] theorem State.setMoves_cur (ms : List Move) : (s.setMoves ms).cur = s.cur := rfl
@[simp] theorem State.setMoves_enc (ms : List Move) : (s.setMoves ms).enc = s.enc := rfl
@[simp] theorem State.setMoves_dec (ms : List Move) : (s.setMoves ms).dec = s.dec := rfl
@[simp] theorem State.setMoves_pbuf (ms : List Move) : (s.setMoves ms).pbuf = s.pbuf := rfl
@[simp] theorem State.setMoves_mbuf (ms : List Move) : (s.setMoves ms).mbuf = s.mbuf := rfl
@[simp] theorem State.setMoves_image (ms : List Move) : (s.setMoves ms).image = s.image := rfl
@[simp] theorem State.setMoves_env (ms : List Move) :
    (s.setMoves ms).env = { s.env with moves := ms } := rfl
@[simp] theorem State.setMoves_unspecRead (ms : List Move) :
    (s.setMoves ms).unspecRead = s.unspecRead := rfl

/-! `State.putByte`. -/

@[simp] theorem State.putByte_params (v : Byte) : (s.putByte v).params = s.params := rfl
@[simp] theorem State.putByte_cmdr (v : Byte) : (s.putByte v).cmdr = s.cmdr := rfl
@[simp] theorem State.putByte_status (v : Byte) : (s.putByte v).status = s.status := rfl
@[simp] theorem State.putByte_bu (v : Byte) :
    (s.putByte v).bu = { s.bu with b := v, bSet := true } := rfl
@[simp] theorem State.putByte_regs (v : Byte) : (s.putByte v).regs = s.regs := rfl
@[simp] theorem State.putByte_cur (v : Byte) : (s.putByte v).cur = s.cur := rfl
@[simp] theorem State.putByte_enc (v : Byte) : (s.putByte v).enc = s.enc := rfl
@[simp] theorem State.putByte_dec (v : Byte) : (s.putByte v).dec = s.dec := rfl
@[simp] theorem State.putByte_pbuf (v : Byte) : (s.putByte v).pbuf = s.pbuf := rfl
@[simp] theorem State.putByte_mbuf (v : Byte) : (s.putByte v).mbuf = s.mbuf := rfl
@[simp] theorem State.putByte_image (v : Byte) : (s.putByte v).image = s.image := rfl
@[simp] theorem State.putByte_env (v : Byte) : (s.putByte v).env = s.env := rfl
@[simp] theorem State.putByte_unspecRead (v : Byte) :
    (s.putByte v).unspecRead = s.unspecRead := rfl

/-! `State.modifyByte`. -/

@[simp] theorem State.modifyByte_params (v : Byte) : (s.modifyByte v).params = s.params := rfl
@[simp] theorem State.modifyByte_cmdr (v : Byte) : (s.modifyByte v).cmdr = s.cmdr := rfl
@[simp] theorem State.modifyByte_status (v : Byte) : (s.modifyByte v).status = s.status := rfl
@[simp] theorem State.modifyByte_bu (v : Byte) :
    (s.modifyByte v).bu = { s.bu with b := v } := rfl
@[simp] theorem State.modifyByte_regs (v : Byte) : (s.modifyByte v).regs = s.regs := rfl
@[simp] theorem State.modifyByte_cur (v : Byte) : (s.modifyByte v).cur = s.cur := rfl
@[simp] theorem State.modifyByte_enc (v : Byte) : (s.modifyByte v).enc = s.enc := rfl
@[simp] theorem State.modifyByte_dec (v : Byte) : (s.modifyByte v).dec = s.dec := rfl
@[simp] theorem State.modifyByte_pbuf (v : Byte) : (s.modifyByte v).pbuf = s.pbuf := rfl
@[simp] theorem State.modifyByte_mbuf (v : Byte) : (s.modifyByte v).mbuf = s.mbuf := rfl
@[simp] theorem State.modifyByte_image (v : Byte) : (s.modifyByte v).image = s.image := rfl
@[simp] theorem State.modifyByte_env (v : Byte) : (s.modifyByte v).env = s.env := rfl
@[simp] theorem State.modifyByte_unspecRead (v : Byte) :
    (s.modifyByte v).unspecRead = s.unspecRead := rfl

/-! `State.putSeq`. -/

@[simp] theorem State.putSeq_params (v : BitVec 16) (len : BitVec 5) :
    (s.putSeq v len).params = s.params := rfl
@[simp] theorem State.putSeq_cmdr (v : BitVec 16) (len : BitVec 5) :
    (s.putSeq v len).cmdr = s.cmdr := rfl
@[simp] theorem State.putSeq_status (v : BitVec 16) (len : BitVec 5) :
    (s.putSeq v len).status = s.status := rfl
@[simp] theorem State.putSeq_bu (v : BitVec 16) (len : BitVec 5) :
    (s.putSeq v len).bu = { s.bu with seqV := v, seqLen := len, seqSet := true } := rfl
@[simp] theorem State.putSeq_regs (v : BitVec 16) (len : BitVec 5) :
    (s.putSeq v len).regs = s.regs := rfl
@[simp] theorem State.putSeq_cur (v : BitVec 16) (len : BitVec 5) :
    (s.putSeq v len).cur = s.cur := rfl
@[simp] theorem State.putSeq_enc (v : BitVec 16) (len : BitVec 5) :
    (s.putSeq v len).enc = s.enc := rfl
@[simp] theorem State.putSeq_dec (v : BitVec 16) (len : BitVec 5) :
    (s.putSeq v len).dec = s.dec := rfl
@[simp] theorem State.putSeq_pbuf (v : BitVec 16) (len : BitVec 5) :
    (s.putSeq v len).pbuf = s.pbuf := rfl
@[simp] theorem State.putSeq_mbuf (v : BitVec 16) (len : BitVec 5) :
    (s.putSeq v len).mbuf = s.mbuf := rfl
@[simp] theorem State.putSeq_image (v : BitVec 16) (len : BitVec 5) :
    (s.putSeq v len).image = s.image := rfl
@[simp] theorem State.putSeq_env (v : BitVec 16) (len : BitVec 5) :
    (s.putSeq v len).env = s.env := rfl
@[simp] theorem State.putSeq_unspecRead (v : BitVec 16) (len : BitVec 5) :
    (s.putSeq v len).unspecRead = s.unspecRead := rfl

/-! `State.putStr0`. -/

@[simp] theorem State.putStr0_params (w : Word) : (s.putStr0 w).params = s.params := rfl
@[simp] theorem State.putStr0_cmdr (w : Word) : (s.putStr0 w).cmdr = s.cmdr := rfl
@[simp] theorem State.putStr0_status (w : Word) : (s.putStr0 w).status = s.status := rfl
@[simp] theorem State.putStr0_bu (w : Word) :
    (s.putStr0 w).bu = { s.bu with str0 := w, str0Set := true } := rfl
@[simp] theorem State.putStr0_regs (w : Word) : (s.putStr0 w).regs = s.regs := rfl
@[simp] theorem State.putStr0_cur (w : Word) : (s.putStr0 w).cur = s.cur := rfl
@[simp] theorem State.putStr0_enc (w : Word) : (s.putStr0 w).enc = s.enc := rfl
@[simp] theorem State.putStr0_dec (w : Word) : (s.putStr0 w).dec = s.dec := rfl
@[simp] theorem State.putStr0_pbuf (w : Word) : (s.putStr0 w).pbuf = s.pbuf := rfl
@[simp] theorem State.putStr0_mbuf (w : Word) : (s.putStr0 w).mbuf = s.mbuf := rfl
@[simp] theorem State.putStr0_image (w : Word) : (s.putStr0 w).image = s.image := rfl
@[simp] theorem State.putStr0_env (w : Word) : (s.putStr0 w).env = s.env := rfl
@[simp] theorem State.putStr0_unspecRead (w : Word) :
    (s.putStr0 w).unspecRead = s.unspecRead := rfl

/-! `State.putStr1`. -/

@[simp] theorem State.putStr1_params (w : Word) : (s.putStr1 w).params = s.params := rfl
@[simp] theorem State.putStr1_cmdr (w : Word) : (s.putStr1 w).cmdr = s.cmdr := rfl
@[simp] theorem State.putStr1_status (w : Word) : (s.putStr1 w).status = s.status := rfl
@[simp] theorem State.putStr1_bu (w : Word) :
    (s.putStr1 w).bu = { s.bu with str1 := w, str1Set := true } := rfl
@[simp] theorem State.putStr1_regs (w : Word) : (s.putStr1 w).regs = s.regs := rfl
@[simp] theorem State.putStr1_cur (w : Word) : (s.putStr1 w).cur = s.cur := rfl
@[simp] theorem State.putStr1_enc (w : Word) : (s.putStr1 w).enc = s.enc := rfl
@[simp] theorem State.putStr1_dec (w : Word) : (s.putStr1 w).dec = s.dec := rfl
@[simp] theorem State.putStr1_pbuf (w : Word) : (s.putStr1 w).pbuf = s.pbuf := rfl
@[simp] theorem State.putStr1_mbuf (w : Word) : (s.putStr1 w).mbuf = s.mbuf := rfl
@[simp] theorem State.putStr1_image (w : Word) : (s.putStr1 w).image = s.image := rfl
@[simp] theorem State.putStr1_env (w : Word) : (s.putStr1 w).env = s.env := rfl
@[simp] theorem State.putStr1_unspecRead (w : Word) :
    (s.putStr1 w).unspecRead = s.unspecRead := rfl

/-! `State.putCurPixel`. -/

@[simp] theorem State.putCurPixel_params (p : Pixel) : (s.putCurPixel p).params = s.params := rfl
@[simp] theorem State.putCurPixel_cmdr (p : Pixel) : (s.putCurPixel p).cmdr = s.cmdr := rfl
@[simp] theorem State.putCurPixel_status (p : Pixel) : (s.putCurPixel p).status = s.status := rfl
@[simp] theorem State.putCurPixel_bu (p : Pixel) : (s.putCurPixel p).bu = s.bu := rfl
@[simp] theorem State.putCurPixel_regs (p : Pixel) : (s.putCurPixel p).regs = s.regs := rfl
@[simp] theorem State.putCurPixel_cur (p : Pixel) : (s.putCurPixel p).cur = s.cur := rfl
@[simp] theorem State.putCurPixel_enc (p : Pixel) : (s.putCurPixel p).enc = s.enc := rfl
@[simp] theorem State.putCurPixel_dec (p : Pixel) : (s.putCurPixel p).dec = s.dec := rfl
@[simp] theorem State.putCurPixel_pbuf (p : Pixel) : (s.putCurPixel p).pbuf = s.pbuf := rfl
@[simp] theorem State.putCurPixel_mbuf (p : Pixel) : (s.putCurPixel p).mbuf = s.mbuf := rfl
@[simp] theorem State.putCurPixel_image (p : Pixel) :
    (s.putCurPixel p).image = s.image.pixWrite s.cur.x s.cur.y p := rfl
@[simp] theorem State.putCurPixel_env (p : Pixel) : (s.putCurPixel p).env = s.env := rfl
@[simp] theorem State.putCurPixel_unspecRead (p : Pixel) :
    (s.putCurPixel p).unspecRead = s.unspecRead := rfl

/-! `State.putCap`. -/

@[simp] theorem State.putCap_params : s.putCap.params = s.params := rfl
@[simp] theorem State.putCap_cmdr : s.putCap.cmdr = s.cmdr := rfl
@[simp] theorem State.putCap_status : s.putCap.status = s.status := rfl
@[simp] theorem State.putCap_bu : s.putCap.bu = s.bu := rfl
@[simp] theorem State.putCap_regs : s.putCap.regs = s.regs := rfl
@[simp] theorem State.putCap_cur :
    s.putCap.cur = { s.cur with cap := BitVec.ofNat 64 (capacityBits s.cur.wl s.cur.hl) } := rfl
@[simp] theorem State.putCap_enc : s.putCap.enc = s.enc := rfl
@[simp] theorem State.putCap_dec : s.putCap.dec = s.dec := rfl
@[simp] theorem State.putCap_pbuf : s.putCap.pbuf = s.pbuf := rfl
@[simp] theorem State.putCap_mbuf : s.putCap.mbuf = s.mbuf := rfl
@[simp] theorem State.putCap_image : s.putCap.image = s.image := rfl
@[simp] theorem State.putCap_env : s.putCap.env = s.env := rfl
@[simp] theorem State.putCap_unspecRead :
    s.putCap.unspecRead = s.unspecRead := rfl

/-! `State.cursorInit`. -/

@[simp] theorem State.cursorInit_params : s.cursorInit.params = s.params := rfl
@[simp] theorem State.cursorInit_cmdr : s.cursorInit.cmdr = s.cmdr := rfl
@[simp] theorem State.cursorInit_status :
    s.cursorInit.status = { s.status with exh := false } := rfl
@[simp] theorem State.cursorInit_bu : s.cursorInit.bu = s.bu := rfl
@[simp] theorem State.cursorInit_regs : s.cursorInit.regs = s.regs := rfl
@[simp] theorem State.cursorInit_cur :
    s.cursorInit.cur =
      { s.cur with wl := coordBitsOf s.params s.regs.width.toNat, hl := coordBitsOf s.params s.regs.height.toNat, x := 0, y := 0 } := rfl
@[simp] theorem State.cursorInit_enc : s.cursorInit.enc = s.enc := rfl
@[simp] theorem State.cursorInit_dec : s.cursorInit.dec = s.dec := rfl
@[simp] theorem State.cursorInit_pbuf : s.cursorInit.pbuf = s.pbuf := rfl
@[simp] theorem State.cursorInit_mbuf : s.cursorInit.mbuf = s.mbuf := rfl
@[simp] theorem State.cursorInit_image : s.cursorInit.image = s.image := rfl
@[simp] theorem State.cursorInit_env : s.cursorInit.env = s.env := rfl
@[simp] theorem State.cursorInit_unspecRead :
    s.cursorInit.unspecRead = s.unspecRead := rfl

/-! `State.advance` changes only the cursor and STATUS.EXH. -/

@[simp] theorem State.advance_params : s.advance.params = s.params := by
  unfold State.advance; split <;> rfl

@[simp] theorem State.advance_cmdr : s.advance.cmdr = s.cmdr := by
  unfold State.advance; split <;> rfl

@[simp] theorem State.advance_bu : s.advance.bu = s.bu := by
  unfold State.advance; split <;> rfl

@[simp] theorem State.advance_regs : s.advance.regs = s.regs := by
  unfold State.advance; split <;> rfl

@[simp] theorem State.advance_enc : s.advance.enc = s.enc := by
  unfold State.advance; split <;> rfl

@[simp] theorem State.advance_dec : s.advance.dec = s.dec := by
  unfold State.advance; split <;> rfl

@[simp] theorem State.advance_pbuf : s.advance.pbuf = s.pbuf := by
  unfold State.advance; split <;> rfl

@[simp] theorem State.advance_mbuf : s.advance.mbuf = s.mbuf := by
  unfold State.advance; split <;> rfl

@[simp] theorem State.advance_image : s.advance.image = s.image := by
  unfold State.advance; split <;> rfl

@[simp] theorem State.advance_unspecRead : s.advance.unspecRead = s.unspecRead := by
  unfold State.advance; split <;> rfl

@[simp] theorem State.advance_env : s.advance.env = s.env := by
  unfold State.advance; split <;> rfl

end Sys2Proof.Machine
end

