-- ==== Sys2Proof/Laws/Ops.lean ====
section
/-! SUPPORT. One lemma per shared operation that says what it can do, to be cited instead of unfolding. -/

namespace Sys2Proof.Machine

/-! Operands. -/

/-- The register holds exactly the low COORD_BITS bits. -/
theorem coordBitsOf_toNat (p : Params) (v : Nat) :
    (coordBitsOf p v).toNat = v % 2 ^ p.coordBits := by
  rw [coordBitsOf, BitVec.toNat_ofNat]
  exact Nat.mod_eq_of_lt ((Nat.mod_lt _ (Nat.two_pow_pos _)).trans_le
    (Nat.pow_le_pow_right (by decide) p.legal.1.2))

/-- What COORD_BITS bits hold. -/
theorem coordBitsOf_lt (p : Params) (v : Nat) : (coordBitsOf p v).toNat < 2 ^ p.coordBits := by
  rw [coordBitsOf_toNat]
  exact Nat.mod_lt _ (Nat.two_pow_pos _)

/-- The masked sequence, as a number. -/
theorem seqBits_toNat (v : BitVec 16) (len : BitVec 5) :
    (seqBits v len).toNat = v.toNat % 2 ^ len.toNat := by
  rw [seqBits, BitVec.toNat_ofNat]
  exact Nat.mod_eq_of_lt ((Nat.mod_le _ _).trans_lt v.isLt)

/-- The capacity of the largest image fits in CAP. -/
theorem capacityBits_lt (wl hl : Coord) : capacityBits wl hl < 2 ^ 64 := by
  have h := Nat.mul_lt_mul'' wl.isLt hl.isLt
  rw [capacityBits, Nat.mul_assoc]
  omega

/-- bit 0 after store_bit is the bit stored. -/
theorem lsb_storeBit (c : Byte) (b : Bool) : lsb (storeBit c b) = b := by
  cases b <;> simp [lsb, storeBit]

/-- store_bit leaves bits [7:1] as they were. -/
theorem storeBit_high (c : Byte) (b : Bool) :
    (storeBit c b).extractLsb' 1 7 = c.extractLsb' 1 7 := by
  revert c b
  decide +kernel

/-- A byte appended at the low end. -/
theorem toNat_append_byte {n : Nat} (x : BitVec n) (y : Byte) :
    (x ++ y).toNat = 256 * x.toNat + y.toNat := by
  have hy := y.isLt
  rw [BitVec.toNat_append, ← Nat.shiftLeft_add_eq_or_of_lt hy, Nat.shiftLeft_eq]
  omega

/-- The lanes of a word built from four bytes. -/
theorem lane_ofLanes (b0 b1 b2 b3 : Byte) :
    lane (ofLanes b0 b1 b2 b3) 0 = b0 ∧ lane (ofLanes b0 b1 b2 b3) 1 = b1 ∧
      lane (ofLanes b0 b1 b2 b3) 2 = b2 ∧ lane (ofLanes b0 b1 b2 b3) 3 = b3 := by
  have h0 := b0.isLt
  have h1 := b1.isLt
  have h2 := b2.isLt
  have h3 := b3.isLt
  have hw : (ofLanes b0 b1 b2 b3).toNat =
      b0.toNat + 256 * (b1.toNat + 256 * (b2.toNat + 256 * b3.toNat)) := by
    rw [ofLanes, toNat_append_byte, toNat_append_byte, toNat_append_byte]
    omega
  refine ⟨?_, ?_, ?_, ?_⟩ <;> apply BitVec.eq_of_toNat_eq <;>
    simp only [lane, BitVec.extractLsb'_toNat, hw, Nat.shiftRight_eq_div_pow] <;> omega

/-! UNSPEC reads. -/

/-- What a reading command goes to. -/
theorem State.reading_next {rs : List UnspecReg} {s t u : State} (h : s.reading rs t = .next u) :
    u = s.noteRead rs t := by
  cases h
  rfl

/-- The registers a command reads are written: nothing is recorded. -/
theorem State.noteRead_of_set {rs : List UnspecReg} {s t : State} (ht : t.unspecRead = s.unspecRead)
    (h : ∀ r ∈ rs, s.bu.unspec r = false) : s.noteRead rs t = t := by
  have hf : rs.find? s.bu.unspec = none := List.find?_eq_none.mpr (fun r hr => by simp [h r hr])
  rw [State.noteRead, hf, Option.or_none, ← ht]

/-- A read that is recorded stays recorded. -/
theorem State.noteRead_of_some {rs : List UnspecReg} {s : State} (t : State) {r : UnspecReg}
    (h : s.unspecRead = some r) : (s.noteRead rs t).unspecRead = some r := by
  rw [State.noteRead_unspecRead, h, Option.some_or]

/-- Everything a reading command can do to the record: leave it, or name a register it reads that is UNSPEC
where none was named. -/
theorem State.noteRead_cases (rs : List UnspecReg) (s t : State) :
    (s.noteRead rs t).unspecRead = s.unspecRead ∨
      (s.unspecRead = none ∧
        ∃ r ∈ rs, s.bu.unspec r = true ∧ (s.noteRead rs t).unspecRead = some r) := by
  rw [State.noteRead_unspecRead]
  cases hu : s.unspecRead with
  | some r => exact .inl rfl
  | none =>
    cases h : rs.find? s.bu.unspec with
    | none => exact .inl rfl
    | some r => exact .inr ⟨rfl, r, List.mem_of_find?_eq_some h, List.find?_some h, rfl⟩

/-- The record is no part of the invariant. -/
theorem State.Inv.noteRead {rs : List UnspecReg} {s t : State} (h : t.Inv) : (s.noteRead rs t).Inv :=
  ⟨h.seqV, h.seqLen, h.width, h.height, h.cursor, h.encoder, h.decoder, h.oneWalk, h.walkDims, h.notFound,
    h.message, h.pbuf, h.mbuf, h.image⟩

/-! The cursor. -/

/-- The successor of a coordinate inside the latched image is inside it, one pixel further on. -/
theorem Cursor.next_some {c d : Cursor} (h : c.next = some d) :
    d.wl = c.wl ∧ d.hl = c.hl ∧ d.cap = c.cap ∧
      (c.x.toNat < c.wl.toNat → c.y.toNat < c.hl.toNat →
        d.x.toNat < d.wl.toNat ∧ d.y.toNat < d.hl.toNat ∧
          linear d.wl d.x d.y = linear c.wl c.x c.y + 1) := by
  have hw := c.wl.isLt
  have hh := c.hl.isLt
  unfold Cursor.next at h
  split at h
  · cases h
    refine ⟨rfl, rfl, rfl, fun hx hy => ?_⟩
    have hx1 : (c.x + 1).toNat = c.x.toNat + 1 := by
      rw [BitVec.toNat_add]
      exact Nat.mod_eq_of_lt (by simp; omega)
    simp only [linear, hx1]
    omega
  · split at h
    · cases h
      refine ⟨rfl, rfl, rfl, fun hx hy => ?_⟩
      have hy1 : (c.y + 1).toNat = c.y.toNat + 1 := by
        rw [BitVec.toNat_add]
        exact Nat.mod_eq_of_lt (by simp; omega)
      have hx0 : c.x.toNat + 1 = c.wl.toNat := by omega
      simp only [linear, hy1, Nat.add_mul]
      exact ⟨by simp; omega, by omega, by simp; omega⟩
    · cases h

/-- Only the final coordinate has no successor. -/
theorem Cursor.next_none {c : Cursor} (h : c.next = none) (hx : c.x.toNat < c.wl.toNat)
    (hy : c.y.toNat < c.hl.toNat) :
    c.x.toNat + 1 = c.wl.toNat ∧ c.y.toNat + 1 = c.hl.toNat ∧
      linear c.wl c.x c.y + 1 = c.wl.toNat * c.hl.toNat := by
  unfold Cursor.next at h
  split at h
  · cases h
  · split at h
    · cases h
    · have h1 : c.x.toNat + 1 = c.wl.toNat := by omega
      have h2 : c.y.toNat + 1 = c.hl.toNat := by omega
      refine ⟨h1, h2, ?_⟩
      rw [← h2, linear, Nat.mul_add, Nat.mul_comm]
      omega

/-- A coordinate inside the image has a linear index below the number of pixels. -/
theorem linear_lt {w h x y : Coord} (hx : x.toNat < w.toNat) (hy : y.toNat < h.toNat) :
    linear w x y < w.toNat * h.toNat := by
  have h1 : (y.toNat + 1) * w.toNat ≤ h.toNat * w.toNat := Nat.mul_le_mul_right _ hy
  rw [Nat.add_mul] at h1
  rw [linear, Nat.mul_comm w.toNat]
  omega

/-- advance() moves the cursor, or sets EXH and leaves it. -/
theorem State.advance_cases (s : State) :
    (∃ c, s.cur.next = some c ∧ s.advanceOk = true ∧ s.advance = { s with cur := c }) ∨
      (s.cur.next = none ∧ s.advanceOk = false ∧
        s.advance = { s with status := { s.status with exh := true } }) := by
  unfold State.advance State.advanceOk
  cases h : s.cur.next with
  | none => exact .inr ⟨rfl, rfl, rfl⟩
  | some c => exact .inl ⟨c, rfl, rfl, rfl⟩

/-- advance() reads nothing but the cursor. -/
theorem State.advance_congr {s t : State} (h : t.cur = s.cur) :
    t.advanceOk = s.advanceOk ∧ t.advance.cur = s.advance.cur ∧
      (t.status.exh = s.status.exh → t.advance.status.exh = s.advance.status.exh) := by
  unfold State.advance State.advanceOk
  rw [h]
  cases s.cur.next <;> simp [Status.setExh]

/-- advance() keeps the latched dimensions. -/
theorem State.advance_dims (s : State) :
    s.advance.cur.wl = s.cur.wl ∧ s.advance.cur.hl = s.cur.hl := by
  obtain ⟨c, hc, _, e⟩ | ⟨_, _, e⟩ := s.advance_cases <;> rw [e]
  · exact ⟨(Cursor.next_some hc).1, (Cursor.next_some hc).2.1⟩
  · exact ⟨rfl, rfl⟩

/-! Encoder. -/

/-- A payload bit that exists: a written byte, or the terminator (42_encoder.md R202). -/
theorem State.payloadBit_exists {s : State} {i : Nat} (h : s.pbufWritten s.enc.n.toNat)
    (hi : i < payloadBits s.enc.n.toNat) : ∃ b, s.payloadBit i = .ok b := by
  unfold State.payloadBit State.payloadByte
  unfold payloadBits at hi
  by_cases hj : i / 8 < s.enc.n.toNat
  · obtain ⟨v, hv⟩ := Option.isSome_iff_exists.mp (h _ hj)
    exact ⟨_, by rw [if_pos hj, hv]⟩
  · exact ⟨_, by rw [if_neg hj, if_pos (by omega)]⟩

/-- What packing one channel gives (R203). -/
theorem State.packChannel_ok {s : State} {k j : Nat} {c d : Byte}
    (h : s.packChannel k j c = .ok d) :
    (j < k ∧ ∃ b, s.payloadBit (s.enc.i.toNat + j) = .ok b ∧ d = storeBit c b) ∨
      (¬ j < k ∧ d = c) := by
  unfold State.packChannel at h
  split at h
  · cases hb : s.payloadBit (s.enc.i.toNat + j) with
    | ok b =>
      simp only [hb] at h
      cases h
      exact .inl ⟨‹_›, b, rfl, rfl⟩
    | error f => simp [hb] at h
  · cases h
    exact .inr ⟨‹_›, rfl⟩

/-- What packing a pixel gives: its channels in order, alpha as it was (R203). -/
theorem State.packPixel_ok {s : State} {k : Nat} {p q : Pixel} (h : s.packPixel k p = .ok q) :
    s.packChannel k 0 p.r = .ok q.r ∧ s.packChannel k 1 p.g = .ok q.g ∧
      s.packChannel k 2 p.b = .ok q.b ∧ q.a = p.a := by
  unfold State.packPixel at h
  cases h0 : s.packChannel k 0 p.r with
  | error f => simp [h0] at h
  | ok r =>
    cases h1 : s.packChannel k 1 p.g with
    | error f => simp [h0, h1] at h
    | ok g =>
      cases h2 : s.packChannel k 2 p.b with
      | error f => simp [h0, h1, h2] at h
      | ok b =>
        simp only [h0, h1, h2] at h
        cases h
        exact ⟨rfl, rfl, rfl, rfl⟩

/-- Packing succeeds where the payload bits exist. -/
theorem State.packPixel_exists {s : State} {k : Nat} (p : Pixel)
    (h : ∀ j, j < k → ∃ b, s.payloadBit (s.enc.i.toNat + j) = .ok b) :
    ∃ q, s.packPixel k p = .ok q := by
  have key : ∀ (j : Nat) (c : Byte), ∃ d, s.packChannel k j c = .ok d := by
    intro j c
    unfold State.packChannel
    split
    · obtain ⟨b, hb⟩ := h j ‹_›
      exact ⟨_, by rw [hb]⟩
    · exact ⟨_, rfl⟩
  obtain ⟨r, hr⟩ := key 0 p.r
  obtain ⟨g, hg⟩ := key 1 p.g
  obtain ⟨b, hb⟩ := key 2 p.b
  exact ⟨⟨r, g, b, p.a⟩, by simp only [State.packPixel, hr, hg, hb]⟩

/-- Why a payload bit does not exist (R202). -/
theorem State.payloadBit_error {s : State} {i : Nat} {f : Fault} (h : s.payloadBit i = .error f) :
    (i / 8 < s.enc.n.toNat ∧ Memory.read .pbuf s.pbuf (i / 8) = none ∧ f = .pbufUnspec (i / 8)) ∨
      (s.enc.n.toNat < i / 8 ∧ f = .pastPayload (i / 8)) := by
  unfold State.payloadBit State.payloadByte at h
  by_cases hj : i / 8 < s.enc.n.toNat
  · rw [if_pos hj] at h
    cases hr : Memory.read .pbuf s.pbuf (i / 8) <;> simp only [hr] at h <;> cases h
    exact .inl ⟨hj, rfl, rfl⟩
  · rw [if_neg hj] at h
    by_cases he : i / 8 = s.enc.n.toNat
    · simp [he] at h
    · rw [if_neg he] at h
      cases h
      exact .inr ⟨by omega, rfl⟩

/-- Packing one channel fails with its payload bit. -/
theorem State.packChannel_error {s : State} {k j : Nat} {c : Byte} {f : Fault}
    (h : s.packChannel k j c = .error f) :
    j < k ∧ s.payloadBit (s.enc.i.toNat + j) = .error f := by
  unfold State.packChannel at h
  split at h
  · cases hb : s.payloadBit (s.enc.i.toNat + j) <;> simp only [hb] at h <;> cases h
    exact ⟨‹_›, rfl⟩
  · cases h

/-- Packing a pixel fails with the first of its payload bits that does not exist. -/
theorem State.packPixel_error {s : State} {k : Nat} {p : Pixel} {f : Fault}
    (h : s.packPixel k p = .error f) :
    ∃ j, j < 3 ∧ j < k ∧ s.payloadBit (s.enc.i.toNat + j) = .error f := by
  unfold State.packPixel at h
  cases h0 : s.packChannel k 0 p.r with
  | error g =>
    simp only [h0] at h
    cases h
    exact ⟨0, by decide, State.packChannel_error h0⟩
  | ok r =>
    cases h1 : s.packChannel k 1 p.g with
    | error g =>
      simp only [h0, h1] at h
      cases h
      exact ⟨1, by decide, State.packChannel_error h1⟩
    | ok g =>
      cases h2 : s.packChannel k 2 p.b with
      | error g =>
        simp only [h0, h1, h2] at h
        cases h
        exact ⟨2, by decide, State.packChannel_error h2⟩
      | ok b => simp [h0, h1, h2] at h

/-- One channel after packing differs in bit 0 at most. -/
theorem State.packChannel_high {s : State} {k j : Nat} {c d : Byte}
    (h : s.packChannel k j c = .ok d) : c.extractLsb' 1 7 = d.extractLsb' 1 7 := by
  obtain ⟨_, b, _, rfl⟩ | ⟨_, rfl⟩ := State.packChannel_ok h
  · exact (storeBit_high _ _).symm
  · rfl

/-- The pixel after packing differs in the three LSBs at most (R203, R211). -/
theorem State.packPixel_sameButLsbs {s : State} {k : Nat} {p q : Pixel}
    (h : s.packPixel k p = .ok q) : p.sameButLsbs q := by
  obtain ⟨h0, h1, h2, ha⟩ := State.packPixel_ok h
  exact ⟨State.packChannel_high h0, State.packChannel_high h1, State.packChannel_high h2, ha.symm⟩

/-- The padded pixel differs in the three LSBs at most (R205, R211). -/
theorem Pixel.storeBits_sameButLsbs (p : Pixel) (d0 d1 d2 : Bool) :
    p.sameButLsbs (p.storeBits d0 d1 d2) :=
  ⟨(storeBit_high _ _).symm, (storeBit_high _ _).symm, (storeBit_high _ _).symm, rfl⟩

/-- Everything one pixel of the encode walk can do (R203, R205). -/
theorem State.encPixel_cases {s t : State} (h : s.encPixel = .ok t) :
    (s.status.eph.active = false ∧ t = s.finish .errSeq) ∨
    (s.status.eph = .payload ∧ s.image.has s.cur.x s.cur.y = true ∧
      ∃ q, s.packPixel s.enc.take s.curPixel = .ok q ∧
        t = (s.putCurPixel q).afterPayload s.enc.take) ∨
    (s.status.eph = .padding ∧ s.image.has s.cur.x s.cur.y = true ∧
      t = ((s.draw 3).putCurPixel
        (s.curPixel.storeBits (s.randBit 0) (s.randBit 1) (s.randBit 2))).afterPadding) := by
  unfold State.encPixel at h
  cases he : s.status.eph <;> simp only [he] at h
  · cases h; exact .inl ⟨rfl, rfl⟩
  · refine .inr (.inl ⟨rfl, ?_⟩)
    unfold State.encPayload at h
    split at h
    · refine ⟨‹_›, ?_⟩
      cases hp : s.packPixel s.enc.take s.curPixel with
      | error f => simp [hp] at h
      | ok q =>
        simp only [hp] at h
        cases h
        exact ⟨q, rfl, rfl⟩
    · cases h
  · refine .inr (.inr ⟨rfl, ?_⟩)
    unfold State.encPadding at h
    split at h
    · cases h; exact ⟨‹_›, rfl⟩
    · cases h
  · cases h; exact .inl ⟨rfl, rfl⟩
  · cases h; exact .inl ⟨rfl, rfl⟩

/-- What the end of a payload pixel step can change: the cursor, ENC_I, EPH, EXH and RESULT. -/
theorem State.afterPayload_eq (s : State) (k : Nat) :
    ∃ (c : ResultCode) (p : EncPhase), s.afterPayload k =
      { s with
        cur := s.advance.cur
        enc := { s.enc with i := BitVec.ofNat 32 (s.enc.i.toNat + k) }
        status := { s.status with result := c, eph := p, exh := s.advance.status.exh } } ∧
      (s.enc.i.toNat + k < s.enc.l.toNat ∧ s.advanceOk = true ∧ c = .ok ∧ p = s.status.eph ∨
       s.enc.i.toNat + k < s.enc.l.toNat ∧ s.advanceOk = false ∧ c = .errNoMorePixels ∧ p = .error ∨
       ¬ s.enc.i.toNat + k < s.enc.l.toNat ∧ s.advanceOk = true ∧ c = .ok ∧ p = .padding ∨
       ¬ s.enc.i.toNat + k < s.enc.l.toNat ∧ s.advanceOk = false ∧ c = .encDone ∧ p = .done) := by
  unfold State.afterPayload
  obtain ⟨d, _, h1, h2⟩ | ⟨_, h1, h2⟩ := s.advance_cases <;> rw [h2, h1] <;> split
  · exact ⟨_, _, rfl, .inl ⟨‹_›, rfl, rfl, rfl⟩⟩
  · exact ⟨_, _, rfl, .inr (.inr (.inl ⟨‹_›, rfl, rfl, rfl⟩))⟩
  · exact ⟨_, _, rfl, .inr (.inl ⟨‹_›, rfl, rfl, rfl⟩)⟩
  · exact ⟨_, _, rfl, .inr (.inr (.inr ⟨‹_›, rfl, rfl, rfl⟩))⟩

/-- What the end of a padding pixel step can change: the cursor, EPH, EXH and RESULT. -/
theorem State.afterPadding_eq (s : State) :
    ∃ (c : ResultCode) (p : EncPhase), s.afterPadding =
      { s with
        cur := s.advance.cur
        status := { s.status with result := c, eph := p, exh := s.advance.status.exh } } ∧
      (s.advanceOk = true ∧ c = .ok ∧ p = s.status.eph ∨
       s.advanceOk = false ∧ c = .encDone ∧ p = .done) := by
  unfold State.afterPadding
  obtain ⟨d, _, h1, h2⟩ | ⟨_, h1, h2⟩ := s.advance_cases <;> rw [h2, h1]
  · exact ⟨_, _, rfl, .inl ⟨rfl, rfl, rfl⟩⟩
  · exact ⟨_, _, rfl, .inr ⟨rfl, rfl, rfl⟩⟩

/-- What one pixel of the encode walk can change at all (R203, R205, R211). -/
theorem State.encPixel_frame {s t : State} (h : s.encPixel = .ok t) :
    ∃ (cur : Cursor) (i : Word) (st : Status) (img : Image),
      t = { s with
        cur := cur
        enc := { s.enc with i := i }
        status := { s.status with result := st.result, exh := st.exh, eph := st.eph }
        image := img
        env := { s.env with
          draws := s.env.draws + if s.status.eph = .padding then 3 else 0 } } ∧
      cur.wl = s.cur.wl ∧ cur.hl = s.cur.hl ∧
      (img = s.image ∨ ∃ q, s.curPixel.sameButLsbs q ∧ img = s.image.pixWrite s.cur.x s.cur.y q) ∧
      (s.status.eph ≠ .payload → i = s.enc.i) := by
  obtain ⟨ha, rfl⟩ | ⟨hp, -, q, hq, rfl⟩ | ⟨hp, -, rfl⟩ := State.encPixel_cases h
  · have hp : s.status.eph ≠ .padding := fun he => by rw [he] at ha; cases ha
    refine ⟨_, _, { s.status with result := .errSeq }, _, ?_, rfl, rfl, .inl rfl, fun _ => rfl⟩
    rw [if_neg hp]
    rfl
  · obtain ⟨c, p, e, -⟩ := (s.putCurPixel q).afterPayload_eq s.enc.take
    refine ⟨s.advance.cur, BitVec.ofNat 32 (s.enc.i.toNat + s.enc.take),
      { s.status with result := c, eph := p, exh := s.advance.status.exh },
      s.image.pixWrite s.cur.x s.cur.y q, ?_, s.advance_dims.1, s.advance_dims.2,
      .inr ⟨q, State.packPixel_sameButLsbs hq, rfl⟩, fun hn => absurd hp hn⟩
    obtain ⟨-, h1, h2⟩ := State.advance_congr (s := s) (t := s.putCurPixel q) rfl
    rw [e, hp, if_neg (by decide), h1, h2 rfl]
    rfl
  · obtain ⟨c, p, e, -⟩ := ((s.draw 3).putCurPixel
      (s.curPixel.storeBits (s.randBit 0) (s.randBit 1) (s.randBit 2))).afterPadding_eq
    refine ⟨s.advance.cur, s.enc.i,
      { s.status with result := c, eph := p, exh := s.advance.status.exh },
      s.image.pixWrite s.cur.x s.cur.y
        (s.curPixel.storeBits (s.randBit 0) (s.randBit 1) (s.randBit 2)),
      ?_, s.advance_dims.1, s.advance_dims.2,
      .inr ⟨_, Pixel.storeBits_sameButLsbs _ _ _ _, rfl⟩, fun _ => rfl⟩
    obtain ⟨-, h1, h2⟩ := State.advance_congr (s := s) (t := (s.draw 3).putCurPixel
      (s.curPixel.storeBits (s.randBit 0) (s.randBit 1) (s.randBit 2))) rfl
    rw [e, hp, if_pos rfl, h1, h2 rfl]
    rfl

/-! Decoder. -/

/-- `feed` writes ACC, SPILL, MLEN and MBUF and nothing else; MBUF only at MLEN, when a byte is
complete (43_decoder.md R243). -/
theorem State.feed_eq (t0 t1 t2 : Bool) (s : State) :
    ∃ d m, s.feed t0 t1 t2 = { s with dec := d, mbuf := m } ∧
      (s.dec.accLen ≠ 8#4 → m = s.mbuf ∧ d = s.dec.pushTriplet t0 t1 t2 ∧ d.mlen = s.dec.mlen) ∧
      (s.dec.accLen = 8#4 → m = Memory.write .mbuf s.mbuf s.dec.mlen.toNat s.dec.accV ∧
        d.mlen = s.dec.mlen + 1) := by
  unfold State.feed
  split
  · exact ⟨_, _, rfl, fun h => absurd ‹_› h, fun _ => ⟨rfl, rfl⟩⟩
  · refine ⟨_, _, rfl, fun _ => ⟨rfl, rfl, ?_⟩, fun h => absurd h ‹_›⟩
    unfold Decoder.pushTriplet
    split
    · rfl
    · split <;> rfl

/-- What follows a feed: the next pixel, or NOTFOUND with MLEN cleared (R247). -/
theorem State.afterFeed_cases (s : State) :
    (∃ c, s.cur.next = some c ∧
      s.afterFeed = { s with cur := c, status := { s.status with result := .ok } }) ∨
    (s.cur.next = none ∧ s.afterFeed =
      { s with
        dec := { s.dec with mlen := 0 }
        status := { s.status with result := .errNotFound, dph := .notFound, exh := true } }) := by
  unfold State.afterFeed
  obtain ⟨d, h0, h1, h2⟩ | ⟨h0, h1, h2⟩ := s.advance_cases <;> rw [h2, h1]
  · exact .inl ⟨d, h0, rfl⟩
  · exact .inr ⟨h0, rfl⟩

/-- Everything one pixel of the decode walk can do (R247). -/
theorem State.decPixel_cases {s t : State} (h : s.decPixel = .ok t) :
    (s.status.dph ≠ .running ∧ t = s.finish .errSeq) ∨
    (s.status.dph = .running ∧ s.image.has s.cur.x s.cur.y = true ∧
      (s.feedOut = .found ∧ t = s.decFound ∨
       s.feedOut = .overflow ∧ t = s.decOverflow ∨
       s.feedOut = .cont ∧
        t = (s.feed (lsb s.curPixel.r) (lsb s.curPixel.g) (lsb s.curPixel.b)).afterFeed)) := by
  unfold State.decPixel at h
  have ha : s.status.dph.active = true ↔ s.status.dph = .running := by
    cases s.status.dph <;> simp [DecPhase.active]
  split at h
  · rename_i hr
    split at h
    · refine .inr ⟨ha.mp hr, ‹_›, ?_⟩
      cases hf : s.feedOut <;> simp only [hf] at h <;> cases h
      · exact .inl ⟨rfl, rfl⟩
      · exact .inr (.inl ⟨rfl, rfl⟩)
      · exact .inr (.inr ⟨rfl, rfl⟩)
    · cases h
  · cases h
    exact .inl ⟨fun hr => ‹¬ _› (ha.mpr hr), rfl⟩

/-- DEC_FEED: what each result of `feed` gives (R249). -/
theorem execDecFeed_cases (t0 t1 t2 : Bool) (s : State) :
    (s.status.dph ≠ .running ∧ execDecFeed t0 t1 t2 s = .next (s.endStep .errSeq)) ∨
    (s.status.dph = .running ∧
      (s.feedOut = .found ∧ execDecFeed t0 t1 t2 s = .next (s.decFound.setBusy false) ∨
       s.feedOut = .overflow ∧ execDecFeed t0 t1 t2 s = .next (s.decOverflow.setBusy false) ∨
       s.feedOut = .cont ∧ execDecFeed t0 t1 t2 s = .next ((s.feed t0 t1 t2).endStep .ok))) := by
  unfold execDecFeed
  have ha : s.status.dph.active = true ↔ s.status.dph = .running := by
    cases s.status.dph <;> simp [DecPhase.active]
  by_cases hr : s.status.dph = .running
  · rw [if_pos (ha.mpr hr)]
    refine .inr ⟨hr, ?_⟩
    cases s.feedOut
    · exact .inl ⟨rfl, rfl⟩
    · exact .inr (.inl ⟨rfl, rfl⟩)
    · exact .inr (.inr ⟨rfl, rfl⟩)
  · rw [if_neg (fun h => hr (ha.mp h))]
    exact .inl ⟨hr, rfl⟩

/-- When `feed` finds, overflows or goes on (R243). -/
theorem State.feedOut_eq (s : State) :
    (s.feedOut = .found ↔ s.dec.accLen = 8#4 ∧ s.dec.accV = s.params.terminator) ∧
    (s.feedOut = .overflow ↔ s.dec.accLen = 8#4 ∧ s.dec.accV ≠ s.params.terminator ∧
      s.dec.mlen.toNat = s.params.mbufMax) ∧
    (s.feedOut = .cont ↔ s.dec.accLen = 8#4 → s.dec.accV ≠ s.params.terminator ∧
      s.dec.mlen.toNat ≠ s.params.mbufMax) := by
  unfold State.feedOut
  split
  · split
    · simp_all
    · split <;> simp_all
  · simp_all

/-- A push into an accumulator that holds fewer than eight bits (10_state.md R41). -/
theorem Decoder.pushAcc_toNat {d : Decoder} (b : Bool) (hl : d.accLen.toNat < 8)
    (hv : d.accV.toNat < 2 ^ d.accLen.toNat) :
    (d.pushAcc b).accV.toNat = 2 * d.accV.toNat + b.toNat ∧
      (d.pushAcc b).accLen.toNat = d.accLen.toNat + 1 := by
  have h1 : 2 ^ d.accLen.toNat ≤ 2 ^ 7 := Nat.pow_le_pow_right (by decide) (by omega)
  have hb : b.toNat ≤ 1 := Bool.toNat_le b
  constructor
  · rw [Decoder.pushAcc, BitVec.toNat_ofNat]
    omega
  · simp only [Decoder.pushAcc, BitVec.toNat_add]
    exact Nat.mod_eq_of_lt (by simp; omega)

/-- A push into a spillover that holds fewer than two bits (R41). -/
theorem Decoder.pushSpill_toNat {d : Decoder} (b : Bool) (hl : d.spillLen.toNat < 2)
    (hv : d.spillV.toNat < 2 ^ d.spillLen.toNat) :
    (d.pushSpill b).spillV.toNat = 2 * d.spillV.toNat + b.toNat ∧
      (d.pushSpill b).spillLen.toNat = d.spillLen.toNat + 1 := by
  have h1 : 2 ^ d.spillLen.toNat ≤ 2 ^ 1 := Nat.pow_le_pow_right (by decide) (by omega)
  have hb : b.toNat ≤ 1 := Bool.toNat_le b
  constructor
  · rw [Decoder.pushSpill, BitVec.toNat_ofNat]
    omega
  · simp only [Decoder.pushSpill, BitVec.toNat_add]
    exact Nat.mod_eq_of_lt (by simp; omega)

/-- What one pixel of the decode walk can change at all (R247, R254). -/
theorem State.decPixel_frame {s t : State} (h : s.decPixel = .ok t) :
    ∃ (cur : Cursor) (d : Decoder) (m : Memory) (st : Status),
      t = { s with
        cur := cur
        dec := d
        mbuf := m
        status := { s.status with result := st.result, exh := st.exh, dph := st.dph } } ∧
      cur.wl = s.cur.wl ∧ cur.hl = s.cur.hl ∧
      (m = s.mbuf ∨
        s.status.dph = .running ∧ m = Memory.write .mbuf s.mbuf s.dec.mlen.toNat s.dec.accV) := by
  obtain ⟨-, rfl⟩ | ⟨hr, -, ⟨-, rfl⟩ | ⟨-, rfl⟩ | ⟨-, rfl⟩⟩ := State.decPixel_cases h
  · exact ⟨_, _, _, { s.status with result := .errSeq }, rfl, rfl, rfl, .inl rfl⟩
  · exact ⟨_, _, _, { s.status with result := .found, dph := .found }, rfl, rfl, rfl, .inl rfl⟩
  · exact ⟨_, _, _, { s.status with result := .errMbufOverflow, dph := .error }, rfl, rfl, rfl,
      .inl rfl⟩
  · obtain ⟨d, m, e, h1, h2⟩ := s.feed_eq (lsb s.curPixel.r) (lsb s.curPixel.g) (lsb s.curPixel.b)
    rw [e]
    have hm : m = s.mbuf ∨ s.status.dph = .running ∧
        m = Memory.write .mbuf s.mbuf s.dec.mlen.toNat s.dec.accV := by
      by_cases h8 : s.dec.accLen = 8#4
      · exact .inr ⟨hr, (h2 h8).1⟩
      · exact .inl (h1 h8).1
    obtain ⟨c, hc, e⟩ | ⟨-, e⟩ := State.afterFeed_cases { s with dec := d, mbuf := m } <;> rw [e]
    · exact ⟨_, _, _, { s.status with result := .ok }, rfl, (Cursor.next_some hc).1,
        (Cursor.next_some hc).2.1, hm⟩
    · exact ⟨_, _, _, { s.status with result := .errNotFound, dph := .notFound, exh := true }, rfl,
        rfl, rfl, hm⟩

/-! The end of a RUN's step. -/

/-- ENC_STEP and ENC_RUN differ in BUSY alone (42_encoder.md R207). -/
theorem execEnc_cases (s : State) :
    (∃ t, s.encPixel = .ok t ∧ execEncStep s = .next (t.setBusy false) ∧
      execEncRun s = .next (t.setBusy t.status.eph.active)) ∨
    (∃ f, s.encPixel = .error f ∧ execEncStep s = .fault f ∧ execEncRun s = .fault f) := by
  unfold execEncStep execEncRun
  cases s.encPixel with
  | ok t => exact .inl ⟨t, rfl, rfl, rfl⟩
  | error f => exact .inr ⟨f, rfl, rfl, rfl⟩

/-- DEC_STEP and DEC_RUN differ in BUSY alone (43_decoder.md R248). -/
theorem execDec_cases (s : State) :
    (∃ t, s.decPixel = .ok t ∧ execDecStep s = .next (t.setBusy false) ∧
      execDecRun s = .next (t.setBusy t.status.dph.active)) ∨
    (∃ f, s.decPixel = .error f ∧ execDecStep s = .fault f ∧ execDecRun s = .fault f) := by
  unfold execDecStep execDecRun
  cases s.decPixel with
  | ok t => exact .inl ⟨t, rfl, rfl, rfl⟩
  | error f => exact .inr ⟨f, rfl, rfl, rfl⟩

/-! The machine's step. -/

/-- A sequencer step: ERR_ILLEGAL, or one command step (30_encoding.md R97). -/
theorem seqStep_cases {s t : State} (h : seqStep s = .next t) :
    ((∃ e, decode s.cmdr = .error e) ∧ t = s.illegal) ∨
      (∃ i, decode s.cmdr = .ok i ∧ exec i s = .next t) := by
  unfold seqStep at h
  cases hd : decode s.cmdr with
  | ok i =>
    rw [hd] at h
    exact .inr ⟨i, rfl, h⟩
  | error e =>
    rw [hd] at h
    cases h
    exact .inl ⟨⟨e, rfl⟩, rfl⟩

/-- Everything a step can do: the sequencer's step, nothing, a host read, a host write, the reset
input, a move of the image layer. -/
theorem step_cases {s t : State} (h : step s = .next t) :
    ∃ ms,
      (s.status.busy = true ∧ seqStep (s.setMoves ms) = .next t) ∨
      t = s.setMoves ms ∨
      (∃ w, t = { s with
        env := { s.env with moves := ms, rdata := some w, draws := s.env.draws + 1 } }) ∨
      (∃ w a, t = (s.setMoves ms).writeTarget w (target s.params a)) ∨
      ((∃ l, s.env.moves = .reset :: l) ∧ t = (s.setMoves ms).resetEvent) ∨
      (s.status.walkActive = false ∧ ∃ img : Image,
        (img.mem = [] ∨ ∃ x y p, img = s.image.pixWrite x y p) ∧
        t = { s.setMoves ms with image := img }) ∨
      (∃ p, t = { s with env := { s.env with moves := ms, pixOut := some p } }) := by
  have turn : ∀ u : State, sequencerTurn u = .next t →
      (u.status.busy = true ∧ seqStep u = .next t) ∨ t = u := by
    intro u hu
    unfold sequencerTurn at hu
    split at hu
    · exact .inl ⟨‹_›, hu⟩
    · cases hu; exact .inr rfl
  have readCase : ∀ (ms : List Move) (a : Word) (n : Nat), hostRead a n (s.setMoves ms) = .next t →
      ∃ w, t = { s with
        env := { s.env with moves := ms, rdata := some w, draws := s.env.draws + 1 } } := by
    intro ms a n hr
    unfold hostRead at hr
    split at hr
    · cases hr; exact ⟨_, rfl⟩
    · cases hr
  unfold step machineStep at h
  cases hm : s.env.moves with
  | nil =>
    rw [hm] at h
    have hs : s.setMoves [] = s := by unfold State.setMoves; rw [← hm]
    rcases turn _ h with ⟨hb, hq⟩ | rfl
    · exact ⟨[], .inl ⟨hb, by rw [hs]; exact hq⟩⟩
    · exact ⟨[], .inr (.inl hs.symm)⟩
  | cons m ms =>
    rw [hm] at h
    cases m with
    | read a n => exact ⟨ms, .inr (.inr (.inl (readCase ms a n h)))⟩
    | write a n w =>
      simp only [applyMove, hostWrite] at h
      split at h
      · cases h; exact ⟨ms, .inr (.inr (.inr (.inl ⟨w, a, rfl⟩)))⟩
      · cases h
    | pass =>
      rcases turn _ h with ⟨hb, hq⟩ | rfl
      · exact ⟨ms, .inl ⟨hb, hq⟩⟩
      · exact ⟨ms, .inr (.inl rfl)⟩
    | wait =>
      simp only [applyMove] at h
      split at h
      · exact ⟨.wait :: ms, .inl ⟨‹_›, h⟩⟩
      · exact ⟨ms, .inr (.inr (.inl (readCase ms _ _ h)))⟩
    | test mask v n =>
      simp only [applyMove] at h
      split at h <;> cases h
      · exact ⟨ms, .inr (.inl rfl)⟩
      · exact ⟨_, .inr (.inl rfl)⟩
    | reset =>
      cases h
      exact ⟨ms, .inr (.inr (.inr (.inr (.inl ⟨⟨ms, rfl⟩, rfl⟩))))⟩
    | openImage w l =>
      simp only [applyMove] at h
      split at h <;> cases h
      exact ⟨ms, .inr (.inr (.inr (.inr (.inr (.inl
        ⟨by simpa using ‹¬ _ = true›, _, .inl rfl, rfl⟩)))))⟩
    | putPixel x y p =>
      simp only [applyMove, imageMove] at h
      split at h
      · cases h
      · split at h <;> cases h
        exact ⟨ms, .inr (.inr (.inr (.inr (.inr (.inl
          ⟨by simpa using ‹¬ _ = true›, _, .inr ⟨x, y, p, rfl⟩, rfl⟩)))))⟩
    | getPixel x y =>
      simp only [applyMove, imageMove] at h
      split at h
      · cases h
      · split at h <;> cases h
        exact ⟨ms, .inr (.inr (.inr (.inr (.inr (.inr ⟨_, rfl⟩)))))⟩

end Sys2Proof.Machine
end

