-- ==== Sys2Proof/Laws/PerInstr.lean ====
section
/-! SUPPORT. For every command: its word lies under the mask and match of its row of the opcode map. -/

namespace Sys2Proof.Laws

/-- The command's word has exactly the fixed bits its row of spec/30_encoding.md R96 gives. -/
def EncodeFits.Statement (i : Instr) : Prop :=
  ∃ r ∈ opcodeRows, r.mnemonic = i.mnemonic ∧ encode i &&& r.mask = r.matchWord

/-- A word under a mask, bit by bit. -/
theorem EncodeFits.of_bits {w m v : Word}
    (h : ∀ i : Fin 32, (w.getLsbD i && m.getLsbD i) = v.getLsbD i) : w &&& m = v := by
  apply BitVec.eq_of_getLsbD_eq
  intro i hi
  rw [BitVec.getLsbD_and]
  exact h ⟨i, hi⟩

theorem EncodeFits.nop : EncodeFits.Statement .nop := by
  unfold EncodeFits.Statement
  decide

theorem EncodeFits.byteNew (imm8 : Byte) : EncodeFits.Statement (.byteNew imm8) := by
  refine ⟨⟨"BYTE_NEW", 0x04000000, 0xFFFFFF00⟩, by decide, rfl, EncodeFits.of_bits ?_⟩
  intro i
  simp only [encode, BitVec.getLsbD_append]
  fin_cases i <;> simp

theorem EncodeFits.byteStoreBit (bit : Bool) : EncodeFits.Statement (.byteStoreBit bit) := by
  cases bit <;> unfold EncodeFits.Statement <;> decide

theorem EncodeFits.byteStoreRandomBit : EncodeFits.Statement .byteStoreRandomBit := by
  unfold EncodeFits.Statement
  decide

theorem EncodeFits.byteToSeq : EncodeFits.Statement .byteToSeq := by
  unfold EncodeFits.Statement
  decide

theorem EncodeFits.byteFromSeq : EncodeFits.Statement .byteFromSeq := by
  unfold EncodeFits.Statement
  decide

theorem EncodeFits.byteFromSeqBounded : EncodeFits.Statement .byteFromSeqBounded := by
  unfold EncodeFits.Statement
  decide

theorem EncodeFits.seqLoad (len : BitVec 5) (seq : BitVec 16) : EncodeFits.Statement (.seqLoad len seq) := by
  refine ⟨⟨"SEQ_LOAD", 0x1C000000, 0xFFE00000⟩, by decide, rfl, EncodeFits.of_bits ?_⟩
  intro i
  simp only [encode, BitVec.getLsbD_append]
  fin_cases i <;> simp

theorem EncodeFits.byteFromStr : EncodeFits.Statement .byteFromStr := by
  unfold EncodeFits.Statement
  decide

theorem EncodeFits.byteToStr : EncodeFits.Statement .byteToStr := by
  unfold EncodeFits.Statement
  decide

theorem EncodeFits.byteCmp (imm8 : Byte) : EncodeFits.Statement (.byteCmp imm8) := by
  refine ⟨⟨"BYTE_CMP", 0x28000000, 0xFFFFFF00⟩, by decide, rfl, EncodeFits.of_bits ?_⟩
  intro i
  simp only [encode, BitVec.getLsbD_append]
  fin_cases i <;> simp

theorem EncodeFits.curInit : EncodeFits.Statement .curInit := by
  unfold EncodeFits.Statement
  decide

theorem EncodeFits.curAdvance : EncodeFits.Statement .curAdvance := by
  unfold EncodeFits.Statement
  decide

theorem EncodeFits.curInBoundsX (coord : Coord) : EncodeFits.Statement (.curInBoundsX coord) := by
  refine ⟨⟨"CUR_IN_BOUNDS_X", 0x48000000, 0xFF000000⟩, by decide, rfl, EncodeFits.of_bits ?_⟩
  intro i
  simp only [encode, BitVec.getLsbD_append]
  fin_cases i <;> simp

theorem EncodeFits.curInBoundsY (coord : Coord) : EncodeFits.Statement (.curInBoundsY coord) := by
  refine ⟨⟨"CUR_IN_BOUNDS_Y", 0x4C000000, 0xFF000000⟩, by decide, rfl, EncodeFits.of_bits ?_⟩
  intro i
  simp only [encode, BitVec.getLsbD_append]
  fin_cases i <;> simp

theorem EncodeFits.curCapacity : EncodeFits.Statement .curCapacity := by
  unfold EncodeFits.Statement
  decide

theorem EncodeFits.encStart : EncodeFits.Statement .encStart := by
  unfold EncodeFits.Statement
  decide

theorem EncodeFits.encStep : EncodeFits.Statement .encStep := by
  unfold EncodeFits.Statement
  decide

theorem EncodeFits.encRun : EncodeFits.Statement .encRun := by
  unfold EncodeFits.Statement
  decide

theorem EncodeFits.decStart : EncodeFits.Statement .decStart := by
  unfold EncodeFits.Statement
  decide

theorem EncodeFits.decStep : EncodeFits.Statement .decStep := by
  unfold EncodeFits.Statement
  decide

theorem EncodeFits.decRun : EncodeFits.Statement .decRun := by
  unfold EncodeFits.Statement
  decide

theorem EncodeFits.decFeed (t0 t1 t2 : Bool) : EncodeFits.Statement (.decFeed t0 t1 t2) := by
  cases t0 <;> cases t1 <;> cases t2 <;> unfold EncodeFits.Statement <;> decide

theorem EncodeFits.softReset : EncodeFits.Statement .softReset := by
  unfold EncodeFits.Statement
  decide

end Sys2Proof.Laws
end

