-- ==== Sys2Proof/Laws/Run.lean ====
section
/-! SUPPORT. Small laws of the launch premises, the ends of runs and the observation of Sys2Proof/Safety.lean
and Sys2Proof/Machine/Observation.lean. -/

namespace Sys2Proof.Machine

/-! The observation (70_reset_and_hazards.md R326). -/

/-- BYTE is observed once a writer has run. -/
theorem State.observeReg_byte (s : State) :
    s.observeReg .byte = if s.bu.bSet then some (s.bu.b.setWidth 32) else none := by
  cases h : s.bu.bSet <;> simp [State.observeReg, PortReg.unspec, ByteUnit.unspec, State.readReg, h]

/-- SEQ is observed once a writer has run. -/
theorem State.observeReg_seq (s : State) : s.observeReg .seq =
    if s.bu.seqSet then some ((s.bu.seqLen ++ s.bu.seqV).setWidth 32) else none := by
  cases h : s.bu.seqSet <;> simp [State.observeReg, PortReg.unspec, ByteUnit.unspec, State.readReg, h]

/-- STR0 is observed once a writer has run. -/
theorem State.observeReg_str0 (s : State) :
    s.observeReg .str0 = if s.bu.str0Set then some s.bu.str0 else none := by
  cases h : s.bu.str0Set <;> simp [State.observeReg, PortReg.unspec, ByteUnit.unspec, State.readReg, h]

/-- STR1 is observed once a writer has run. -/
theorem State.observeReg_str1 (s : State) :
    s.observeReg .str1 = if s.bu.str1Set then some s.bu.str1 else none := by
  cases h : s.bu.str1Set <;> simp [State.observeReg, PortReg.unspec, ByteUnit.unspec, State.readReg, h]

/-- CMDR is not observed. -/
@[simp] theorem State.observe_cmdr (s : State) (w : Word) : { s with cmdr := w }.observe = s.observe := rfl

/-- ENC_N is not observed. -/
@[simp] theorem State.observe_encN (s : State) (n : Word) :
    { s with enc := { s.enc with n := n } }.observe = s.observe := rfl

/-- PBUF is not observed. -/
@[simp] theorem State.observe_pbuf (s : State) (m : Memory) : { s with pbuf := m }.observe = s.observe := rfl

/-- What the environment still has to do is not observed. -/
@[simp] theorem State.observe_env (s : State) (e : Env) : { s with env := e }.observe = s.observe := rfl

/-- MBUF is observed below MLEN only. -/
theorem State.observe_mbuf {s : State} {m : Memory}
    (h : ∀ k, k < s.dec.mlen.toNat → Memory.read .mbuf m k = Memory.read .mbuf s.mbuf k) :
    { s with mbuf := m }.observe = s.observe := by
  have hm : (List.range s.dec.mlen.toNat).map (Memory.read .mbuf m) =
      (List.range s.dec.mlen.toNat).map (Memory.read .mbuf s.mbuf) :=
    List.map_congr_left (fun k hk => h k (List.mem_range.mp hk))
  unfold State.observe
  rw [hm]
  rfl

/-- A whole message is observed byte for byte. -/
theorem State.observe_message {s : State} {l : List Byte} (hl : s.dec.mlen.toNat = l.length)
    (h : ∀ k, (hk : k < l.length) → Memory.read .mbuf s.mbuf k = some l[k]) :
    s.observe.message = l.map some := by
  apply List.ext_getElem
  · simp [State.observe, hl]
  · intro k h1 h2
    simp only [State.observe, List.getElem_map, List.getElem_range]
    exact h k (by simpa using h2)

/-! The ends of runs (R326). -/

/-- With no move left, a script has ended once its last command has. -/
theorem State.scriptEnded_of_nil {s : State} (hb : s.commandEnded) (hm : s.env.moves = []) :
    s.scriptEnded :=
  ⟨hb, by simp [hm]⟩

/-! Launches (R325). -/

/-- An idle machine with no move left rests. -/
theorem run_idle {s : State} (hb : s.idle) (hm : s.env.moves = []) (k : Nat) :
    Sys2Proof.core.run k s = .next s := by
  have hs : Sys2Proof.core.step s = .next s := by
    have hb' : s.status.busy = false := hb
    change step s = .next s
    simp [step, machineStep, hm, sequencerTurn, hb']
  induction k with
  | zero => rfl
  | succ k ih =>
    simp only [Host.Core.run, hs]
    exact ih

/-- Where nobody moves, the block has the pixel buffer to itself. -/
theorem State.exclusive_of_idle {s : State} (hb : s.idle) (hm : s.env.moves = []) : s.exclusive := by
  intro k t m ms hr _ hn
  rw [run_idle hb hm] at hr
  cases hr
  cases hm.symm.trans hn

/-- The image of a launch has the dimensions that a walk's start latches. -/
theorem State.dims.latches {W H : Nat} {s : State} (h : s.dims W H) :
    s.image.w = coordBitsOf s.params s.regs.width.toNat ∧
      s.image.h = coordBitsOf s.params s.regs.height.toNat := by
  constructor <;> apply BitVec.eq_of_toNat_eq <;> rw [coordBitsOf_toNat]
  · rw [h.imageWidth, h.width, Nat.mod_eq_of_lt h.widthFits]
  · rw [h.imageHeight, h.height, Nat.mod_eq_of_lt h.heightFits]

/-- ENC_START from an encode launch latches the open image and the written payload: what a walk's first
step needs. -/
theorem EncodeLaunch.encStart {n W H : Nat} {s : State}
    (h : EncodeLaunch n W H s) (hn : n ≤ s.params.pbufMax) :
    s.encStart.imageLatched ∧ s.encStart.pbufWritten s.encStart.enc.n.toNat := by
  have hp := h.payload.2
  have hle : ¬ s.params.pbufMax < s.regs.plen.toNat := by omega
  have hb : s.pbufWritten s.regs.plen.toNat := by rw [hp]; exact h.payload.1
  unfold State.encStart
  simp only [hle, if_false]
  split <;> exact ⟨h.dims.latches, hb⟩

/-- DEC_START from a launch latches the open image. -/
theorem Launch.decStart {W H : Nat} {s : State}
    (h : Launch W H s) : s.decStart.imageLatched := by
  unfold State.decStart
  dsimp only
  split <;> exact h.dims.latches

end Sys2Proof.Machine
end

