-- ==== Sys2Proof/Machine/Script.lean ====
section
/-! DEFINITION. Host scripts: the assembler syntax and the pseudo-instructions of spec/30_encoding.md
R101, R102, as a translation from text to the environment's moves. notes/assumptions/11.md. -/

namespace Sys2Proof.Machine

/-- A line of a script (R101, R102). SEQ_BITS and FEED are command lines (R102). -/
inductive ScriptLine where
  | command (i : Instr)
  | wr (addr data : Word)
  | rd (addr : Word)
  | wait
  | loadPayload (bytes : List Byte)
  | encode
  | decode
  deriving DecidableEq, Repr

/-- `HostWrite(0x000, word)`: a command line (R101). -/
def cmdWrite (i : Instr) : Move := .write 0x000#32 32 (encode i)

/-- Payload word k of LOAD_PAYLOAD: bytes 4k to 4k+3, "missing bytes 0" (R102). -/
def payloadWord (bytes : List Byte) (k : Nat) : Word :=
  ofLanes (bytes.getD (4 * k) 0) (bytes.getD (4 * k + 1) 0) (bytes.getD (4 * k + 2) 0)
    (bytes.getD (4 * k + 3) 0)

/-- LOAD_PAYLOAD: `WR PLEN, n`, then `WR PBUF[k]` for each k with 4k < n (R102). -/
def loadPayload (bytes : List Byte) : List Move :=
  .write 0x03C#32 32 (BitVec.ofNat 32 bytes.length) ::
    (List.range ((bytes.length + 3) / 4)).map
      (fun k => .write (BitVec.ofNat 32 (pbufBase + 4 * k)) 32 (payloadWord bytes k))

/-- STATUS.EPH = PAYLOAD, as a test of the STATUS word: bits [18:16]. -/
def testPayload : Move := .test 0x00070000#32 0x00010000#32 2

/-- STATUS.DPH = RUNNING, as a test of the STATUS word: bits [22:20]. -/
def testRunning : Move := .test 0x00700000#32 0x00100000#32 2

/-- The moves a line stands for (R101, R102). -/
def ScriptLine.moves : ScriptLine → List Move
  | .command i => [cmdWrite i]
  | .wr addr data => [.write addr 32 data]
  | .rd addr => [.read addr 32]
  | .wait => [.wait]
  | .loadPayload bytes => Sys2Proof.Machine.loadPayload bytes
  | .encode => [cmdWrite .encStart, .wait, testPayload, cmdWrite .encRun, .wait]
  | .decode => [cmdWrite .decStart, .wait, testRunning, cmdWrite .decRun, .wait]

/-! Text. -/

/-- The pieces of a text between separators. -/
def splitAt (sep : Char) : List Char → List (List Char)
  | [] => [[]]
  | c :: cs =>
    if c = sep then [] :: splitAt sep cs
    else
      match splitAt sep cs with
      | [] => [[c]]
      | w :: ws => (c :: w) :: ws

/-- Is the character white space inside a line. -/
def isBlank (c : Char) : Bool := c == ' ' || c == '\t' || c == '\r'

/-- A text without the white space around it. -/
def trim (cs : List Char) : List Char :=
  ((cs.dropWhile isBlank).reverse.dropWhile isBlank).reverse

/-- A line without its comment: "A `;` starts a comment" (R101). -/
def dropComment (cs : List Char) : List Char := cs.takeWhile (fun c => c != ';')

/-- The value of a digit character below `base`. -/
def digitValue (base : Nat) (c : Char) : Option Nat :=
  let n := c.toNat
  let v :=
    if 48 ≤ n ∧ n ≤ 57 then some (n - 48)
    else if 65 ≤ n ∧ n ≤ 70 then some (n - 55)
    else if 97 ≤ n ∧ n ≤ 102 then some (n - 87)
    else none
  match v with
  | some d => if d < base then some d else none
  | none => none

/-- The number a list of digits denotes in `base`, after `acc`. -/
def digitsValue (base : Nat) : Nat → List Char → Option Nat
  | acc, [] => some acc
  | acc, c :: cs =>
    match digitValue base c with
    | some d => digitsValue base (acc * base + d) cs
    | none => none

/-- "Numbers are written in decimal, `0x` hexadecimal or `0b` binary" (R101). -/
def number (cs : List Char) : Option Nat :=
  match cs with
  | '0' :: 'x' :: d :: ds => digitsValue 16 0 (d :: ds)
  | '0' :: 'b' :: d :: ds => digitsValue 2 0 (d :: ds)
  | d :: ds => digitsValue 10 0 (d :: ds)
  | [] => none

/-- A number below `2 ^ bits`, as a field. -/
def field (bits : Nat) (cs : List Char) : Option (BitVec bits) :=
  match number cs with
  | some n => if n < 2 ^ bits then some (BitVec.ofNat bits n) else none
  | none => none

/-- `0` or `1`. -/
def bitOf (c : Char) : Option Bool :=
  if c = '0' then some false else if c = '1' then some true else none

/-- A text of `0`s and `1`s. -/
def bitsOf : List Char → Option (List Bool)
  | [] => some []
  | c :: cs =>
    match bitOf c, bitsOf cs with
    | some b, some bs => some (b :: bs)
    | _, _ => none

/-- The double quote of SEQ_BITS and FEED. -/
def quote : Char := Char.ofNat 34

/-- The bits between two double quotes. -/
def quotedBits (cs : List Char) : Option (List Bool) :=
  match cs with
  | q :: rest =>
    if q = quote ∧ rest.getLast? = some quote then bitsOf rest.dropLast else none
  | [] => none

/-- The registers a WR or RD line can name (R93, R101). -/
def regNames : List (String × Word) :=
  [("CMD", 0x000), ("STATUS", 0x004), ("BYTE", 0x008), ("SEQ", 0x00C), ("STR0", 0x010),
   ("STR1", 0x014), ("WIDTH", 0x018), ("HEIGHT", 0x01C), ("CUR_X", 0x020), ("CUR_Y", 0x024),
   ("WL", 0x028), ("HL", 0x02C), ("CAP_LO", 0x030), ("CAP_HI", 0x034), ("TERM", 0x038),
   ("PLEN", 0x03C), ("ENC_I", 0x040), ("ENC_L", 0x044), ("ACC", 0x048), ("MLEN", 0x04C)]

/-- The address of a register name, if it is one. -/
def regAddr (cs : List Char) : List (String × Word) → Option Word
  | [] => none
  | (name, addr) :: rest => if name.toList = cs then some addr else regAddr cs rest

/-- The address of `PBUF[k]` or `MBUF[k]`: buffer word k. -/
def bufferAddr (cs : List Char) : Option Word :=
  match cs with
  | a :: 'B' :: 'U' :: 'F' :: '[' :: rest =>
    if rest.getLast? = some ']' ∧ (a = 'P' ∨ a = 'M') then
      match number rest.dropLast with
      | some k =>
        let addr := (if a = 'P' then pbufBase else mbufBase) + 4 * k
        if addr < 2 ^ 32 then some (BitVec.ofNat 32 addr) else none
      | none => none
    else none
  | _ => none

/-- The address a WR or RD line names. -/
def portAddr (cs : List Char) : Option Word :=
  match regAddr cs regNames with
  | some a => some a
  | none => bufferAddr cs

/-- The bytes of LOAD_PAYLOAD. -/
def byteList : List (List Char) → Option (List Byte)
  | [] => some []
  | cs :: rest =>
    match field 8 cs, byteList rest with
    | some b, some bs => some (b :: bs)
    | _, _ => none

/-- The commands of format N (R94). -/
def plainCommands : List Instr :=
  [.nop, .byteStoreRandomBit, .byteToSeq, .byteFromSeq, .byteFromSeqBounded, .byteFromStr, .byteToStr,
   .curInit, .curAdvance, .curCapacity, .encStart, .encStep, .encRun, .decStart, .decStep, .decRun,
   .softReset]

/-- The command of format N with a mnemonic. -/
def plainCommand (name : List Char) : Option Instr :=
  plainCommands.find? (fun i => i.mnemonic.toList == name)

/-- A line with one operand. -/
def lineOne (name a : List Char) : Option ScriptLine :=
  if name = "BYTE_NEW".toList then (field 8 a).map (fun v => .command (.byteNew v))
  else if name = "BYTE_CMP".toList then (field 8 a).map (fun v => .command (.byteCmp v))
  else if name = "BYTE_STORE_BIT".toList then
    (field 1 a).map (fun v => .command (.byteStoreBit (v.getLsbD 0)))
  else if name = "CUR_IN_BOUNDS_X".toList then (field 24 a).map (fun v => .command (.curInBoundsX v))
  else if name = "CUR_IN_BOUNDS_Y".toList then (field 24 a).map (fun v => .command (.curInBoundsY v))
  else if name = "RD".toList then (portAddr a).map .rd
  else if name = "SEQ_BITS".toList then
    match quotedBits a with
    | some bs =>
      if bs.length ≤ 16 then
        some (.command (.seqLoad (BitVec.ofNat 5 bs.length) (BitVec.ofNat 16 (fold bs))))
      else none
    | none => none
  else if name = "FEED".toList then
    match quotedBits a with
    | some [t0, t1, t2] => some (.command (.decFeed t0 t1 t2))
    | _ => none
  else none

/-- A line with two operands. DESIGN CHOICE (notes/assumptions/11.md): R101 does not say whether a SEQ_LOAD line
with LEN 17 to 31 assembles, a number that fits the 5-bit field of R94 and gives a word that R97 makes illegal;
here it is no script line, by R95's 0 ≤ LEN ≤ 16, and `WR CMD` issues such a word. -/
def lineTwo (name a b : List Char) : Option ScriptLine :=
  if name = "WR".toList then
    match portAddr a, field 32 b with
    | some addr, some w => some (.wr addr w)
    | _, _ => none
  else if name = "SEQ_LOAD".toList then
    match field 5 a, field 16 b with
    | some len, some seq => if len.toNat ≤ 16 then some (.command (.seqLoad len seq)) else none
    | _, _ => none
  else none

/-- A line with three operands. -/
def lineThree (name a b c : List Char) : Option ScriptLine :=
  if name = "DEC_FEED".toList then
    match field 1 a, field 1 b, field 1 c with
    | some t0, some t1, some t2 =>
      some (.command (.decFeed (t0.getLsbD 0) (t1.getLsbD 0) (t2.getLsbD 0)))
    | _, _, _ => none
  else none

/-- A line with no operand. -/
def lineNone (name : List Char) : Option ScriptLine :=
  if name = "WAIT".toList then some .wait
  else if name = "ENCODE".toList then some .encode
  else if name = "DECODE".toList then some .decode
  else (plainCommand name).map .command

/-- One line with its comment taken off and its white space trimmed: "a mnemonic ... with its
operands, separated by commas" (R101). -/
def parseLine (cs : List Char) : Option ScriptLine :=
  let name := cs.takeWhile (fun c => !isBlank c)
  let rest := trim (cs.dropWhile (fun c => !isBlank c))
  let args := if rest.isEmpty then [] else (splitAt ',' rest).map trim
  if name = "LOAD_PAYLOAD".toList then (byteList args).map .loadPayload
  else
    match args with
    | [] => lineNone name
    | [a] => lineOne name a
    | [a, b] => lineTwo name a b
    | [a, b, c] => lineThree name a b c
    | _ => none

/-- The lines of a text, blank and comment lines left out; none if some line is no script line. -/
def parseLines : List (List Char) → Option (List ScriptLine)
  | [] => some []
  | cs :: rest =>
    let line := trim (dropComment cs)
    match line, parseLines rest with
    | [], r => r
    | c :: more, some ls => (parseLine (c :: more)).map (fun l => l :: ls)
    | _ :: _, none => none

/-- "A script is a sequence of lines" (R101): the moves a script's text stands for, one line after the other.
DESIGN CHOICE (notes/assumptions/11.md): 60_exceptions.md R285 leaves open whether the sequencer steps between
two lines; here no PASS stands between them, so that while lines remain it steps only inside WAIT, and a
command line that follows another without a WAIT is dropped. -/
def assemble (text : String) : Option (List Move) :=
  (parseLines (splitAt '\n' text.toList)).map (fun ls => (ls.map ScriptLine.moves).flatten)

end Sys2Proof.Machine
end

