-- ==== Sys2Proof/Tests/Slice0.lean ====
section
/-! SUPPORT. Tests. Expected values are the vectors of spec/95_test_vectors.md, or worked by hand from the rule
named; the words of commands are written out from spec/30_encoding.md R94 to R96. A theorem named
test_hyp_<Name> is the witness that the hypotheses of Obligations.<Name> can all hold together. -/

namespace Sys2Proof.Tests

open Sys2Proof Sys2Proof.Machine Sys2Proof.Claims

/-! Helpers. -/

/-- The parameters of 95_test_vectors.md: T_test = 0xA5, COORD_BITS 8, PBUF_MAX 16, MBUF_MAX 16. -/
def params : Params := ⟨0xA5, 8, 16, 16, by decide⟩

/-- Buffers of 14 bytes, so that the last word of a window has two lanes past the end. -/
def params14 : Params := ⟨0xA5, 8, 14, 14, by decide⟩

/-- The reset state with those parameters. -/
def base : State := { State.reset with params := params }

/-- Did the step give a next state, and does the check hold there. -/
def gives (o : Host.Outcome State Fault Refusal) (p : State → Bool) : Bool :=
  match o with
  | .next t => p t
  | .fault _ => false
  | .refused _ => false

/-- Did the step fault with this reason. -/
def faults (o : Host.Outcome State Fault Refusal) (f : Fault) : Bool :=
  match o with
  | .next _ => false
  | .fault g => g == f
  | .refused _ => false

/-- The command decoded, if the word is legal. -/
def decoded (w : Word) : Option Instr :=
  match decode w with
  | .ok i => some i
  | .error _ => none

/-- A state about to take its environment's move. -/
def withMove (s : State) (m : Move) : State := { s with env := { s.env with moves := [m] } }

/-- A state with a command issued. -/
def issued (s : State) (w : Word) : State := s.withCommand w

/-- BYTE set to a value. -/
def withByte (v : Byte) : State := base.putByte v

/-- SEQ set to a sequence. -/
def withSeq (len : BitVec 5) (v : BitVec 16) : State := (withByte 0x77).putSeq v len

/-- STR0 and STR1 set. -/
def withStr (w0 w1 : Word) : State := ((withByte 0x77).putStr0 w0).putStr1 w1

/-- The cursor at (x, y) of a WL by HL image, that image open. -/
def at_ (wl hl x y : Coord) : State :=
  { base with
    cur := { x := x, y := y, wl := wl, hl := hl, cap := 0 }
    image := { w := wl, h := hl, mem := [] } }

/-- A payload walk over 4 by 3 pixels, one byte 0x3C and the terminator (16 bits): pixel number p. -/
def payloadAt (x y : Coord) (i : Word) : State :=
  { at_ 4 3 x y with
    pbuf := [(0, 0x3C)]
    enc := { i := i, l := 16, n := 1 }
    status := { State.reset.status with eph := .payload, busy := true }
    cmdr := 0x88000000 }

/-- The walk of 95_test_vectors.md 2.4 without padding: 3 by 1 pixels, no byte, the terminator alone. -/
def tight (x : Coord) (i : Word) : State :=
  { at_ 3 1 x 0 with
    enc := { i := i, l := 8, n := 0 }
    status := { State.reset.status with eph := .payload } }

/-- The same walk in its padding. -/
def paddingAt (x y : Coord) : State :=
  { payloadAt x y 16 with status := { State.reset.status with eph := .padding } }

/-- A decode walk over a 4 by 3 image. -/
def decodeAt (x y : Coord) (d : Decoder) : State :=
  { at_ 4 3 x y with
    dec := d
    status := { State.reset.status with dph := .running, busy := true }
    cmdr := 0xA8000000 }

/-- The accumulator, as (ACC_LEN, ACC_V, SPILL_LEN, SPILL_V), with MLEN. -/
def acc (al : BitVec 4) (av : Byte) (sl sv : BitVec 2) (mlen : Word) : Decoder :=
  { accV := av, accLen := al, spillV := sv, spillLen := sl, mlen := mlen }

/-! WellFormed. -/

/-- 30_encoding.md R97: LEN is at most 16. -/
theorem test_wf_seqLoad : Instr.wf (.seqLoad 16 0xFFFF) = true ∧ Instr.wf (.seqLoad 17 0) = false ∧
    Instr.wf (.seqLoad 31 0) = false := by decide

/-! Decoding, word by word from R94 and R96: OP in bits [31:26]. -/

theorem test_decode_control :
    decoded (0b000000_00000000000000000000000000#32) = some .nop ∧
    decoded (0b111111_00000000000000000000000000#32) = some .softReset := by decide

theorem test_decode_byte :
    decoded (0b000001_000000000000000000_10110100#32) = some (.byteNew 0xB4) ∧
    decoded (0b000010_0000000000000000000000000_1#32) = some (.byteStoreBit true) ∧
    decoded (0b000011_00000000000000000000000000#32) = some .byteStoreRandomBit ∧
    decoded (0b001010_000000000000000000_11000000#32) = some (.byteCmp 0xC0) := by decide

theorem test_decode_sequences :
    decoded (0b000100_00000000000000000000000000#32) = some .byteToSeq ∧
    decoded (0b000101_00000000000000000000000000#32) = some .byteFromSeq ∧
    decoded (0b000110_00000000000000000000000000#32) = some .byteFromSeqBounded ∧
    decoded (0b000111_00000_00101_0000000000010110#32) = some (.seqLoad 5 0x16) ∧
    decoded (0b001000_00000000000000000000000000#32) = some .byteFromStr ∧
    decoded (0b001001_00000000000000000000000000#32) = some .byteToStr := by decide

theorem test_decode_cursor :
    decoded (0b010000_00000000000000000000000000#32) = some .curInit ∧
    decoded (0b010001_00000000000000000000000000#32) = some .curAdvance ∧
    decoded (0b010010_00_100000000000000000000011#32) = some (.curInBoundsX 0x800003) ∧
    decoded (0b010011_00_000000000000000000000001#32) = some (.curInBoundsY 1) ∧
    decoded (0b010100_00000000000000000000000000#32) = some .curCapacity := by decide

theorem test_decode_encoder :
    decoded (0b100000_00000000000000000000000000#32) = some .encStart ∧
    decoded (0b100001_00000000000000000000000000#32) = some .encStep ∧
    decoded (0b100010_00000000000000000000000000#32) = some .encRun := by decide

theorem test_decode_decoder :
    decoded (0b101000_00000000000000000000000000#32) = some .decStart ∧
    decoded (0b101001_00000000000000000000000000#32) = some .decStep ∧
    decoded (0b101010_00000000000000000000000000#32) = some .decRun ∧
    decoded (0b101011_00000000000000000000000_100#32) = some (.decFeed false false true) ∧
    decoded (0b101011_00000000000000000000000_001#32) = some (.decFeed true false false) := by decide

/-- 95_test_vectors.md 2.1: the illegal words, one per format and the reserved OPs. -/
theorem test_decode_illegal :
    (([0x00000001, 0x04000100, 0x08000002, 0x1C110000, 0x1C200000, 0x49000000, 0xAC000008, 0x2C000000,
      0x54000000, 0xF8000000, 0xFC000001, 0x84000001] : List Word).all
        (fun w => decoded w == none)) = true := by decide

/-! Byte unit, 95_test_vectors.md 2.2. -/

theorem test_byteNew : gives (exec (.byteNew 0xB4) base)
    (fun t => t.bu.b == 0xB4 && t.bu.bSet && t.status.result == .ok) = true := by decide

theorem test_byteStoreBit :
    gives (exec (.byteStoreBit false) (withByte 0xFF)) (fun t => t.bu.b == 0xFE) = true ∧
    gives (exec (.byteStoreBit true) (withByte 0x00)) (fun t => t.bu.b == 0x01) = true ∧
    gives (exec (.byteStoreBit true) (withByte 0xB5)) (fun t => t.bu.b == 0xB5) = true := by decide

/-- The bit is a free value: bits [7:1] are as they were, and one value is drawn. -/
theorem test_byteStoreRandomBit : gives (exec .byteStoreRandomBit (withByte 0xB4))
    (fun t => t.env.draws == 1 && t.status.result == .ok) = true := by decide

theorem test_byteToSeq : gives (exec .byteToSeq (withByte 0xB4))
    (fun t => t.bu.seqV == 0x00B4 && t.bu.seqLen == 8) = true := by decide

theorem test_byteFromSeq :
    gives (exec .byteFromSeq (withSeq 8 0xA5)) (fun t => t.bu.b == 0xA5 && t.status.result == .ok) = true ∧
    ([0, 7, 9] : List (BitVec 5)).all (fun n => gives (exec .byteFromSeq (withSeq n 0))
      (fun t => t.bu.b == 0x77 && t.status.result == .errLength)) = true := by decide

theorem test_byteFromSeqBounded :
    gives (exec .byteFromSeqBounded (withSeq 5 0x16)) (fun t => t.bu.b == 0x16) = true ∧
    gives (exec .byteFromSeqBounded (withSeq 0 0)) (fun t => t.bu.b == 0x00 && t.status.result == .ok) = true ∧
    gives (exec .byteFromSeqBounded (withSeq 9 0x1FF))
      (fun t => t.bu.b == 0x77 && t.status.result == .errLength) = true := by decide

theorem test_seqLoad :
    gives (exec (.seqLoad 3 0xFFFF) base) (fun t => t.bu.seqV == 7 && t.bu.seqLen == 3) = true ∧
    gives (exec (.seqLoad 0 0x1234) base) (fun t => t.bu.seqV == 0 && t.bu.seqLen == 0) = true ∧
    gives (exec (.seqLoad 16 0xFFFF) base) (fun t => t.bu.seqV == 0xFFFF) = true := by decide

theorem test_byteFromStr :
    gives (exec .byteFromStr (withStr 0x31313031 0x30303130))
      (fun t => t.bu.b == 0xB4 && t.status.result == .ok) = true ∧
    gives (exec .byteFromStr (withStr 0x31313031 0x30303132))
      (fun t => t.bu.b == 0x77 && t.status.result == .errDigit) = true ∧
    gives (exec .byteFromStr (withStr 0x30303030 0x00303030))
      (fun t => t.bu.b == 0x77 && t.status.result == .errDigit) = true := by decide

theorem test_byteToStr : gives (exec .byteToStr (withByte 0x16))
    (fun t => t.bu.str0 == 0x31303030 && t.bu.str1 == 0x30313130) = true := by decide

theorem test_byteCmp :
    gives (exec (.byteCmp 0x16) (withByte 0x16)) (fun t => t.status.word == 0x100) = true ∧
    gives (exec (.byteCmp 0xFF) (withByte 0x00)) (fun t => t.status.word == 0x200) = true ∧
    gives (exec (.byteCmp 0x00) (withByte 0xFF)) (fun t => t.status.word == 0) = true := by decide

/-! Cursor, 95_test_vectors.md 2.3. -/

theorem test_curInit :
    gives (exec .curInit { at_ 9 9 4 4 with regs := { width := 3, height := 2, plen := 0 } })
      (fun t => t.cur.wl == 3 && t.cur.hl == 2 && t.cur.x == 0 && t.cur.y == 0 &&
        t.status.result == .ok) = true ∧
    gives (exec .curInit { at_ 9 9 4 4 with regs := { width := 0, height := 4, plen := 0 } })
      (fun t => t.cur.wl == 0 && t.cur.hl == 4 && t.cur.x == 0 &&
        t.status.result == .errEmpty) = true := by decide

theorem test_curAdvance :
    gives (exec .curAdvance (at_ 3 2 2 0)) (fun t => t.cur.x == 0 && t.cur.y == 1) = true ∧
    gives (exec .curAdvance (at_ 3 2 2 1)) (fun t => t.cur.x == 2 && t.cur.y == 1 && t.status.exh &&
      t.status.result == .errExhausted) = true ∧
    gives (exec .curAdvance (at_ 0 2 0 0)) (fun t => t.status.result == .errEmpty) = true := by decide

theorem test_curInBounds :
    gives (exec (.curInBoundsX 2) (at_ 3 2 0 0)) (fun t => t.status.ib) = true ∧
    gives (exec (.curInBoundsX 3) (at_ 3 2 0 0)) (fun t => !t.status.ib) = true ∧
    gives (exec (.curInBoundsX 0) (at_ 0 2 0 0)) (fun t => !t.status.ib) = true ∧
    gives (exec (.curInBoundsY 1) (at_ 3 2 0 0)) (fun t => t.status.ib) = true := by decide

theorem test_curCapacity :
    gives (exec .curCapacity (at_ 100 100 0 0)) (fun t => t.cur.cap == 0x7530) = true ∧
    gives (exec .curCapacity (at_ 0xFFFFFF 0xFFFFFF 0 0))
      (fun t => t.cur.cap == 0x0002FFFFFA000003) = true := by decide

/-! Encoder, 95_test_vectors.md E2, E7, 2.4. -/

/-- A launch with WIDTH, HEIGHT and PLEN. -/
def launch (w h : Coord) (n : Word) : State :=
  { base with regs := { width := w, height := h, plen := n } }

theorem test_encStart :
    gives (exec .encStart (launch 3 1 0)) (fun t => t.status.word == 0x00010000 && t.enc.l == 8 &&
      t.cur.cap == 9) = true ∧
    gives (exec .encStart (launch 4 2 2)) (fun t => t.status.word == 0x00040016) = true ∧
    gives (exec .encStart (launch 3 3 2)) (fun t => t.status.word == 0x00010000) = true ∧
    gives (exec .encStart (launch 0 5 17)) (fun t => t.status.result == .errPlen &&
      t.cur.wl == 0 && t.cur.hl == 0) = true := by decide

/-- Pixel 0 of the 3 by 1 walk: (0x00, 0x01, 0xFF, 0xFF) becomes (0x01, 0x00, 0xFF, 0xFF). -/
theorem test_encStep_payload :
    gives (exec .encStep (withMove { tight 0 0 with
        image := { w := 3, h := 1, mem := [(1, 0x01), (2, 0xFF), (3, 0xFF)] } } .wait))
      (fun t => t.image.pixRead 0 0 == ⟨0x01, 0x00, 0xFF, 0xFF⟩ && t.enc.i == 3 && t.cur.x == 1 &&
        t.status.result == .ok) = true := by decide

/-- Pixel 2 of it: bits 6 and 7 into R and G, B untouched, then ENC_DONE. -/
theorem test_encStep_last :
    gives (exec .encStep { tight 2 6 with
        image := { w := 3, h := 1, mem := [(8, 0x20), (9, 0x21), (10, 0xFD), (11, 0xFF)] } })
      (fun t => t.image.pixRead 2 0 == ⟨0x20, 0x21, 0xFD, 0xFF⟩ && t.enc.i == 8 &&
        t.status.word == 0x00030801) = true := by decide

/-- The payload ends inside the image: EPH becomes PADDING and ENC_RUN keeps BUSY. -/
theorem test_encRun :
    gives (exec .encRun (payloadAt 1 1 15)) (fun t => t.status.eph == .padding && t.status.busy &&
      t.enc.i == 16 && t.cur.x == 2) = true ∧
    gives (exec .encRun (paddingAt 3 2)) (fun t => t.status.eph == .done && !t.status.busy &&
      t.status.exh && t.env.draws == 3) = true := by decide

/-! Decoder, 95_test_vectors.md E6, 2.5, 2.7. -/

theorem test_decStart :
    gives (exec .decStart (launch 0 3 0)) (fun t => t.status.dph == .error &&
      t.status.result == .errEmpty) = true ∧
    gives (exec .decStart (launch 1 1 0)) (fun t => t.status.word == 0x00100000) = true := by decide

/-- E6: one feed per branch of the table. -/
theorem test_decFeed_branches :
    gives (exec (.decFeed true true true) (decodeAt 0 0 (acc 3 1 0 0 0)))
      (fun t => t.dec == acc 6 0x0F 0 0 0) = true ∧
    gives (exec (.decFeed false false true) (decodeAt 0 0 (acc 6 0x0F 0 0 0)))
      (fun t => t.dec == acc 8 0x3C 1 1 0) = true ∧
    gives (exec (.decFeed true true false) (decodeAt 0 0 (acc 7 0x52 0 0 0)))
      (fun t => t.dec == acc 8 0xA5 2 2 0) = true ∧
    gives (exec (.decFeed false true false) (decodeAt 0 0 (acc 8 0x3C 1 1 0)))
      (fun t => t.dec == acc 4 0x0A 0 0 1 && t.mbuf == [(0, 0x3C)]) = true := by decide

/-- E6 and 2.7: the terminator, compared before the bound; the bound. -/
theorem test_decFeed_ends :
    gives (exec (.decFeed false false false) (decodeAt 0 0 (acc 8 0xA5 2 2 16)))
      (fun t => t.dec == acc 8 0xA5 2 2 16 && t.status.word == 0x00200002) = true ∧
    gives (exec (.decFeed false false false) (decodeAt 0 0 (acc 8 0 2 0 16)))
      (fun t => t.status.result == .errMbufOverflow && t.status.dph == .error) = true := by decide

/-- 2.5 and 2.7: the final pixel ends NOTFOUND, with MLEN 0 after the append. -/
theorem test_decStep :
    gives (exec .decStep { decodeAt 3 2 (acc 8 0x3C 1 1 0) with cmdr := 0 })
      (fun t => t.status.result == .errNotFound && t.status.dph == .notFound && t.dec.mlen == 0 &&
        t.mbuf == [(0, 0x3C)] && t.status.exh) = true := by decide

theorem test_decRun : gives (exec .decRun (decodeAt 0 0 (acc 0 0 0 0 0)))
    (fun t => t.status.busy && t.dec.accLen == 3 && t.cur.x == 1) = true := by decide

/-! Control, 95_test_vectors.md 2.6. -/

theorem test_nop : gives (exec .nop { base with status := { base.status with result := .errLength } })
    (fun t => t == base) = true := by decide

theorem test_softReset : gives (exec .softReset { withByte 0x16 with
      status := { base.status with eph := .error, drop := true } })
    (fun t => t == withByte 0x16) = true := by decide

/-! The table's word as the first command after reset. -/

theorem test_fetchWord :
    gives (step (State.reset.withFetchWord 32 0x040000B4)) (fun t => t.bu.b == 0xB4) = true ∧
    decodeTableWord 32 0xAC000004 = some (.decFeed false false true) := by decide

/-! Scripts (30_encoding.md R101, R102). -/

theorem test_script_lines :
    assemble "SEQ_BITS \"10110\" ; = SEQ_LOAD 5, 0x16" = some [.write 0 32 0x1C050016#32] ∧
    assemble "FEED \"001\"\nWAIT" = some [.write 0 32 0xAC000004#32, .wait] ∧
    assemble "WR PBUF[1], 0b101\nRD MLEN" =
      some [.write 0x10000004#32 32 5, .read 0x04C#32 32] := by decide

theorem test_script_payload :
    assemble "LOAD_PAYLOAD 1, 2, 3, 4, 0x3C" =
      some [.write 0x03C#32 32 5, .write 0x10000000#32 32 0x04030201, .write 0x10000004#32 32 0x3C] ∧
    assemble "BYTE_NEW 256" = none := by decide

/-! Witnesses. Each theorem gives values that meet every hypothesis of the statement it is named for; where the
statement has several clauses, values for each, at the ends of the clause's range. -/

/-- The payload walk's first, fifth and last payload pixels, and two padding pixels, meet the invariant. -/
theorem inv_payload : (payloadAt 0 0 0).Inv ∧ (payloadAt 0 1 12).Inv ∧ (payloadAt 1 1 15).Inv := by
  refine ⟨?_, ?_, ?_⟩ <;> constructor <;> first | decide | (constructor <;> decide)

theorem inv_padding : (paddingAt 2 1).Inv ∧ (paddingAt 3 2).Inv := by
  refine ⟨?_, ?_⟩ <;> constructor <;> first | decide | (constructor <;> decide)

theorem inv_tight : (tight 2 6).Inv := by
  constructor <;> first | decide | (constructor <;> decide)

/-- Decode walks: fresh, with a partial byte, with a complete byte, with the terminator, with MBUF full. -/
theorem inv_decode : (decodeAt 0 0 (acc 0 0 0 0 0)).Inv ∧ (decodeAt 1 0 (acc 7 0x52 0 0 0)).Inv ∧
    (decodeAt 1 0 (acc 8 0x3C 1 1 0)).Inv ∧ (decodeAt 1 0 (acc 8 0xA5 2 2 0)).Inv ∧
    (decodeAt 3 2 (acc 3 1 0 0 0)).Inv := by
  refine ⟨?_, ?_, ?_, ?_, ?_⟩ <;> constructor <;> first | decide | (constructor <;> decide)

/-- A decode walk whose MBUF of one byte is full. -/
def fullMbuf (d : Decoder) : State :=
  { decodeAt 1 0 d with params := ⟨0xA5, 8, 1, 1, by decide⟩, mbuf := [(0, 0x3C)] }

theorem inv_fullMbuf : (fullMbuf (acc 8 0 2 0 1)).Inv ∧ (fullMbuf (acc 8 0xA5 2 2 1)).Inv := by
  refine ⟨?_, ?_⟩ <;> constructor <;> first | decide | (constructor <;> decide)

theorem test_hyp_DecodeOfEncodeIsTheCommand :
    Instr.wf (.seqLoad 0 0xFFFF) = true ∧ Instr.wf (.seqLoad 16 0xFFFF) = true := by decide

theorem test_hyp_EncodeOfDecodeIsTheWord : decode 0x1C10FFFF = .ok (.seqLoad 16 0xFFFF) := rfl

/-- Clause 1 both ways, clause 2, and a row that matches a word for clause 3. -/
theorem test_hyp_LegalWordsAreTheOpcodeMap :
    decode 0x1C100000 = .ok (.seqLoad 16 0) ∧ decode 0x1C110000 = .error .seqLength ∧
    (∃ r ∈ opcodeRows, (0x48FFFFFF : Word) &&& r.mask = r.matchWord ∧ r.mnemonic = "CUR_IN_BOUNDS_X") := by
  refine ⟨rfl, rfl, by decide⟩

/-- The ends of the reserved OP ranges, a reserved bit of each format, LEN = 17. -/
theorem test_hyp_IllegalWordsChangeOnlyResultAndBusy :
    (([0x2C000000, 0x3FFFFFFF, 0x54000000, 0x7FFFFFFF, 0x8C000000, 0x9FFFFFFF, 0xB0000000, 0xFBFFFFFF,
      0x00000001, 0x04000100, 0x08000002, 0x1C200000, 0x49000000, 0xAC000008, 0x1C110000] : List Word).all
        (fun w => gives (step (issued (withByte 0x77) w))
          (fun t => t == { issued (withByte 0x77) w with
            status := { State.reset.status with result := .errIllegal } }))) = true ∧
    gives (step (withMove (issued base 0x2C000000) .pass))
      (fun t => t.status.result == .errIllegal && t.env.moves == []) = true ∧
    gives (step (withMove (issued base 0x2C000000) .wait))
      (fun t => t.status.result == .errIllegal && t.env.moves == [.wait]) = true := by decide

theorem test_hyp_StepRunsTheDecodedCommand :
    (∃ s : State, s.status.busy = true ∧ decode s.cmdr = .ok .nop ∧ s.env.moves = []) ∧
    (∃ s : State, s.status.busy = true ∧ decode s.cmdr = .ok .nop ∧ s.env.moves = [.pass]) ∧
    (∃ s : State, s.status.busy = true ∧ decode s.cmdr = .ok .nop ∧ s.env.moves = [.wait]) ∧
    (∃ s : State, s.status.busy = false ∧ s.env.moves = []) :=
  ⟨⟨issued base 0, rfl, rfl, rfl⟩, ⟨withMove (issued base 0) .pass, rfl, rfl, rfl⟩,
    ⟨withMove (issued base 0) .wait, rfl, rfl, rfl⟩, ⟨base, rfl, rfl⟩⟩

/-- 95_test_vectors.md 2.6: accepted while idle, dropped while an ENC_RUN is in progress. -/
theorem test_hyp_CommandWriteIssuesOrDrops :
    gives (step (withMove base (.write 0x000 32 0x04000007)))
      (fun t => t.cmdr == 0x04000007 && t.status.busy) = true ∧
    gives (step (withMove (payloadAt 0 0 0) (.write 0x000 32 0xFC000000)))
      (fun t => t.cmdr == 0x88000000 && t.status.drop && t.status.busy) = true := by decide

/-- The first and the last register, the four UNSPEC registers, and BYTE once it is set. -/
theorem test_hyp_RegisterReadsFollowTheMap :
    gives (step (withMove base (.read 0x000 32))) (fun t => t.env.rdata == some 0) = true ∧
    gives (step (withMove (decodeAt 0 0 (acc 8 0x3C 1 1 5)) (.read 0x04C 32)))
      (fun t => t.env.rdata == some 5) = true ∧
    gives (step (withMove (decodeAt 0 0 (acc 8 0x3C 1 1 5)) (.read 0x048 32)))
      (fun t => t.env.rdata == some 0x583C) = true ∧
    gives (step (withMove (withByte 0xB4) (.read 0x008 32))) (fun t => t.env.rdata == some 0xB4) = true ∧
    (([0x008, 0x00C, 0x010, 0x014] : List Word).all
      (fun a => gives (step (withMove base (.read a 32))) (fun t => t.env.rdata.isSome))) = true ∧
    (withByte 0xB4).observe.registers.take 4 =
      [(0x000, some 0), (0x004, some 0), (0x008, some 0xB4), (0x00C, none)] := by decide

/-- Window words 0 and 3 of 14-byte buffers: lanes 12 and 13 hold, lanes 14 and 15 read 0. -/
theorem test_hyp_BufferWindowReadsGiveTheBytes :
    gives (step (withMove { base with params := params14, pbuf := [(0, 1), (1, 2), (2, 3), (3, 4)] }
      (.read 0x10000000 32))) (fun t => t.env.rdata == some 0x04030201) = true ∧
    gives (step (withMove { base with params := params14, pbuf := [(12, 1), (13, 2)] }
      (.read 0x1000000C 32))) (fun t => t.env.rdata == some 0x00000201) = true ∧
    gives (step (withMove { base with
        params := params14, mbuf := [(12, 1), (13, 2)], dec := acc 0 0 0 0 14 }
      (.read 0x2000000C 32))) (fun t => t.env.rdata == some 0x00000201) = true := by decide

theorem test_hyp_PbufWritesStoreTheirLanes :
    gives (step (withMove { base with params := params14 } (.write 0x10000000 32 0x44332211)))
      (fun t => t.pbuf == [(0, 0x11), (1, 0x22), (2, 0x33), (3, 0x44)]) = true ∧
    gives (step (withMove { base with params := params14 } (.write 0x1000000C 32 0x44332211)))
      (fun t => t.pbuf == [(12, 0x11), (13, 0x22)]) = true := by decide

/-- WIDTH and HEIGHT keep 8 bits (COORD_BITS), PLEN and STR keep 32. -/
theorem test_hyp_HostWritesToRegisters :
    gives (step (withMove base (.write 0x018 32 0x1FF))) (fun t => t.regs.width == 0xFF) = true ∧
    gives (step (withMove base (.write 0x01C 32 0x100))) (fun t => t.regs.height == 0) = true ∧
    gives (step (withMove base (.write 0x03C 32 0xFFFFFFFF))) (fun t => t.regs.plen == 0xFFFFFFFF) = true ∧
    gives (step (withMove base (.write 0x010 32 0x31))) (fun t => t.bu.str0 == 0x31 && t.bu.str0Set) = true ∧
    gives (step (withMove base (.write 0x014 32 0x32))) (fun t => t.bu.str1 == 0x32 && t.bu.str1Set) = true := by
  decide

/-- The first reserved address, the ones at the ends of the windows, the last of the address space; the
first and last read-only registers; the first and last MBUF word. -/
theorem test_hyp_ReservedAndReadOnlyAddresses :
    (([0x050, 0x0FFFFFFC, 0x10000010, 0x1FFFFFFC, 0x20000010, 0xFFFFFFFC] : List Word).all
      (fun a => gives (step (withMove base (.read a 32))) (fun t => t.env.rdata == some 0) &&
        gives (step (withMove base (.write a 32 0xFFFFFFFF))) (fun t => t == base))) = true ∧
    (([0x004, 0x04C, 0x20000000, 0x2000000C] : List Word).all
      (fun a => gives (step (withMove base (.write a 32 0xFFFFFFFF))) (fun t => t == base))) = true := by
  decide

theorem test_hyp_UnalignedHostAccessIsRefused :
    ((0x10000001#32).toNat % 4 ≠ 0 ∨ 32 ≠ 32) ∧ ((0x004#32).toNat % 4 ≠ 0 ∨ 8 ≠ 32) ∧
    (withMove base (.read 0x10000001 32)).env.moves = .read 0x10000001 32 :: [] ∧
    (withMove base (.write 0x004 8 0)).env.moves = .write 0x004 8 0 :: [] := by decide

/-- Each move during a walk, and each between walks, the pixel accesses at the image's last pixel. -/
theorem test_hyp_ImageLayerMovesOnlyBetweenWalks :
    (([.putPixel 0 0 ⟨1, 2, 3, 4⟩, .getPixel 0 0, .openImage 2 2] : List Move).all
      (fun m => faults (step (withMove (payloadAt 0 0 0) m)) .noPixelMove)) = true ∧
    gives (step (withMove base (.openImage 2 3))) (fun t => t.image == ⟨2, 3, []⟩) = true ∧
    gives (step (withMove (at_ 4 3 0 0) (.putPixel 3 2 ⟨1, 2, 3, 4⟩)))
      (fun t => t.image.pixRead 3 2 == ⟨1, 2, 3, 4⟩) = true ∧
    gives (step (withMove (at_ 4 3 0 0) (.getPixel 3 2)))
      (fun t => t.env.pixOut == some ⟨0, 0, 0, 0⟩) = true ∧
    faults (step (withMove (at_ 4 3 0 0) (.getPixel 4 2))) (.pixelOutsideImage 4 2) = true ∧
    faults (step (withMove (at_ 4 3 0 0) (.putPixel 3 3 ⟨1, 2, 3, 4⟩))) (.pixelOutsideImage 3 3) = true := by
  decide

/-- Its last premise: an idle machine with no move left has an exclusive pixel buffer. -/
theorem test_hyp_ImageLayerMovesOnlyBetweenWalks_exclusive : base.exclusive :=
  State.exclusive_of_idle rfl rfl

/-- The launch premises of R325 can all hold together: one payload byte, a 2×2 image. -/
theorem test_launch :
    let s : State := { base with
      regs := { width := 2, height := 2, plen := 1 }
      image := { w := 2, h := 2, mem := [] }
      pbuf := [(0, 0x41)] }
    EncodeLaunch 1 2 2 s where
  noFault := rfl
  idle := rfl
  noDrop := rfl
  dims := ⟨rfl, rfl, by decide, by decide, rfl, rfl⟩
  exclusive := State.exclusive_of_idle rfl rfl
  payload := ⟨by intro j hj; obtain rfl : j = 0 := by omega
                 rfl, rfl⟩

/-- A reset in the middle of a walk. -/
theorem test_hyp_ResetLoadsTheResetValues :
    gives (step (withMove (payloadAt 1 1 15) .reset))
      (fun t => t.status.word == 0 && t.enc == ⟨0, 0, 0⟩ && t.pbuf == []) = true := by decide

theorem test_hyp_EveryStepKeepsTheInvariant :
    ∃ s t : State, s.Inv ∧ step s = .next t ∧ t ≠ s :=
  ⟨payloadAt 0 0 0, _, inv_payload.1, rfl, by decide⟩

theorem test_hyp_TermIsHardwired :
    gives (step (withMove base (.read 0x038 32))) (fun t => t.env.rdata == some 0xA5) = true ∧
    gives (step (withMove base (.write 0x038 32 0x5A))) (fun t => t.params.terminator == 0xA5) = true := by
  decide

/-- The word of NOP meets the premise of the last clause. -/
theorem test_hyp_NopSetsResultOk (s : State) (hb : s.status.busy = true) (hm : s.env.moves = [])
    (hc : s.cmdr = 0) : step s = .next { s with status := ended s.status .ok } := by
  have hd : decode s.cmdr = .ok .nop := by rw [hc]; rfl
  simp only [step, machineStep, hm, sequencerTurn, hb, seqStep, hd]
  rfl

/-- SOFT_RESET during an ENC_RUN is dropped. -/
theorem test_hyp_SoftResetClearsTheWalkState :
    gives (step (withMove (payloadAt 0 0 0) (.write 0x000 32 0xFC000000)))
      (fun t => t.status.drop && t.status.busy && t.status.eph == .payload) = true := by decide

/-- The word of each format N command of a WordN clause, and one with bit 0 set. -/
theorem test_hyp_WordN : (([0x00, 0x03, 0x04, 0x05, 0x06, 0x08, 0x09, 0x10, 0x11, 0x14, 0x20, 0x21, 0x22, 0x28,
    0x29, 0x2A, 0x3F] : List (BitVec 6)).all (fun op => (decoded (op ++ 0#26)).isSome &&
      decoded (op ++ 1#26) == none && opField (op ++ 1#26) == op)) = true := by decide

theorem test_hyp_WordOperands :
    decoded 0x040000FF = some (.byteNew 0xFF) ∧ decoded 0x04000100 = none ∧
    decoded 0x280000FF = some (.byteCmp 0xFF) ∧ decoded 0x2A000000 = none ∧
    decoded 0x08000001 = some (.byteStoreBit true) ∧ decoded 0x0A000000 = none ∧
    decoded 0x4CFFFFFF = some (.curInBoundsY 0xFFFFFF) ∧ decoded 0x4D000000 = none ∧
    decoded 0xAC000007 = some (.decFeed true true true) ∧ decoded 0xAE000000 = none := by decide

theorem test_hyp_ByteStoreBitReplacesTheLsb : (withByte 0xFF).bu.bSet = true := by decide

theorem test_hyp_ByteToSeqHoldsTheBits : (withByte 0xB4).bu.bSet = true := by decide

/-- Lengths 0, 8, 9 and 16. -/
theorem test_hyp_SequencesFoldIntoTheByte :
    (([[], [true, false, true, true, false, true, false, false],
      [true, true, true, true, true, true, true, true, true],
      List.replicate 16 true] : List (List Bool)).all (fun l =>
        let s := withSeq (BitVec.ofNat 5 l.length) (BitVec.ofNat 16 (fold l))
        s.bu.seqSet && s.bu.seqLen.toNat == l.length && s.bu.seqV.toNat == fold l)) = true := by decide

theorem test_hyp_SeqLoadHoldsTheSequence :
    opField 0x1C10FFFF = 0x07#6 ∧ opField 0x1C110000 = 0x07#6 ∧ (16#5).toNat ≤ 16 ∧
    (List.replicate 16 true).length ≤ 16 := by decide

/-- The eight digits of 0xB4, and a string whose last character is the code 0. -/
theorem test_hyp_BinaryStringsBecomeTheByte :
    (∀ j, j < 8 → (if j < 4 then lane (withStr 0x31313031 0x30303130).bu.str0 j
        else lane (withStr 0x31313031 0x30303130).bu.str1 (j - 4)) =
      if [true, false, true, true, false, true, false, false].getD j false then 0x31#8 else 0x30#8) ∧
    lane (withStr 0x30303030 0x00303030).bu.str1 3 = 0x00#8 ∧
    (withStr 0 0).bu.str0Set = true ∧ (withStr 0 0).bu.str1Set = true := by decide

theorem test_hyp_ByteBecomesItsBinaryString :
    gives (exec .byteToStr (withByte 0xFF)) (fun t => t.bu.str0 == 0x31313131 &&
      gives (exec .byteFromStr t) (fun u => u == t)) = true := by decide

theorem test_hyp_ByteCmpComparesUnsigned : (withByte 0xFF).bu.bSet = true := by decide

/-- A command that reads a written register, one that reads an UNSPEC one, one that reads none. -/
theorem test_hyp_ByteCommandsFrame : isByteCommand .byteToSeq = true ∧ isByteCommand (.byteNew 0) = true ∧
    gives (exec .byteToSeq (withByte 0)) (fun _ => true) = true ∧
    gives (exec .byteToSeq base) (fun _ => true) = true ∧
    gives (exec (.byteNew 0) base) (fun _ => true) = true := by decide

/-- Each clause with its register UNSPEC; a record that stays; a writer of each register
(70_reset_and_hazards.md R324); a length error leaves BYTE UNSPEC (40_byte_unit.md R135). -/
theorem test_hyp_UnspecReadsAreRecorded :
    (([.byteStoreBit true, .byteStoreRandomBit, .byteToSeq, .byteToStr, .byteCmp 0] : List Instr).all
      (fun i => gives (exec i base) (fun t => t.unspecRead == some .byte))) = true ∧
    (([.byteFromSeq, .byteFromSeqBounded] : List Instr).all
      (fun i => gives (exec i (withByte 0)) (fun t => t.unspecRead == some .seq))) = true ∧
    gives (exec .byteFromStr (base.putStr1 0)) (fun t => t.unspecRead == some .str0) = true ∧
    gives (exec .byteFromStr (base.putStr0 0)) (fun t => t.unspecRead == some .str1) = true ∧
    gives (exec .byteToSeq { base with unspecRead := some .str1 })
      (fun t => t.unspecRead == some .str1) = true ∧
    gives (exec .byteFromSeq (base.putSeq 0x3C 8)) (fun t => t.bu.bSet && t.unspecRead == none) = true ∧
    gives (exec .byteFromSeq (base.putSeq 0x3C 7)) (fun t => !t.bu.bSet) = true ∧
    gives (exec (.seqLoad 0 0) base) (fun t => t.bu.seqSet) = true ∧
    gives (exec .byteToStr (withByte 0)) (fun t => t.bu.str0Set && t.bu.str1Set) = true := by decide

/-- 95_test_vectors.md, 40_byte_unit.md: after reset BYTE_STORE_BIT 1 is "model fault: BYTE UNSPEC"; the strict
step of a written B completes. -/
theorem test_strictStep :
    (match strictStep (base.withCommand 0x08000001) with
     | .fault f => f == .unspecRead .byte
     | _ => false) = true ∧
    (match strictStep ((withByte 0xB4).withCommand 0x08000001) with
     | .next t => t.bu.b == 0xB5
     | _ => false) = true := by decide

theorem test_hyp_CurInitLatchesTheDimensions : (launch 3 2 0).status.walkActive = false ∧
    (payloadAt 0 0 0).status.walkActive = true := by decide

/-- An empty image, the middle of a row, its end, the final coordinate. -/
theorem test_hyp_CurAdvanceIsRasterOrder :
    (paddingAt 2 1).status.walkActive = true ∧
    (at_ 0 2 0 0).status.walkActive = false ∧ (at_ 0 2 0 0).cur.wl.toNat = 0 ∧
    (at_ 3 2 1 0).cur.x.toNat + 1 < (at_ 3 2 1 0).cur.wl.toNat ∧
    (¬ (at_ 3 2 2 0).cur.x.toNat + 1 < (at_ 3 2 2 0).cur.wl.toNat ∧
      (at_ 3 2 2 0).cur.y.toNat + 1 < (at_ 3 2 2 0).cur.hl.toNat) ∧
    (¬ (at_ 3 2 2 1).cur.x.toNat + 1 < (at_ 3 2 2 1).cur.wl.toNat ∧
      ¬ (at_ 3 2 2 1).cur.y.toNat + 1 < (at_ 3 2 2 1).cur.hl.toNat) := by decide

/-- 3 by 2: call 4 is at (1, 1), call 6 finds the traversal exhausted. -/
theorem test_hyp_TraversalVisitsEveryPixelInOrder :
    1 ≤ (at_ 3 2 0 0).cur.wl.toNat ∧ 1 ≤ (at_ 3 2 0 0).cur.hl.toNat ∧
    (State.advance^[4] (at_ 3 2 0 0)).cur.x = 1 ∧ (State.advance^[4] (at_ 3 2 0 0)).cur.y = 1 ∧
    (State.advance^[6] (at_ 3 2 0 0)).status.exh = true := by decide

theorem test_hyp_InBoundsComparesWithTheLatchedDimension : (at_ 3 2 0 0).status.walkActive = false ∧
    (payloadAt 0 0 0).status.walkActive = true := by decide

theorem test_hyp_CapacityIsExact : (at_ 100 100 0 0).status.walkActive = false ∧
    (decodeAt 0 0 (acc 0 0 0 0 0)).status.walkActive = true := by decide

theorem test_hyp_CommandsOutOfPhaseGiveErrSeq :
    (isCursorCommand .curInit = true ∧ (decodeAt 0 0 (acc 0 0 0 0 0)).status.walkActive = true) ∧
    (base.status.eph ≠ .payload ∧ base.status.eph ≠ .padding) ∧ base.status.dph ≠ .running ∧
    gives (exec .curInit (decodeAt 0 0 (acc 0 0 0 0 0))) (fun t => t.status.result == .errSeq) = true := by
  decide

/-- PLEN = PBUF_MAX and PBUF_MAX + 1. -/
theorem test_hyp_EncStartChecksLengthThenCapacity :
    (launch 9 9 16).regs.plen.toNat ≤ (launch 9 9 16).params.pbufMax ∧
    (launch 9 9 17).params.pbufMax < (launch 9 9 17).regs.plen.toNat := by decide

/-- Byte 0 written, byte 0 UNSPEC, the terminator. -/
theorem test_hyp_PayloadBitsAreMostSignificantFirst :
    (7 / 8 < (payloadAt 0 0 0).enc.n.toNat ∧ Memory.read .pbuf (payloadAt 0 0 0).pbuf (7 / 8) = some 0x3C) ∧
    (0 / 8 < (payloadAt 0 0 0).enc.n.toNat ∧
      Memory.read .pbuf { payloadAt 0 0 0 with pbuf := [] }.pbuf (0 / 8) = none) ∧
    15 / 8 = (payloadAt 0 0 0).enc.n.toNat := by decide

/-- A pixel in the middle, the last payload pixel before padding, the last pixel of an exact fit. -/
theorem test_hyp_EncStepWritesThePayloadPixel :
    ((payloadAt 0 0 0).Inv ∧ (payloadAt 0 0 0).imageLatched ∧ (payloadAt 0 0 0).pbufWritten 1) ∧
    ((payloadAt 1 1 15).Inv ∧ (payloadAt 1 1 15).imageLatched ∧ (payloadAt 1 1 15).pbufWritten 1) ∧
    ((tight 2 6).Inv ∧ (tight 2 6).imageLatched ∧ (tight 2 6).pbufWritten 0) := by
  refine ⟨⟨inv_payload.1, ⟨rfl, rfl⟩, ?_⟩, ⟨inv_payload.2.2, ⟨rfl, rfl⟩, ?_⟩,
    ⟨inv_tight, ⟨rfl, rfl⟩, ?_⟩⟩ <;> unfold State.pbufWritten <;> decide

theorem test_hyp_EncStepPadsThePixel :
    ((paddingAt 2 1).Inv ∧ (paddingAt 2 1).imageLatched ∧ (paddingAt 2 1).status.eph = .padding) ∧
    ((paddingAt 3 2).Inv ∧ (paddingAt 3 2).imageLatched ∧ (paddingAt 3 2).status.eph = .padding) :=
  ⟨⟨inv_padding.1, ⟨rfl, rfl⟩, rfl⟩, ⟨inv_padding.2, ⟨rfl, rfl⟩, rfl⟩⟩

theorem test_hyp_EncRunIsEncStepWithBusyHeld :
    (∃ t, exec .encStep (payloadAt 0 0 0) = .next t) ∧ (paddingAt 2 1).Inv ∧ (paddingAt 2 1).imageLatched ∧
    (paddingAt 2 1).pbufWritten 1 :=
  ⟨⟨_, rfl⟩, inv_padding.1, ⟨rfl, rfl⟩, by unfold State.pbufWritten; decide⟩

theorem test_hyp_NoMorePixelsIsUnreachable :
    ∃ t, (payloadAt 1 1 15).Inv ∧ exec .encStep (payloadAt 1 1 15) = .next t :=
  ⟨_, inv_payload.2.2, rfl⟩

theorem test_hyp_EncodeWalkClosedForm :
    (payloadAt 0 0 0).Inv ∧ (payloadAt 0 0 0).imageLatched ∧ (payloadAt 0 0 0).pbufWritten 1 ∧
    (payloadAt 0 0 0).status.eph = .payload ∧ (payloadAt 0 0 0).enc.i = 0 ∧
    (payloadAt 0 0 0).status.busy = true ∧ (payloadAt 0 0 0).env.moves = [] ∧
    (payloadAt 0 0 0).cmdr = 0x88000000#32 :=
  ⟨inv_payload.1, ⟨rfl, rfl⟩, by unfold State.pbufWritten; decide, rfl, rfl, rfl, rfl, rfl⟩

/-- Its inner clauses: pixel 5 = (1, 1) holds bit 15 in R; its G is past the payload. -/
theorem test_hyp_EncodeWalkClosedForm_pixels :
    3 * linear 4 1 1 + 0 < 16 ∧ linear 4 1 1 < payloadPixels 16 ∧ 16 ≤ 3 * linear 4 1 1 + 1 := by decide

theorem test_hyp_EncoderCommandsFrame :
    (∃ t, exec .encStart (launch 3 1 0) = .next t) ∧ (∃ t, exec .encRun (payloadAt 0 0 0) = .next t) ∧
    (∃ t, exec .encStep (paddingAt 2 1) = .next t) := ⟨⟨_, rfl⟩, ⟨_, rfl⟩, ⟨_, rfl⟩⟩

/-- Not running; then found, overflow, a byte appended, a partial byte (with 7 bits and with none). -/
theorem test_hyp_DecFeedFollowsTheTable :
    (base.status.dph != .running) = true ∧
    (decodeAt 1 0 (acc 8 0xA5 2 2 0)).Inv ∧ (fullMbuf (acc 8 0 2 0 1)).Inv ∧
    (decodeAt 1 0 (acc 8 0x3C 1 1 0)).Inv ∧ (decodeAt 1 0 (acc 7 0x52 0 0 0)).Inv ∧
    (decodeAt 0 0 (acc 0 0 0 0 0)).Inv ∧ (decodeAt 1 0 (acc 8 0x3C 1 1 0)).status.dph = .running ∧
    (fullMbuf (acc 8 0 2 0 1)).dec.mlen.toNat = (fullMbuf (acc 8 0 2 0 1)).params.mbufMax :=
  ⟨rfl, inv_decode.2.2.2.1, inv_fullMbuf.1, inv_decode.2.2.1, inv_decode.2.1, inv_decode.1, rfl, rfl⟩

/-- Not running; the three results of feed; cont at a pixel with a successor and at the final pixel. -/
theorem test_hyp_DecStepFeedsThePixel :
    (base.status.dph != .running) = true ∧
    (decodeAt 1 0 (acc 8 0xA5 2 2 0)).feedOut = .found ∧ (fullMbuf (acc 8 0 2 0 1)).feedOut = .overflow ∧
    (decodeAt 0 0 (acc 0 0 0 0 0)).feedOut = .cont ∧ (decodeAt 3 2 (acc 3 1 0 0 0)).feedOut = .cont ∧
    (decodeAt 3 2 (acc 3 1 0 0 0)).Inv ∧ (decodeAt 3 2 (acc 3 1 0 0 0)).imageLatched ∧
    (fullMbuf (acc 8 0 2 0 1)).imageLatched ∧
    (∃ u, exec (.decFeed false false false) (decodeAt 3 2 (acc 3 1 0 0 0)) = .next u) :=
  ⟨rfl, rfl, rfl, rfl, rfl, inv_decode.2.2.2.2, ⟨rfl, rfl⟩, ⟨rfl, rfl⟩, ⟨_, rfl⟩⟩

theorem test_hyp_DecRunIsDecStepWithBusyHeld :
    (∃ t, exec .decStep (decodeAt 0 0 (acc 0 0 0 0 0)) = .next t) ∧ (decodeAt 0 0 (acc 0 0 0 0 0)).Inv ∧
    (decodeAt 0 0 (acc 0 0 0 0 0)).imageLatched := ⟨⟨_, rfl⟩, inv_decode.1, ⟨rfl, rfl⟩⟩

/-- Three triplets of 95_test_vectors.md P5 from a fresh start: 0x3C is complete, one bit spills. -/
theorem test_hyp_FedBitsAreReassembled :
    (feedAll [(false, false, true), (true, true, true), (false, false, true), (false, true, false)]
      (decodeAt 0 0 (acc 0 0 0 0 0))).map (fun t => (t.dec, t.mbuf)) =
        some (acc 4 0x0A 0 0 1, [(0, 0x3C)]) := by decide

/-- An image of 4 by 1 pixels whose LSBs hold the terminator alone: 1,0,1, 0,0,1, 0,1. -/
def messageImage : State :=
  { decodeAt 0 0 (acc 0 0 0 0 0) with
    cur := { x := 0, y := 0, wl := 4, hl := 1, cap := 0 }
    image := { w := 4, h := 1, mem := [(0, 1), (2, 1), (6, 1), (9, 1)] } }

theorem test_hyp_EmbeddedMessageIsRecovered :
    messageImage.Inv ∧ messageImage.imageLatched ∧ messageImage.status.dph = .running ∧
    messageImage.dec = acc 0 0 0 0 0 ∧ messageImage.status.busy = true ∧ messageImage.env.moves = [] ∧
    messageImage.cmdr = 0xA8000000#32 ∧ ([] : List Byte).length ≤ messageImage.params.mbufMax ∧
    payloadPixels (payloadBits 0) + 1 ≤ messageImage.cur.wl.toNat * messageImage.cur.hl.toNat := by
  refine ⟨?_, ⟨rfl, rfl⟩, rfl, rfl, rfl, rfl, rfl, by decide, by decide⟩
  constructor <;> first | decide | (constructor <;> decide)

/-- The premises on the message: no byte, the terminator at j = 0; and one byte equal to it, at j = 0. -/
theorem test_hyp_EmbeddedMessageIsRecovered_message :
    (([] : List Byte) ++ [0xA5])[0]? = some 0xA5 ∧ (0xA5 : Byte) ∉ ([] : List Byte).take 0 ∧
    (([0xA5] : List Byte) ++ [0xA5])[0]? = some 0xA5 ∧ (0xA5 : Byte) ∉ ([0xA5] : List Byte).take 0 ∧
    (([0x3C] : List Byte) ++ [0xA5])[1]? = some 0xA5 ∧ (0xA5 : Byte) ∉ ([0x3C] : List Byte).take 1 := by
  decide

/-- Its last premise, for the three pixels that hold bits (the fourth holds none); and with the message that
is the terminator, for the bits of it that the four pixels hold, 1,0,1,0 after the first eight. -/
theorem test_hyp_EmbeddedMessageIsRecovered_bits :
    ((List.range 8).all (fun i =>
      lsb (channel (messageImage.image.pixRead (BitVec.ofNat 24 (i / 3)) 0) (i % 3)) ==
        flatBit [] 0xA5 i)) = true ∧
    ((List.range 12).all (fun i =>
      lsb (channel (({ w := 4, h := 1, mem :=
        [(0, 1), (2, 1), (6, 1), (9, 1), (10, 1), (13, 1)] } : Image).pixRead (BitVec.ofNat 24 (i / 3)) 0)
          (i % 3)) == flatBit [0xA5] 0xA5 i)) = true := by decide

theorem test_hyp_DecoderCommandsFrame :
    (∃ t, exec .decStart (launch 1 1 0) = .next t) ∧
    (∃ t, exec (.decFeed true true true) (decodeAt 0 0 (acc 8 0x3C 1 1 0)) = .next t) ∧
    (∃ t, exec .decRun (decodeAt 0 0 (acc 8 0x3C 1 1 0)) = .next t) := ⟨⟨_, rfl⟩, ⟨_, rfl⟩, ⟨_, rfl⟩⟩

/-- Of each clause an instruction it speaks of: of the flags, of IB, of EXH, of DROP. -/
theorem test_hyp_OnlyTheNamedCommandsWriteFlags :
    (∃ t, exec .curInit (launch 3 2 0) = .next t) ∧ (∃ t, exec (.byteCmp 0) (withByte 0) = .next t) ∧
    writesExh .byteToStr = false ∧ (∃ t, exec .byteToStr (withByte 0) = .next t) :=
  ⟨⟨_, rfl⟩, ⟨_, rfl⟩, rfl, ⟨_, rfl⟩⟩

/-- An ended walk leaves its phase by DEC_START and by the reset input. -/
theorem test_hyp_EndedWalksStayEnded :
    gives (step (issued { launch 2 2 0 with status := { base.status with eph := .done } } 0xA0000000))
      (fun t => t.status.eph == .idle) = true ∧
    gives (step (issued { launch 2 2 0 with status := { base.status with dph := .found } } 0xA0000000))
      (fun t => t.status.dph == .running) = true ∧
    gives (step (withMove { base with status := { base.status with dph := .notFound } } .reset))
      (fun t => t.status.dph == .idle) = true := by decide

theorem test_hyp_CommandsChangeOnlyLsbs :
    Memory.wf .pixels (payloadAt 0 0 0).image.mem = true ∧
    gives (exec .encStep (payloadAt 0 1 12)) (fun t => t.image != (payloadAt 0 1 12).image) = true := by
  decide

/-- The draws of a padding step and of BYTE_STORE_RANDOM_BIT; an append to MBUF. -/
theorem test_hyp_DrawsAndBufferWritesByCommand :
    gives (exec .encStep (paddingAt 2 1)) (fun t => t.env.draws == 3) = true ∧
    gives (exec .byteStoreRandomBit (withByte 0)) (fun t => t.env.draws == 1) = true ∧
    gives (exec .decRun (decodeAt 0 0 (acc 8 0x3C 1 1 0))) (fun t => t.mbuf != []) = true := by decide

theorem test_hyp_RunsVisitOnePixelAStep :
    (∃ t, (payloadAt 0 0 0).Inv ∧ exec .encRun (payloadAt 0 0 0) = .next t ∧ t.status.busy = true) ∧
    (∃ t, (decodeAt 0 0 (acc 0 0 0 0 0)).Inv ∧ exec .decRun (decodeAt 0 0 (acc 0 0 0 0 0)) = .next t ∧
      t.status.busy = true) := ⟨⟨_, inv_payload.1, rfl, rfl⟩, ⟨_, inv_decode.1, rfl, rfl⟩⟩

/-- The premise with each of the five commands. -/
theorem test_hyp_WalkStepsIgnoreUnlatchedRegisters :
    (∃ t, exec .encStep (payloadAt 0 0 0) = .next t) ∧ (∃ t, exec .encRun (paddingAt 2 1) = .next t) ∧
    (∃ t, exec .decStep (decodeAt 0 0 (acc 0 0 0 0 0)) = .next t) ∧
    (∃ t, exec .decRun (decodeAt 0 0 (acc 0 0 0 0 0)) = .next t) ∧
    (∃ t, exec (.decFeed true true true) (decodeAt 0 0 (acc 0 0 0 0 0)) = .next t) :=
  ⟨⟨_, rfl⟩, ⟨_, rfl⟩, ⟨_, rfl⟩, ⟨_, rfl⟩, ⟨_, rfl⟩⟩

/-- A walk of two bytes at bit 6: the step needs bits 6 and 7 of byte 0 and bit 8, of byte 1, which is not
written. -/
def straddle : State :=
  { payloadAt 2 0 6 with enc := { i := 6, l := 24, n := 2 } }

/-- Each clause: the two coordinates outside the open image; an unwritten byte at the pixel's first bit, and at
its last; a command that takes no walk step; a state that meets the premises of the last
clause (with test_hyp_EncStepWritesThePayloadPixel). -/
theorem test_hyp_CommandsStopOnlyByName :
    faults (exec .encStep { payloadAt 3 2 0 with image := { w := 3, h := 3, mem := [] } })
      (.pixelOutsideImage 3 2) = true ∧
    faults (exec .decStep { decodeAt 3 2 (acc 0 0 0 0 0) with image := { w := 3, h := 3, mem := [] } })
      (.pixelOutsideImage 3 2) = true ∧
    faults (exec .encStep { payloadAt 0 0 0 with pbuf := [] }) (.pbufUnspec 0) = true ∧
    faults (exec .encStep straddle) (.pbufUnspec 1) = true ∧
    (6 ≤ 8 ∧ 8 < straddle.enc.i.toNat + min (straddle.enc.l.toNat - straddle.enc.i.toNat) 3) ∧
    isPixelCommand .nop = false ∧ isPixelCommand .byteToStr = false := by decide

theorem inv_straddle : straddle.Inv := by
  constructor <;> first | decide | (constructor <;> decide)

end Sys2Proof.Tests
end

section
/-! SUPPORT. The invariant in three parts, each a predicate over the components it speaks of, so that an update
which leaves those components alone keeps the part by definition. -/

namespace Sys2Proof.Machine

/-- What the invariant says of the stored registers and of the memories no command appends to: SEQ (10_state.md
R30), WIDTH and HEIGHT (R26), PBUF and the image. -/
structure StoreInv (p : Params) (seqV : BitVec 16) (seqLen : BitVec 5) (width height : Coord)
    (pbuf image : Memory) : Prop where
  seqV : seqV.toNat < 2 ^ seqLen.toNat
  seqLen : seqLen.toNat ≤ 16
  width : width.toNat < 2 ^ p.coordBits
  height : height.toNat < 2 ^ p.coordBits
  pbuf : Memory.wf .pbuf pbuf = true
  image : Memory.wf .pixels image = true

/-- What the invariant says of the cursor, the encoder and the two phases (10_state.md R33, R34, R36, R44). -/
structure WalkInv (p : Params) (c : Cursor) (e : Encoder) (exh : Bool) (eph : EncPhase) (dph : DecPhase) :
    Prop where
  cursor : c.Inv p exh
  encoder : e.Inv c p.pbufMax eph
  oneWalk : ¬ (eph.active = true ∧ dph.active = true)
  walkDims : (eph.active || dph.active) = true → c.empty = false

/-- What the invariant says of the decoder and the recovered message (10_state.md R41, R42, R44). -/
structure MessageInv (p : Params) (d : Decoder) (mbuf : Memory) (dph : DecPhase) : Prop where
  decoder : d.Inv p.mbufMax
  notFound : dph = .notFound → d.mlen = 0
  message : ∀ k, k < d.mlen.toNat → (Memory.read .mbuf mbuf k).isSome = true
  mbuf : Memory.wf .mbuf mbuf = true

/-- The stored registers' part, of a state. -/
def State.StoreInv (s : State) : Prop :=
  Machine.StoreInv s.params s.bu.seqV s.bu.seqLen s.regs.width s.regs.height s.pbuf s.image.mem

/-- The walks' part, of a state. -/
def State.WalkInv (s : State) : Prop :=
  Machine.WalkInv s.params s.cur s.enc s.status.exh s.status.eph s.status.dph

/-- The message's part, of a state. -/
def State.MessageInv (s : State) : Prop := Machine.MessageInv s.params s.dec s.mbuf s.status.dph

/-- The invariant is its three parts. -/
theorem State.inv_iff (s : State) : s.Inv ↔ s.StoreInv ∧ s.WalkInv ∧ s.MessageInv :=
  ⟨fun h => ⟨⟨h.seqV, h.seqLen, h.width, h.height, h.pbuf, h.image⟩,
      ⟨h.cursor, h.encoder, h.oneWalk, h.walkDims⟩, ⟨h.decoder, h.notFound, h.message, h.mbuf⟩⟩,
    fun ⟨a, w, m⟩ => ⟨a.seqV, a.seqLen, a.width, a.height, w.cursor, w.encoder, m.decoder, w.oneWalk,
      w.walkDims, m.notFound, m.message, a.pbuf, m.mbuf, a.image⟩⟩

/-! SEQ, WIDTH, HEIGHT, PBUF, the image. -/

theorem StoreInv.putSeq {p : Params} {v v' : BitVec 16} {l l' : BitVec 5} {w h : Coord} {pb im : Memory}
    (hs : StoreInv p v l w h pb im) (hv : v'.toNat < 2 ^ l'.toNat) (hl : l'.toNat ≤ 16) :
    StoreInv p v' l' w h pb im :=
  { hs with seqV := hv, seqLen := hl }

theorem StoreInv.putImage {p : Params} {v : BitVec 16} {l : BitVec 5} {w h : Coord} {pb im im' : Memory}
    (hs : StoreInv p v l w h pb im) (hm : Memory.wf .pixels im' = true) : StoreInv p v l w h pb im' :=
  { hs with image := hm }

/-! The cursor. -/

theorem Cursor.empty_eq_false {c : Cursor} : c.empty = false ↔ 1 ≤ c.wl.toNat ∧ 1 ≤ c.hl.toNat := by
  have key : ∀ d : Coord, d ≠ 0 ↔ 1 ≤ d.toNat := fun d => by
    rw [Ne, ← BitVec.toNat_inj]; simp; omega
  simp [Cursor.empty, ← key]

theorem Cursor.Inv.inside_of_not_empty {p : Params} {c : Cursor} {exh : Bool} (h : c.Inv p exh)
    (hne : c.empty = false) : c.x.toNat < c.wl.toNat ∧ c.y.toNat < c.hl.toNat := by
  obtain ⟨h1, h2⟩ := Cursor.empty_eq_false.mp hne
  exact h.inside h1 h2

/-- A cursor in the origin of an image whose dimensions fit. -/
theorem Cursor.Inv.origin {p : Params} {c : Cursor} (hw : c.wl.toNat < 2 ^ p.coordBits)
    (hh : c.hl.toNat < 2 ^ p.coordBits) (hx : c.x = 0) (hy : c.y = 0) : c.Inv p false where
  wl := hw
  hl := hh
  inside h1 h2 := by rw [hx, hy]; exact ⟨h1, h2⟩
  home _ := ⟨hx, hy⟩
  final h := by cases h

/-- A cursor inside its image that is exhausted has no successor. -/
theorem Cursor.Inv.next_none_of_exh {p : Params} {c : Cursor} {exh : Bool} (h : c.Inv p exh) (he : exh = true) :
    c.next = none := by
  obtain ⟨hx, hy⟩ := h.final he
  rw [Cursor.next, if_neg (by omega), if_neg (by omega)]

/-- The successor of a coordinate inside the image is inside it. -/
theorem Cursor.Inv.next {p : Params} {c d : Cursor} {exh : Bool} (h : c.Inv p exh) (hne : c.empty = false)
    (hd : c.next = some d) : d.Inv p exh := by
  obtain ⟨hx, hy⟩ := h.inside_of_not_empty hne
  obtain ⟨ew, eh, -, hin⟩ := Cursor.next_some hd
  obtain ⟨hx', hy', -⟩ := hin hx hy
  have hne' : d.empty = false := by rw [Cursor.empty, ew, eh]; exact hne
  exact ⟨ew ▸ h.wl, eh ▸ h.hl, fun _ _ => ⟨hx', hy'⟩, fun h0 => by simp [hne'] at h0,
    fun he => by rw [h.next_none_of_exh he] at hd; cases hd⟩

/-- Where there is no successor, the cursor may be marked exhausted. -/
theorem Cursor.Inv.exhausted {p : Params} {c : Cursor} {exh : Bool} (h : c.Inv p exh) (hne : c.empty = false)
    (hd : c.next = none) : c.Inv p true := by
  obtain ⟨hx, hy⟩ := h.inside_of_not_empty hne
  obtain ⟨hfx, hfy, -⟩ := Cursor.next_none hd hx hy
  exact ⟨h.wl, h.hl, h.inside, h.home, fun _ => ⟨hfx, hfy⟩⟩

/-- advance() keeps the cursor's part. -/
theorem Cursor.Inv.advance {s : State} (h : s.cur.Inv s.params s.status.exh) (hne : s.cur.empty = false) :
    s.advance.cur.Inv s.params s.advance.status.exh := by
  obtain ⟨c, hc, -, e⟩ | ⟨hc, -, e⟩ := s.advance_cases <;> rw [e]
  · exact h.next hne hc
  · exact h.exhausted hne hc

/-- The pixel advance() goes to is the next one in raster order. -/
theorem State.advance_linear {s : State} (h : s.cur.Inv s.params s.status.exh) (hne : s.cur.empty = false)
    (hok : s.advanceOk = true) :
    linear s.advance.cur.wl s.advance.cur.x s.advance.cur.y = linear s.cur.wl s.cur.x s.cur.y + 1 := by
  obtain ⟨hx, hy⟩ := h.inside_of_not_empty hne
  obtain ⟨c, hc, -, e⟩ | ⟨-, hno, -⟩ := s.advance_cases
  · rw [e]
    obtain ⟨-, -, -, hin⟩ := Cursor.next_some hc
    exact (hin hx hy).2.2
  · rw [hok] at hno; cases hno

theorem State.advance_empty (s : State) : s.advance.cur.empty = s.cur.empty := by
  obtain ⟨hw, hh⟩ := s.advance_dims
  rw [Cursor.empty, hw, hh, Cursor.empty]

/-! The encoder. -/

/-- Between walks the encoder's part says nothing of the cursor. -/
theorem Encoder.Inv.of_not_active {e : Encoder} {c : Cursor} {n : Nat} {eph : EncPhase} (ha : eph.active = false)
    (hd : eph = .done → e.i = e.l) : e.Inv c n eph where
  len h := by rw [ha] at h; cases h
  payload h := by rw [h] at ha; cases ha
  padding h := by rw [h] at ha; cases ha
  done := hd

/-- The bits of a payload pixel, `min(rem, 3)`, never reach past ENC_L: three if the payload goes on, all that
are left if it does not (42_encoder.md R203). -/
theorem Encoder.take_spec {e : Encoder} (h : e.i.toNat < e.l.toNat) :
    (BitVec.ofNat 32 (e.i.toNat + e.take)).toNat = e.i.toNat + e.take ∧
      (e.i.toNat + e.take < e.l.toNat → e.take = 3) ∧
      (¬ e.i.toNat + e.take < e.l.toNat → e.i.toNat + e.take = e.l.toNat ∧ e.take ≤ 3) := by
  have hl := e.l.isLt
  unfold Encoder.take
  refine ⟨?_, by omega, by omega⟩
  rw [BitVec.toNat_ofNat]
  omega

/-- A payload step that goes on: three bits and one pixel further. -/
theorem Encoder.Inv.payload_next {e : Encoder} {c c' : Cursor} {n : Nat} (h : e.Inv c n .payload)
    (hw : c'.wl = c.wl) (hh : c'.hl = c.hl) (hlin : linear c'.wl c'.x c'.y = linear c.wl c.x c.y + 1)
    (hlt : e.i.toNat + e.take < e.l.toNat) :
    Encoder.Inv { e with i := BitVec.ofNat 32 (e.i.toNat + e.take) } c' n .payload := by
  obtain ⟨hi, hpos⟩ := h.payload rfl
  obtain ⟨hnat, h3, -⟩ := Encoder.take_spec hi
  refine ⟨fun _ => ?_, fun _ => ?_, (fun h0 => by cases h0), fun h0 => by cases h0⟩
  · rw [hw, hh]; exact h.len rfl
  · simp only [hnat, hlin]
    have := h3 hlt
    omega

/-- The last payload step, at a pixel that is not the last: the padding begins. -/
theorem Encoder.Inv.payload_padding {e : Encoder} {c c' : Cursor} {n : Nat} (h : e.Inv c n .payload)
    (hw : c'.wl = c.wl) (hh : c'.hl = c.hl) (hlin : linear c'.wl c'.x c'.y = linear c.wl c.x c.y + 1)
    (hlt : ¬ e.i.toNat + e.take < e.l.toNat) :
    Encoder.Inv { e with i := BitVec.ofNat 32 (e.i.toNat + e.take) } c' n .padding := by
  obtain ⟨hi, hpos⟩ := h.payload rfl
  obtain ⟨hnat, -, hend⟩ := Encoder.take_spec hi
  obtain ⟨hl, h3⟩ := hend hlt
  refine ⟨fun _ => ?_, (fun h0 => by cases h0), fun _ => ⟨?_, ?_⟩, fun h0 => by cases h0⟩
  · rw [hw, hh]; exact h.len rfl
  · exact BitVec.eq_of_toNat_eq (hnat.trans hl)
  · simp only [hlin]
    omega

/-- A padding step that goes on. -/
theorem Encoder.Inv.padding_next {e : Encoder} {c c' : Cursor} {n : Nat} (h : e.Inv c n .padding)
    (hw : c'.wl = c.wl) (hh : c'.hl = c.hl) (hlin : linear c'.wl c'.x c'.y = linear c.wl c.x c.y + 1) :
    e.Inv c' n .padding := by
  obtain ⟨hi, hle⟩ := h.padding rfl
  refine ⟨fun _ => ?_, (fun h0 => by cases h0), fun _ => ⟨hi, ?_⟩, fun h0 => by cases h0⟩
  · rw [hw, hh]; exact h.len rfl
  · omega

/-! The walks. -/

/-- The image of an active walk is not empty. -/
theorem State.WalkInv.not_empty {s : State} (h : s.WalkInv)
    (ha : s.status.eph.active = true ∨ s.status.dph.active = true) : s.cur.empty = false :=
  h.walkDims (by simpa using ha)

/-- Ending the decode walk keeps the walks' part. -/
theorem WalkInv.end_decode {p : Params} {c : Cursor} {e : Encoder} {exh : Bool} {eph : EncPhase} {dph q : DecPhase}
    (h : WalkInv p c e exh eph dph) (hq : q.active = false) : WalkInv p c e exh eph q where
  cursor := h.cursor
  encoder := h.encoder
  oneWalk h0 := by simp [hq] at h0
  walkDims h0 := h.walkDims (by simp [hq] at h0; simp [h0])

/-- With no walk active the walks' part is the cursor's, and ENC_I = ENC_L after DONE. -/
theorem WalkInv.of_not_active {p : Params} {c : Cursor} {e : Encoder} {exh : Bool} {eph : EncPhase} {dph : DecPhase}
    (hc : c.Inv p exh) (he : eph.active = false) (hd : dph.active = false) (hl : eph = .done → e.i = e.l) :
    WalkInv p c e exh eph dph where
  cursor := hc
  encoder := .of_not_active he hl
  oneWalk h0 := by simp [he] at h0
  walkDims h0 := by simp [he, hd] at h0

/-- advance() keeps the walks' part, with what the encoder and the phases are by then. -/
theorem State.WalkInv.advance {s : State} (h : s.WalkInv) (hne : s.cur.empty = false) {e : Encoder}
    {eph : EncPhase} {dph : DecPhase} (he : e.Inv s.advance.cur s.params.pbufMax eph)
    (h1 : ¬ (eph.active = true ∧ dph.active = true)) :
    Machine.WalkInv s.params s.advance.cur e s.advance.status.exh eph dph where
  cursor := Cursor.Inv.advance h.cursor hne
  encoder := he
  oneWalk := h1
  walkDims _ := s.advance_empty.trans hne

/-- An encode walk is alone. -/
theorem State.WalkInv.decode_idle {s : State} (h : s.WalkInv) (ha : s.status.eph.active = true) :
    s.status.dph.active = false := by
  cases hd : s.status.dph.active with
  | false => rfl
  | true => exact absurd ⟨ha, hd⟩ h.oneWalk

/-- A decode walk is alone. -/
theorem State.WalkInv.encode_idle {s : State} (h : s.WalkInv) (ha : s.status.dph.active = true) :
    s.status.eph.active = false := by
  cases he : s.status.eph.active with
  | false => rfl
  | true => exact absurd ⟨he, ha⟩ h.oneWalk

/-- The end of a payload pixel step keeps the walks' part. -/
theorem State.WalkInv.afterPayload {s : State} (h : s.WalkInv) (hp : s.status.eph = .payload) :
    (s.afterPayload s.enc.take).WalkInv := by
  have hact : s.status.eph.active = true := by rw [hp]; rfl
  have hne := h.not_empty (.inl hact)
  have hdec := h.decode_idle hact
  have henc : s.enc.Inv s.cur s.params.pbufMax .payload := hp ▸ h.encoder
  obtain ⟨hw, hh⟩ := s.advance_dims
  obtain ⟨c, p, e, hcase⟩ := s.afterPayload_eq s.enc.take
  rw [e]
  refine h.advance hne ?_ (fun h0 => by simp [hdec] at h0)
  obtain ⟨hlt, hok, -, rfl⟩ | ⟨-, -, -, rfl⟩ | ⟨hge, hok, -, rfl⟩ | ⟨hge, -, -, rfl⟩ := hcase
  · rw [hp]
    exact henc.payload_next hw hh (State.advance_linear h.cursor hne hok) hlt
  · exact .of_not_active rfl (fun h0 => by cases h0)
  · exact henc.payload_padding hw hh (State.advance_linear h.cursor hne hok) hge
  · obtain ⟨hnat, -, hend⟩ := Encoder.take_spec (henc.payload rfl).1
    exact .of_not_active rfl fun _ => BitVec.eq_of_toNat_eq (hnat.trans (hend hge).1)

/-- The end of a padding pixel step keeps the walks' part. -/
theorem State.WalkInv.afterPadding {s : State} (h : s.WalkInv) (hp : s.status.eph = .padding) :
    s.afterPadding.WalkInv := by
  have hact : s.status.eph.active = true := by rw [hp]; rfl
  have hne := h.not_empty (.inl hact)
  have hdec := h.decode_idle hact
  have henc : s.enc.Inv s.cur s.params.pbufMax .padding := hp ▸ h.encoder
  obtain ⟨hw, hh⟩ := s.advance_dims
  obtain ⟨c, p, e, hcase⟩ := s.afterPadding_eq
  rw [e]
  refine h.advance hne ?_ (fun h0 => by simp [hdec] at h0)
  obtain ⟨hok, -, rfl⟩ | ⟨-, -, rfl⟩ := hcase
  · rw [hp]
    exact henc.padding_next hw hh (State.advance_linear h.cursor hne hok)
  · exact .of_not_active rfl fun _ => (henc.padding rfl).1

/-- cursor_init() leaves the cursor in the origin of the dimensions it latches. -/
theorem State.cursorInit_inv (s : State) : s.cursorInit.cur.Inv s.params false :=
  .origin (coordBitsOf_lt _ _) (coordBitsOf_lt _ _) rfl rfl

/-- CAP is no part of the invariant. -/
theorem Cursor.Inv.withCap {p : Params} {c : Cursor} {exh : Bool} (h : c.Inv p exh) (v : BitVec 64) :
    Cursor.Inv { c with cap := v } p exh :=
  ⟨h.wl, h.hl, h.inside, h.home, h.final⟩

/-- A payload that PBUF can hold has a bit length that ENC_L can hold. -/
theorem payloadBits_toNat {p : Params} {plen : Word} (h : plen.toNat ≤ p.pbufMax) :
    (BitVec.ofNat 32 (payloadBits plen.toNat)).toNat = payloadBits plen.toNat := by
  have hmax := p.legal.2.1.2
  rw [BitVec.toNat_ofNat, payloadBits]
  omega

/-- The encoder where ENC_START begins a walk (42_encoder.md R201). -/
theorem Encoder.Inv.start {p : Params} {plen : Word} {c : Cursor} (hle : plen.toNat ≤ p.pbufMax) (hx : c.x = 0)
    (hy : c.y = 0) (hcap : payloadBits plen.toNat < capacityBits c.wl c.hl) :
    (Encoder.start plen).Inv c p.pbufMax .payload where
  len _ := ⟨payloadBits_toNat hle, hle, by rw [Encoder.start, payloadBits_toNat hle]; exact hcap⟩
  payload _ := by
    refine ⟨?_, by simp [Encoder.start, linear, hx, hy]⟩
    simp only [Encoder.start, payloadBits_toNat hle]
    simp [payloadBits]
  padding h0 := by cases h0
  done h0 := by cases h0

/-- An image that has room for a payload is not empty. -/
theorem Cursor.not_empty_of_capacity {c : Cursor} {n : Nat} (h : n < capacityBits c.wl c.hl) :
    c.empty = false := by
  refine Cursor.empty_eq_false.mpr ⟨?_, ?_⟩ <;> by_contra h0 <;>
    simp [capacityBits, (by omega : ∀ k : Nat, ¬ 1 ≤ k → k = 0) _ h0] at h

/-! The decoder and the message. -/

/-- The values in ACC fit their lengths (10_state.md R41). -/
structure Decoder.Bounded (d : Decoder) : Prop where
  accV : d.accV.toNat < 2 ^ d.accLen.toNat
  spillV : d.spillV.toNat < 2 ^ d.spillLen.toNat

theorem Decoder.Inv.bounded {d : Decoder} {n : Nat} (h : d.Inv n) : d.Bounded := ⟨h.accV, h.spillV⟩

/-- A value of one bit more, bounded by a length of one more. -/
theorem push_bound {v n : Nat} (b : Bool) (h : v < 2 ^ n) : 2 * v + b.toNat < 2 ^ (n + 1) := by
  have := Bool.toNat_le b
  rw [Nat.pow_succ]
  omega

/-- A push into an accumulator with room for it. -/
theorem Decoder.Bounded.pushAcc {d : Decoder} (h : d.Bounded) (b : Bool) (hl : d.accLen.toNat < 8) :
    (d.pushAcc b).Bounded ∧ (d.pushAcc b).accLen.toNat = d.accLen.toNat + 1 ∧
      (d.pushAcc b).spillLen.toNat = d.spillLen.toNat := by
  obtain ⟨hv, hlen⟩ := Decoder.pushAcc_toNat b hl h.accV
  exact ⟨⟨by rw [hv, hlen]; exact push_bound b h.accV, h.spillV⟩, hlen, rfl⟩

/-- A push into a spillover with room for it. -/
theorem Decoder.Bounded.pushSpill {d : Decoder} (h : d.Bounded) (b : Bool) (hl : d.spillLen.toNat < 2) :
    (d.pushSpill b).Bounded ∧ (d.pushSpill b).accLen.toNat = d.accLen.toNat ∧
      (d.pushSpill b).spillLen.toNat = d.spillLen.toNat + 1 := by
  obtain ⟨hv, hlen⟩ := Decoder.pushSpill_toNat b hl h.spillV
  exact ⟨⟨h.accV, by rw [hv, hlen]; exact push_bound b h.spillV⟩, rfl, hlen⟩

/-- Three pushes into an accumulator with room for them. -/
theorem Decoder.Bounded.pushAcc3 {d : Decoder} (h : d.Bounded) (t0 t1 t2 : Bool) (hl : d.accLen.toNat ≤ 5) :
    (((d.pushAcc t0).pushAcc t1).pushAcc t2).Bounded ∧
      (((d.pushAcc t0).pushAcc t1).pushAcc t2).accLen.toNat = d.accLen.toNat + 3 ∧
      (((d.pushAcc t0).pushAcc t1).pushAcc t2).spillLen.toNat = d.spillLen.toNat := by
  obtain ⟨b1, l1, s1⟩ := h.pushAcc t0 (by omega)
  obtain ⟨b2, l2, s2⟩ := b1.pushAcc t1 (by omega)
  obtain ⟨b3, l3, s3⟩ := b2.pushAcc t2 (by omega)
  exact ⟨b3, by omega, by omega⟩

/-- The pairs of lengths of R44, as arithmetic: a full accumulator with at most two bits beside it, or one that
is not full and holds no single bit and no pair, with none beside it. -/
theorem Decoder.shape_mem {d : Decoder} : d.shape ∈ accShapes ↔
    (d.accLen.toNat = 8 ∧ d.spillLen.toNat ≤ 2) ∨
      (d.accLen.toNat < 8 ∧ d.accLen.toNat ≠ 1 ∧ d.accLen.toNat ≠ 2 ∧ d.spillLen.toNat = 0) := by
  simp only [Decoder.shape, accShapes, List.mem_cons, Prod.mk.injEq, List.not_mem_nil, or_false]
  omega

/-- A triplet fed into an accumulator that is not full (43_decoder.md R243). -/
theorem Decoder.Inv.pushTriplet {d : Decoder} {n : Nat} (h : d.Inv n) (hne : d.accLen ≠ 8#4)
    (t0 t1 t2 : Bool) : (d.pushTriplet t0 t1 t2).Inv n := by
  have h8 : d.accLen.toNat ≠ 8 := fun h0 => hne (BitVec.eq_of_toNat_eq h0)
  have hshape := Decoder.shape_mem.mp h.shape
  unfold Decoder.pushTriplet
  split
  · next h7 =>
    have h7 : d.accLen.toNat = 7 := congrArg BitVec.toNat h7
    obtain ⟨b1, l1, s1⟩ := h.bounded.pushAcc t0 (by omega)
    obtain ⟨b2, l2, s2⟩ := b1.pushSpill t1 (by omega)
    obtain ⟨b3, l3, s3⟩ := b2.pushSpill t2 (by omega)
    exact ⟨Decoder.shape_mem.mpr (by omega), b3.accV, b3.spillV, h.mlen⟩
  · next h7 =>
    have h7 : d.accLen.toNat ≠ 7 := fun h0 => h7 (BitVec.eq_of_toNat_eq h0)
    split
    · next h6 =>
      have h6 : d.accLen.toNat = 6 := congrArg BitVec.toNat h6
      obtain ⟨b1, l1, s1⟩ := h.bounded.pushAcc t0 (by omega)
      obtain ⟨b2, l2, s2⟩ := b1.pushAcc t1 (by omega)
      obtain ⟨b3, l3, s3⟩ := b2.pushSpill t2 (by omega)
      exact ⟨Decoder.shape_mem.mpr (by omega), b3.accV, b3.spillV, h.mlen⟩
    · next h6 =>
      have h6 : d.accLen.toNat ≠ 6 := fun h0 => h6 (BitVec.eq_of_toNat_eq h0)
      obtain ⟨b3, l3, s3⟩ := h.bounded.pushAcc3 t0 t1 t2 (by omega)
      exact ⟨Decoder.shape_mem.mpr (by omega), b3.accV, b3.spillV, h.mlen⟩

/-- A triplet fed after a complete byte: the spillover has become the accumulator (R243). -/
theorem Decoder.Inv.spill_push {d : Decoder} {n : Nat} (h : d.Inv n) (h8 : d.accLen = 8#4) {mlen : Word}
    (hm : mlen.toNat ≤ n) (t0 t1 t2 : Bool) :
    (((Decoder.pushAcc { d.spillToAcc with mlen := mlen } t0).pushAcc t1).pushAcc t2).Inv n := by
  have h8 : d.accLen.toNat = 8 := congrArg BitVec.toNat h8
  have hshape := Decoder.shape_mem.mp h.shape
  have hv : (d.spillV.setWidth 8).toNat = d.spillV.toNat := by simp; omega
  have hl : (d.spillLen.setWidth 4).toNat = d.spillLen.toNat := by simp; omega
  have hb : Decoder.Bounded { d.spillToAcc with mlen := mlen } :=
    ⟨by simp only [Decoder.spillToAcc, hv, hl]; exact h.spillV, Nat.zero_lt_one⟩
  obtain ⟨b3, l3, s3⟩ := hb.pushAcc3 t0 t1 t2 (by change (d.spillLen.setWidth 4).toNat ≤ 5; omega)
  have l3 : _ = (d.spillLen.setWidth 4).toNat + 3 := l3
  have s3 : _ = 0 := s3
  exact ⟨Decoder.shape_mem.mpr (by omega), b3.accV, b3.spillV, hm⟩

/-- A cleared decoder. -/
theorem MessageInv.cleared {p : Params} {m : Memory} (dph : DecPhase) (hm : Memory.wf .mbuf m = true) :
    MessageInv p { accV := 0, accLen := 0, spillV := 0, spillLen := 0, mlen := 0 } m dph where
  decoder := ⟨by simp [Decoder.shape, accShapes], by decide, by decide, Nat.zero_le _⟩
  notFound _ := rfl
  message k hk := by simp at hk
  mbuf := hm

/-- The phase matters to the message only where it is NOTFOUND. -/
theorem MessageInv.setDph {p : Params} {d : Decoder} {m : Memory} {dph q : DecPhase} (h : MessageInv p d m dph)
    (hq : q ≠ .notFound) : MessageInv p d m q :=
  { h with notFound := fun h0 => absurd h0 hq }

/-- Clearing MLEN keeps the message's part, in any phase. -/
theorem MessageInv.clear_mlen {p : Params} {d : Decoder} {m : Memory} {dph : DecPhase} (h : MessageInv p d m dph)
    (q : DecPhase) : MessageInv p { d with mlen := 0 } m q where
  decoder := ⟨h.decoder.shape, h.decoder.accV, h.decoder.spillV, Nat.zero_le _⟩
  notFound _ := rfl
  message k hk := by simp at hk
  mbuf := h.mbuf

/-- A buffer whose first `n` bytes have a value has one more after a write at `n`. -/
theorem Memory.isSome_write_next {sp : Space} {m : Memory} {n : Nat} (v : Byte) (hm : Memory.wf sp m = true)
    (h : ∀ k, k < n → (Memory.read sp m k).isSome = true) (k : Nat) (hk : k < n + 1) :
    (Memory.read sp (Memory.write sp m n v) k).isSome = true := by
  by_cases hn : k = n
  · rw [hn, Memory.read_write_same _ _ hm]; rfl
  · rw [Memory.read_write_other _ _ hn]
    exact h k (by omega)

theorem Decoder.pushTriplet_mlen (t0 t1 t2 : Bool) (d : Decoder) : (d.pushTriplet t0 t1 t2).mlen = d.mlen := by
  unfold Decoder.pushTriplet
  split
  · rfl
  · split <;> rfl

/-- A feed that goes on keeps the message's part: MBUF has room for a byte that is appended (R243). -/
theorem State.MessageInv.feed {s : State} (h : s.MessageInv) (hr : s.status.dph = .running)
    (hc : s.feedOut = .cont) (t0 t1 t2 : Bool) : (s.feed t0 t1 t2).MessageInv := by
  have hnf : s.status.dph ≠ .notFound := by rw [hr]; decide
  unfold State.feed
  split
  · next h8 =>
    have hfull := (s.feedOut_eq.2.2.mp hc h8).2
    have hle := h.decoder.mlen
    have hmax := s.params.legal.2.2.2
    have hm : (s.dec.mlen + 1).toNat = s.dec.mlen.toNat + 1 := by
      rw [BitVec.toNat_add]
      exact Nat.mod_eq_of_lt (by simp; omega)
    exact ⟨h.decoder.spill_push h8 (by omega) t0 t1 t2, fun h0 => absurd h0 hnf,
      fun k hk => Memory.isSome_write_next _ h.mbuf h.message k (hm ▸ hk), Memory.write_wf _ _ h.mbuf⟩
  · next h8 =>
    exact ⟨h.decoder.pushTriplet h8 t0 t1 t2, fun h0 => absurd h0 hnf,
      fun k hk => h.message k (Decoder.pushTriplet_mlen t0 t1 t2 s.dec ▸ hk), h.mbuf⟩

end Sys2Proof.Machine
end

section
/-! SUPPORT. Every command keeps the invariant. -/

namespace Sys2Proof.Machine

variable {s t : State}

/-- A state with the parts of a state that meets the invariant meets it. -/
theorem State.Inv.of_parts (a : s.StoreInv) (w : s.WalkInv) (m : s.MessageInv) : s.Inv := s.inv_iff.mpr ⟨a, w, m⟩

theorem State.Inv.store (h : s.Inv) : s.StoreInv := (s.inv_iff.mp h).1
theorem State.Inv.walk (h : s.Inv) : s.WalkInv := (s.inv_iff.mp h).2.1
theorem State.Inv.msg (h : s.Inv) : s.MessageInv := (s.inv_iff.mp h).2.2

theorem State.Inv.finish (h : s.Inv) (c : ResultCode) : (s.finish c).Inv := .of_parts h.store h.walk h.msg
theorem State.Inv.setBusy (h : s.Inv) (b : Bool) : (s.setBusy b).Inv := .of_parts h.store h.walk h.msg
theorem State.Inv.endStep (h : s.Inv) (c : ResultCode) : (s.endStep c).Inv := .of_parts h.store h.walk h.msg
theorem State.Inv.draw (h : s.Inv) (k : Nat) : (s.draw k).Inv := .of_parts h.store h.walk h.msg
theorem State.Inv.setMoves (h : s.Inv) (ms : List Move) : (s.setMoves ms).Inv := .of_parts h.store h.walk h.msg
theorem State.Inv.putByte (h : s.Inv) (v : Byte) : (s.putByte v).Inv := .of_parts h.store h.walk h.msg
theorem State.Inv.storeByteBit (h : s.Inv) (b : Bool) : (s.storeByteBit b).Inv := .of_parts h.store h.walk h.msg
theorem State.Inv.putStr0 (h : s.Inv) (w : Word) : (s.putStr0 w).Inv := .of_parts h.store h.walk h.msg
theorem State.Inv.putStr1 (h : s.Inv) (w : Word) : (s.putStr1 w).Inv := .of_parts h.store h.walk h.msg

theorem State.Inv.putSeq (h : s.Inv) {v : BitVec 16} {l : BitVec 5} (hv : v.toNat < 2 ^ l.toNat)
    (hl : l.toNat ≤ 16) : (s.putSeq v l).Inv :=
  .of_parts (h.store.putSeq hv hl) h.walk h.msg

theorem State.Inv.putCurPixel (h : s.Inv) (p : Pixel) : (s.putCurPixel p).Inv :=
  .of_parts (h.store.putImage (Image.pixWrite_wf h.image ..)) h.walk h.msg

/-- What a reading command goes to keeps the invariant if the state without the record does. -/
theorem State.reading_inv {rs : List UnspecReg} {u : State} (hu : u.Inv) (h : s.reading rs u = .next t) : t.Inv := by
  rw [State.reading_next h]
  exact hu.noteRead

theorem State.Inv.afterPayload (h : s.Inv) (hp : s.status.eph = .payload) : (s.afterPayload s.enc.take).Inv := by
  have hw := h.walk.afterPayload hp
  obtain ⟨c, p, e, -⟩ := s.afterPayload_eq s.enc.take
  rw [e] at hw ⊢
  exact .of_parts h.store hw h.msg

theorem State.Inv.afterPadding (h : s.Inv) (hp : s.status.eph = .padding) : s.afterPadding.Inv := by
  have hw := h.walk.afterPadding hp
  obtain ⟨c, p, e, -⟩ := s.afterPadding_eq
  rw [e] at hw ⊢
  exact .of_parts h.store hw h.msg

/-- One pixel of the encode walk keeps the invariant. -/
theorem State.Inv.encPixel (h : s.Inv) (hp : s.encPixel = .ok t) : t.Inv := by
  obtain ⟨-, rfl⟩ | ⟨he, -, q, -, rfl⟩ | ⟨he, -, rfl⟩ := State.encPixel_cases hp
  · exact h.finish _
  · exact (h.putCurPixel q).afterPayload he
  · exact ((h.draw 3).putCurPixel _).afterPadding he

/-- advance() keeps the invariant outside an encode walk, on an image that is not empty. -/
theorem State.Inv.advance (h : s.Inv) (he : s.status.eph.active = false) (hne : s.cur.empty = false) :
    s.advance.Inv := by
  have henc : ∀ c, s.enc.Inv c s.params.pbufMax s.status.eph := fun _ => .of_not_active he h.encoder.done
  have hw := h.walk.advance hne (henc _) h.oneWalk
  obtain ⟨c, -, -, e⟩ | ⟨-, -, e⟩ := s.advance_cases <;> rw [e] at hw ⊢ <;> exact .of_parts h.store hw h.msg

theorem State.Inv.decFound (h : s.Inv) : s.decFound.Inv :=
  .of_parts h.store (h.walk.end_decode rfl) (h.msg.setDph DecPhase.noConfusion)

theorem State.Inv.decOverflow (h : s.Inv) : s.decOverflow.Inv :=
  .of_parts h.store (h.walk.end_decode rfl) (h.msg.setDph DecPhase.noConfusion)

theorem State.Inv.feed (h : s.Inv) (hr : s.status.dph = .running) (hc : s.feedOut = .cont) (t0 t1 t2 : Bool) :
    (s.feed t0 t1 t2).Inv := by
  have hm := h.msg.feed hr hc t0 t1 t2
  obtain ⟨d, m, e, -⟩ := s.feed_eq t0 t1 t2
  rw [e] at hm ⊢
  exact .of_parts h.store h.walk hm

theorem State.Inv.afterFeed (h : s.Inv) (hr : s.status.dph = .running) : s.afterFeed.Inv := by
  have hact : s.status.dph.active = true := by rw [hr]; rfl
  have ha := h.advance (h.walk.encode_idle hact) (h.walk.not_empty (.inr hact))
  unfold State.afterFeed
  split
  · exact ha.finish _
  · rw [← s.advance_dec]
    exact .of_parts ha.store (ha.walk.end_decode rfl) (ha.msg.clear_mlen _)

theorem State.feed_status (t0 t1 t2 : Bool) (s : State) : (s.feed t0 t1 t2).status = s.status := by
  obtain ⟨d, m, e, -⟩ := s.feed_eq t0 t1 t2
  rw [e]

/-- One pixel of the decode walk keeps the invariant. -/
theorem State.Inv.decPixel (h : s.Inv) (hp : s.decPixel = .ok t) : t.Inv := by
  obtain ⟨-, rfl⟩ | ⟨hr, -, ⟨-, rfl⟩ | ⟨-, rfl⟩ | ⟨hc, rfl⟩⟩ := State.decPixel_cases hp
  · exact h.finish _
  · exact h.decFound
  · exact h.decOverflow
  · exact (h.feed hr hc _ _ _).afterFeed (by rw [State.feed_status]; exact hr)

theorem State.Inv.decFeed (h : s.Inv) {t0 t1 t2 : Bool} (hf : execDecFeed t0 t1 t2 s = .next t) : t.Inv := by
  obtain ⟨-, e⟩ | ⟨hr, ⟨-, e⟩ | ⟨-, e⟩ | ⟨hc, e⟩⟩ := execDecFeed_cases t0 t1 t2 s <;> cases e.symm.trans hf
  · exact h.endStep _
  · exact h.decFound.setBusy _
  · exact h.decOverflow.setBusy _
  · exact (h.feed hr hc _ _ _).endStep _

theorem State.Inv.cursorInit (h : s.Inv) (hna : s.status.walkActive = false) : s.cursorInit.Inv := by
  have ⟨he, hd⟩ := Bool.or_eq_false_iff.mp hna
  exact .of_parts h.store (.of_not_active s.cursorInit_inv he hd h.encoder.done) h.msg

theorem State.Inv.putCap (h : s.Inv) : s.putCap.Inv :=
  .of_parts h.store ⟨h.cursor.withCap _, ⟨h.encoder.len, h.encoder.payload, h.encoder.padding, h.encoder.done⟩,
    h.oneWalk, h.walkDims⟩ h.msg

/-- Everything ENC_START can do (42_encoder.md R201). -/
theorem State.encStart_cases (s : State) :
    (s.params.pbufMax < s.regs.plen.toNat ∧ s.encStart = { s with
      status := { s.status with result := .errPlen, busy := false, eph := .error, dph := .idle } }) ∨
    (s.regs.plen.toNat ≤ s.params.pbufMax ∧ ∃ (p : EncPhase) (c : ResultCode), s.encStart = { s with
        cur := s.cursorInit.putCap.cur
        enc := Encoder.start s.regs.plen
        status := { s.status with result := c, busy := false, exh := false, eph := p, dph := .idle } } ∧
      (payloadBits s.regs.plen.toNat < capacityBits s.cursorInit.cur.wl s.cursorInit.cur.hl ∧
          p = .payload ∧ c = .ok ∨
        ¬ payloadBits s.regs.plen.toNat < capacityBits s.cursorInit.cur.wl s.cursorInit.cur.hl ∧
          p = .error ∧ c = .errCapacity)) := by
  unfold State.encStart
  split
  · exact .inl ⟨‹_›, rfl⟩
  · refine .inr ⟨Nat.le_of_not_lt ‹_›, ?_⟩
    dsimp only
    split
    · exact ⟨_, _, rfl, .inl ⟨‹_›, rfl, rfl⟩⟩
    · exact ⟨_, _, rfl, .inr ⟨‹_›, rfl, rfl⟩⟩

/-- Everything DEC_START can do (43_decoder.md R241). -/
theorem State.decStart_cases (s : State) :
    ∃ (q : DecPhase) (c : ResultCode), s.decStart = { s with
        cur := s.cursorInit.cur
        dec := { accV := 0, accLen := 0, spillV := 0, spillLen := 0, mlen := 0 }
        status := { s.status with result := c, busy := false, exh := false, eph := .idle, dph := q } } ∧
      (s.cursorInit.cur.empty = true ∧ q = .error ∧ c = .errEmpty ∨
        s.cursorInit.cur.empty = false ∧ q = .running ∧ c = .ok) := by
  unfold State.decStart
  dsimp only
  split
  · exact ⟨_, _, rfl, .inl ⟨‹_›, rfl, rfl⟩⟩
  · exact ⟨_, _, rfl, .inr ⟨Bool.eq_false_iff.mpr ‹_›, rfl, rfl⟩⟩

theorem State.Inv.encStart (h : s.Inv) : s.encStart.Inv := by
  obtain ⟨-, e⟩ | ⟨hle, p, c, e, hcase⟩ := s.encStart_cases <;> rw [e]
  · exact .of_parts h.store (.of_not_active h.cursor rfl rfl (fun h0 => by cases h0))
      (h.msg.setDph DecPhase.noConfusion)
  · refine .of_parts h.store ?_ (h.msg.setDph DecPhase.noConfusion)
    have hc : s.cursorInit.putCap.cur.Inv s.params false := s.cursorInit_inv.withCap _
    obtain ⟨hcap, rfl, -⟩ | ⟨-, rfl, -⟩ := hcase
    · exact ⟨hc, .start hle rfl rfl hcap, (fun h0 => by cases h0.2), fun _ => Cursor.not_empty_of_capacity hcap⟩
    · exact .of_not_active hc rfl rfl (fun h0 => by cases h0)

theorem State.Inv.decStart (h : s.Inv) : s.decStart.Inv := by
  obtain ⟨p, c, e, hcase⟩ := s.decStart_cases
  rw [e]
  refine .of_parts h.store ?_ (.cleared _ h.mbuf)
  obtain ⟨-, rfl, -⟩ | ⟨hne, rfl, -⟩ := hcase
  · exact .of_not_active s.cursorInit_inv rfl rfl (fun h0 => by cases h0)
  · exact ⟨s.cursorInit_inv, .of_not_active rfl (fun h0 => by cases h0), (fun h0 => by cases h0.1), fun _ => hne⟩

theorem State.Inv.softReset (h : s.Inv) : s.softReset.Inv :=
  .of_parts h.store (.of_not_active (.origin (Nat.two_pow_pos _) (Nat.two_pow_pos _) rfl rfl) rfl rfl fun _ => rfl)
    (.cleared _ h.mbuf)

/-- Every command keeps the invariant. -/
theorem State.Inv.exec {i : Instr} (h : s.Inv) (hi : exec i s = .next t) : t.Inv := by
  cases i with
  | nop => cases hi; exact h.endStep _
  | byteNew v => cases hi; exact (h.putByte v).endStep _
  | byteStoreBit b => exact State.reading_inv ((h.storeByteBit b).endStep _) hi
  | byteStoreRandomBit => exact State.reading_inv (((h.draw 1).storeByteBit _).endStep _) hi
  | byteToSeq =>
    have hv : (s.bu.b.setWidth 16).toNat < 2 ^ (8#5).toNat := by simp; omega
    exact State.reading_inv ((h.putSeq hv (by decide)).endStep _) hi
  | byteFromSeq =>
    refine State.reading_inv ?_ hi
    split
    · exact (h.putByte _).endStep _
    · exact h.endStep _
  | byteFromSeqBounded =>
    refine State.reading_inv ?_ hi
    split
    · exact h.endStep _
    · exact (h.putByte _).endStep _
  | seqLoad len seq =>
    cases hi
    split
    · exact h.endStep _
    · have hv : (seqBits seq len).toNat < 2 ^ len.toNat := by
        rw [seqBits_toNat]; exact Nat.mod_lt _ (Nat.two_pow_pos _)
      exact (h.putSeq hv (by omega)).endStep _
  | byteFromStr =>
    refine State.reading_inv ?_ hi
    split
    · exact (h.putByte _).endStep _
    · exact h.endStep _
  | byteToStr => exact State.reading_inv (((h.putStr0 _).putStr1 _).endStep _) hi
  | byteCmp v =>
    refine State.reading_inv ?_ hi
    exact .of_parts h.store h.walk h.msg
  | curInit =>
    cases hi
    split
    · exact h.endStep _
    · next hna =>
      have hc := h.cursorInit (Bool.eq_false_iff.mpr hna)
      split <;> exact hc.endStep _
  | curAdvance =>
    cases hi
    split
    · exact h.endStep _
    · next hna =>
      split
      · exact h.endStep _
      · next hne =>
        have he := (Bool.or_eq_false_iff.mp (Bool.eq_false_iff.mpr hna)).1
        have ha := h.advance he (Bool.eq_false_iff.mpr hne)
        split <;> exact ha.endStep _
  | curInBoundsX c => cases hi; split <;> exact .of_parts h.store h.walk h.msg
  | curInBoundsY c => cases hi; split <;> exact .of_parts h.store h.walk h.msg
  | curCapacity =>
    cases hi
    split
    · exact h.endStep _
    · exact h.putCap.endStep _
  | encStart => cases hi; exact h.encStart
  | encStep =>
    obtain ⟨u, hu, e, -⟩ | ⟨f, -, e, -⟩ := execEnc_cases s <;> cases e.symm.trans hi
    exact (h.encPixel hu).setBusy _
  | encRun =>
    obtain ⟨u, hu, -, e⟩ | ⟨f, -, -, e⟩ := execEnc_cases s <;> cases e.symm.trans hi
    exact (h.encPixel hu).setBusy _
  | decStart => cases hi; exact h.decStart
  | decStep =>
    obtain ⟨u, hu, e, -⟩ | ⟨f, -, e, -⟩ := execDec_cases s <;> cases e.symm.trans hi
    exact (h.decPixel hu).setBusy _
  | decRun =>
    obtain ⟨u, hu, -, e⟩ | ⟨f, -, -, e⟩ := execDec_cases s <;> cases e.symm.trans hi
    exact (h.decPixel hu).setBusy _
  | decFeed t0 t1 t2 => exact h.decFeed hi
  | softReset => cases hi; exact h.softReset

theorem State.Inv.seqStep (h : s.Inv) (hs : seqStep s = .next t) : t.Inv := by
  obtain ⟨-, rfl⟩ | ⟨i, -, hi⟩ := seqStep_cases hs
  · exact h.endStep _
  · exact h.exec hi

end Sys2Proof.Machine
end

section
/-! SUPPORT. Every move of the environment keeps the invariant. -/

namespace Sys2Proof.Machine

variable {s t : State}

theorem State.Inv.issue (h : s.Inv) (w : Word) : (s.issue w).Inv := by
  unfold State.issue
  split <;> exact .of_parts h.store h.walk h.msg

theorem State.Inv.writeReg (h : s.Inv) (w : Word) (r : PortReg) : (s.writeReg w r).Inv := by
  cases r with
  | cmd => exact h.issue w
  | str0 => exact h.putStr0 w
  | str1 => exact h.putStr1 w
  | width => exact .of_parts { h.store with width := coordBitsOf_lt _ _ } h.walk h.msg
  | height => exact .of_parts { h.store with height := coordBitsOf_lt _ _ } h.walk h.msg
  | plen => exact .of_parts h.store h.walk h.msg
  | status | byte | seq | curX | curY | wl | hl | capLo | capHi | term | encI | encL | acc | mlen => exact h

theorem State.Inv.putPbufLane (h : s.Inv) (w : Word) (i j : Nat) : (s.putPbufLane w i j).Inv := by
  unfold State.putPbufLane
  split
  · exact h
  · exact .of_parts { h.store with pbuf := Memory.write_wf _ _ h.pbuf } h.walk h.msg

theorem State.Inv.writeTarget (h : s.Inv) (w : Word) (a : Target) : (s.writeTarget w a).Inv := by
  cases a with
  | reg r => exact h.writeReg w r
  | pbuf i => exact (((h.putPbufLane w i 0).putPbufLane w i 1).putPbufLane w i 2).putPbufLane w i 3
  | mbuf i => exact h
  | reserved => exact h

/-- The invariant holds at reset, with the parameters and any image in canonical form. -/
theorem State.resetEvent_inv (s : State) (h : Memory.wf .pixels s.image.mem = true) : s.resetEvent.Inv :=
  .of_parts ⟨Nat.zero_lt_one, Nat.zero_le _, Nat.two_pow_pos _, Nat.two_pow_pos _, rfl, h⟩
    (.of_not_active (.origin (Nat.two_pow_pos _) (Nat.two_pow_pos _) rfl rfl) rfl rfl fun _ => rfl) (.cleared _ rfl)

/-- Settles O17: State.reset is what a reset event makes of it, and the cleared parts of the invariant hold. -/
theorem resetMeetsTheInvariant : Obligations.ResetMeetsTheInvariant :=
  State.reset.resetEvent_inv rfl

/-- Settles O18: the sequencer's step keeps the invariant command by command, and each move of the environment
keeps the part it touches. -/
theorem everyStepKeepsTheInvariant : Obligations.EveryStepKeepsTheInvariant := by
  intro s t h hst
  obtain ⟨ms, ⟨-, hq⟩ | rfl | ⟨w, rfl⟩ | ⟨w, a, rfl⟩ | ⟨-, rfl⟩ | ⟨-, img, himg, rfl⟩ | ⟨p, rfl⟩⟩ :=
    step_cases hst
  · exact (h.setMoves ms).seqStep hq
  · exact h.setMoves ms
  · exact .of_parts h.store h.walk h.msg
  · exact (h.setMoves ms).writeTarget w _
  · exact State.resetEvent_inv _ h.image
  · have hwf : Memory.wf .pixels img.mem = true := by
      obtain e | ⟨x, y, p, rfl⟩ := himg
      · rw [e]; rfl
      · exact Image.pixWrite_wf h.image x y p
    exact .of_parts (h.store.putImage hwf) h.walk h.msg
  · exact .of_parts h.store h.walk h.msg

end Sys2Proof.Machine
end

section
/-! SUPPORT. The machine's step where the environment's next move is known, and the host port at a fixed address. -/

namespace Sys2Proof.Machine

open Sys2Proof.Claims

variable {s : State}

theorem step_of_no_moves (h : s.env.moves = []) : step s = sequencerTurn s := by
  rw [step, machineStep, h]

theorem step_of_move {m : Move} {ms : List Move} (h : s.env.moves = m :: ms) :
    step s = applyMove m (s.setMoves ms) := by
  rw [step, machineStep, h]

theorem seqStep_of_decode {i : Instr} (h : decode s.cmdr = .ok i) : seqStep s = exec i s := by
  rw [seqStep, h]

theorem sequencerTurn_of_busy (h : s.status.busy = true) : sequencerTurn s = seqStep s := if_pos h

/-- A WAIT that finds BUSY = 1 stays on the list and lets the sequencer go. -/
theorem step_of_wait {ms : List Move} (hm : s.env.moves = .wait :: ms) (hb : s.status.busy = true) :
    step s = seqStep (s.setMoves (.wait :: ms)) := by
  rw [step_of_move hm]
  exact if_pos hb

/-- An aligned HostWrite. -/
theorem step_of_write {a w : Word} {ms : List Move} (h : s.env.moves = .write a 32 w :: ms)
    (ha : a.toNat % 4 = 0) : step s = .next ((s.setMoves ms).writeTarget w (target s.params a)) := by
  rw [step_of_move h]
  exact if_pos (by simp [aligned, ha])

/-- An aligned HostRead. -/
theorem step_of_read {a : Word} {ms : List Move} (h : s.env.moves = .read a 32 :: ms) (ha : a.toNat % 4 = 0) :
    step s = .next (answered s ms (s.readTarget (Config.hostDraw s.env.draws) (target s.params a))) := by
  rw [step_of_move h]
  exact if_pos (by simp [aligned, ha])

/-- Settles O6, from what a step is on an empty list, on PASS and on WAIT. -/
theorem stepRunsTheDecodedCommand : Obligations.StepRunsTheDecodedCommand := by
  refine ⟨fun s i hb hd => ⟨fun hm => ?_, fun ms hm => ?_, fun ms hm => ?_⟩, fun s hb hm => ?_⟩
  · rw [step_of_no_moves hm, sequencerTurn_of_busy hb, seqStep_of_decode hd]
  · rw [step_of_move hm]
    exact (sequencerTurn_of_busy (s := s.setMoves ms) hb).trans (seqStep_of_decode hd)
  · exact (step_of_wait hm hb).trans (seqStep_of_decode (s := s.setMoves _) hd)
  · rw [step_of_no_moves hm, sequencerTurn, if_neg (by simp [hb])]

/-- Settles O11, register by register: the address selects it, and the write is aligned. -/
theorem hostWritesToRegisters : Obligations.HostWritesToRegisters := by
  intro s w ms
  exact ⟨fun h => ⟨_, coordBitsOf_toNat _ _, step_of_write h rfl⟩,
    fun h => ⟨_, coordBitsOf_toNat _ _, step_of_write h rfl⟩,
    fun h => step_of_write h rfl, fun h => step_of_write h rfl, fun h => step_of_write h rfl⟩

theorem Status.word_zero : Status.zero.word = 0 := by decide

/-- Settles O16: the reset event leaves the values of State.reset in every field but the three it keeps. -/
theorem resetLoadsTheResetValues : Obligations.ResetLoadsTheResetValues := by
  unfold Obligations.ResetLoadsTheResetValues
  intro loaded
  have event : ∀ u : State, loaded u.resetEvent := fun u =>
    ⟨Status.word_zero, rfl, rfl, rfl, rfl, ⟨rfl, rfl, rfl, rfl⟩, fun _ => rfl, fun _ => rfl, rfl⟩
  exact ⟨event State.reset, rfl, fun s ms h => ⟨_, step_of_move h, event _, rfl, rfl, rfl⟩⟩

end Sys2Proof.Machine
end

section
/-! SUPPORT. The words of STATUS and ACC, field by field. -/

namespace Sys2Proof.Machine

/-- The bit fields of STATUS (10_state.md R24). -/
theorem Status.word_fields (st : Status) :
    st.word.extractLsb' 0 8 = st.result.code ∧ st.word.extractLsb' 14 2 = 0#2 ∧
      st.word.extractLsb' 16 3 = st.eph.code ∧ st.word.extractLsb' 20 3 = st.dph.code ∧
      st.word.extractLsb' 23 9 = 0#9 ∧ st.word.extractLsb' 4 4 = st.result.code.extractLsb' 4 4 := by
  unfold Status.word
  refine ⟨?_, ?_, ?_, ?_, ?_, ?_⟩ <;>
    simp (disch := omega) only [BitVec.extractLsb'_append_eq_of_le, BitVec.extractLsb'_append_eq_of_add_le,
      BitVec.extractLsb'_eq_self, Nat.reduceSub]

/-- The single bits of STATUS (R24). -/
theorem Status.word_bits (st : Status) :
    st.word.getLsbD 8 = st.eq ∧ st.word.getLsbD 9 = st.lt ∧ st.word.getLsbD 10 = st.ib ∧
      st.word.getLsbD 11 = st.exh ∧ st.word.getLsbD 12 = st.busy ∧ st.word.getLsbD 13 = st.drop ∧
      st.word.getLsbD 19 = false := by
  unfold Status.word
  refine ⟨?_, ?_, ?_, ?_, ?_, ?_, ?_⟩ <;>
    simp only [BitVec.getLsbD_append, BitVec.getLsbD_ofBool] <;> simp

/-- RESULT[7:4] is 0 for the three codes of success and 1 for every other (60_exceptions.md R280). -/
theorem ResultCode.code_class (c : ResultCode) :
    (c ∈ [ResultCode.ok, .encDone, .found] ↔ c.code.extractLsb' 4 4 = 0) ∧
      (c ∉ [ResultCode.ok, .encDone, .found] ↔ c.code.extractLsb' 4 4 = 1) := by
  cases c <;> decide

/-- The bit fields of ACC (10_state.md R41). -/
theorem Decoder.accWord_fields (d : Decoder) :
    d.accWord.extractLsb' 0 8 = d.accV ∧ d.accWord.extractLsb' 8 4 = d.accLen ∧
      d.accWord.extractLsb' 12 2 = d.spillV ∧ d.accWord.extractLsb' 14 2 = d.spillLen ∧
      d.accWord.extractLsb' 16 16 = 0#16 := by
  unfold Decoder.accWord
  refine ⟨?_, ?_, ?_, ?_, ?_⟩ <;>
    simp (disch := omega) only [BitVec.extractLsb'_append_eq_of_le, BitVec.extractLsb'_append_eq_of_add_le,
      BitVec.extractLsb'_eq_self, Nat.reduceSub]

/-- Settles O15: the words field by field, and the codes as their definitions give them. -/
theorem statusAndAccWordLayout : Obligations.StatusAndAccWordLayout := by
  refine ⟨fun st => ?_, by decide, by decide, by decide, Decoder.accWord_fields⟩
  obtain ⟨hr, h14, he, hd, h23, hclass⟩ := st.word_fields
  obtain ⟨h8, h9, h10, h11, h12, h13, h19⟩ := st.word_bits
  obtain ⟨hok, herr⟩ := st.result.code_class
  exact ⟨hr, h8, h9, h10, h11, h12, h13, h14, he, h19, hd, h23, hclass ▸ hok, hclass ▸ herr⟩

end Sys2Proof.Machine
end

section
/-! SUPPORT. What a command can write at all, said once for the Byte unit and once for every other command. -/

namespace Sys2Proof.Machine

open Sys2Proof.Claims

variable {i : Instr} {s t : State}

/-- `s` with what a Byte unit command can write taken from `t`: the Byte unit's registers, RESULT, BUSY, EQ, LT, the
record of UNSPEC reads, the draws (40_byte_unit.md R143). -/
def State.withByteWrites (s t : State) : State :=
  { s with
    bu := t.bu
    status := { s.status with
      result := t.status.result, busy := t.status.busy, eq := t.status.eq, lt := t.status.lt }
    unspecRead := t.unspecRead
    env := { s.env with draws := t.env.draws } }

/-- `s` with what any other command but SOFT_RESET can write taken from `t`: the cursor, the encoder, the decoder,
MBUF, the image, STATUS but for EQ, LT and DROP, the draws. -/
def State.withWalkWrites (s t : State) : State :=
  { s with
    cur := t.cur
    enc := t.enc
    dec := t.dec
    mbuf := t.mbuf
    image := t.image
    status := { t.status with eq := s.status.eq, lt := s.status.lt, drop := s.status.drop }
    env := { s.env with draws := t.env.draws } }

/-- A Byte unit command writes no more than that, records the reads of its registers, and leaves EQ and LT unless it
is BYTE_CMP. -/
theorem exec_byte_frame (hb : isByteCommand i = true) (h : exec i s = .next t) :
    t = s.withByteWrites t ∧ t.unspecRead = s.unspecRead.or ((readsOf i).find? s.bu.unspec) ∧
      ((∀ v, i ≠ .byteCmp v) → t.status.eq = s.status.eq ∧ t.status.lt = s.status.lt) := by
  have hnone : s.unspecRead = s.unspecRead.or (([] : List UnspecReg).find? s.bu.unspec) := by simp
  cases i with
  | byteNew v => cases h; exact ⟨rfl, hnone, fun _ => ⟨rfl, rfl⟩⟩
  | byteStoreBit b => cases h; exact ⟨rfl, rfl, fun _ => ⟨rfl, rfl⟩⟩
  | byteStoreRandomBit => cases h; exact ⟨rfl, rfl, fun _ => ⟨rfl, rfl⟩⟩
  | byteToSeq => cases h; exact ⟨rfl, rfl, fun _ => ⟨rfl, rfl⟩⟩
  | byteFromSeq => cases h; split <;> exact ⟨rfl, rfl, fun _ => ⟨rfl, rfl⟩⟩
  | byteFromSeqBounded => cases h; split <;> exact ⟨rfl, rfl, fun _ => ⟨rfl, rfl⟩⟩
  | seqLoad len seq => cases h; split <;> exact ⟨rfl, hnone, fun _ => ⟨rfl, rfl⟩⟩
  | byteFromStr => cases h; split <;> exact ⟨rfl, rfl, fun _ => ⟨rfl, rfl⟩⟩
  | byteToStr => cases h; exact ⟨rfl, rfl, fun _ => ⟨rfl, rfl⟩⟩
  | byteCmp v => cases h; exact ⟨rfl, rfl, fun hv => absurd rfl (hv v)⟩
  | _ => cases hb

/-- Any other command but SOFT_RESET writes no more than that; IB only where it compares a coordinate, EXH only where
it initialises or advances the cursor. -/
theorem exec_walk_frame (hb : isByteCommand i = false) (hs : i ≠ .softReset) (h : exec i s = .next t) :
    t = s.withWalkWrites t ∧
      ((∀ c, i ≠ .curInBoundsX c) → (∀ c, i ≠ .curInBoundsY c) → t.status.ib = s.status.ib) ∧
      (writesExh i = false → t.status.exh = s.status.exh) := by
  cases i with
  | nop => cases h; exact ⟨rfl, fun _ _ => rfl, fun _ => rfl⟩
  | curInit =>
    cases h
    split
    · exact ⟨rfl, fun _ _ => rfl, fun _ => rfl⟩
    · split <;> exact ⟨rfl, fun _ _ => rfl, fun h0 => by cases h0⟩
  | curAdvance =>
    cases h
    obtain ⟨c, -, -, e⟩ | ⟨-, -, e⟩ := s.advance_cases <;> rw [e] <;> split_ifs <;>
      exact ⟨rfl, fun _ _ => rfl, fun h0 => by cases h0⟩
  | curInBoundsX c => cases h; split <;> exact ⟨rfl, fun hx _ => absurd rfl (hx c), fun _ => rfl⟩
  | curInBoundsY c => cases h; split <;> exact ⟨rfl, fun _ hy => absurd rfl (hy c), fun _ => rfl⟩
  | curCapacity => cases h; split <;> exact ⟨rfl, fun _ _ => rfl, fun _ => rfl⟩
  | encStart =>
    cases h
    obtain ⟨-, e⟩ | ⟨-, p, c, e, -⟩ := s.encStart_cases <;> rw [e] <;>
      exact ⟨rfl, fun _ _ => rfl, fun h0 => by cases h0⟩
  | encStep =>
    obtain ⟨u, hu, e, -⟩ | ⟨f, -, e, -⟩ := execEnc_cases s <;> cases e.symm.trans h
    obtain ⟨c, n, st, img, rfl, -⟩ := State.encPixel_frame hu
    exact ⟨rfl, fun _ _ => rfl, fun h0 => by cases h0⟩
  | encRun =>
    obtain ⟨u, hu, -, e⟩ | ⟨f, -, -, e⟩ := execEnc_cases s <;> cases e.symm.trans h
    obtain ⟨c, n, st, img, rfl, -⟩ := State.encPixel_frame hu
    exact ⟨rfl, fun _ _ => rfl, fun h0 => by cases h0⟩
  | decStart =>
    cases h
    obtain ⟨q, c, e, -⟩ := s.decStart_cases
    rw [e]
    exact ⟨rfl, fun _ _ => rfl, fun h0 => by cases h0⟩
  | decStep =>
    obtain ⟨u, hu, e, -⟩ | ⟨f, -, e, -⟩ := execDec_cases s <;> cases e.symm.trans h
    obtain ⟨c, d, m, st, rfl, -⟩ := State.decPixel_frame hu
    exact ⟨rfl, fun _ _ => rfl, fun h0 => by cases h0⟩
  | decRun =>
    obtain ⟨u, hu, -, e⟩ | ⟨f, -, -, e⟩ := execDec_cases s <;> cases e.symm.trans h
    obtain ⟨c, d, m, st, rfl, -⟩ := State.decPixel_frame hu
    exact ⟨rfl, fun _ _ => rfl, fun h0 => by cases h0⟩
  | decFeed t0 t1 t2 =>
    obtain ⟨-, e⟩ | ⟨-, ⟨-, e⟩ | ⟨-, e⟩ | ⟨-, e⟩⟩ := execDecFeed_cases t0 t1 t2 s <;> cases e.symm.trans h
    · exact ⟨rfl, fun _ _ => rfl, fun _ => rfl⟩
    · exact ⟨rfl, fun _ _ => rfl, fun _ => rfl⟩
    · exact ⟨rfl, fun _ _ => rfl, fun _ => rfl⟩
    · obtain ⟨d, m, e, -⟩ := s.feed_eq t0 t1 t2
      rw [e]
      exact ⟨rfl, fun _ _ => rfl, fun _ => rfl⟩
  | softReset => exact absurd rfl hs
  | _ => cases hb

/-- What no command writes: the parameters, CMDR, the host's registers, PBUF, the environment's moves and answers. -/
theorem exec_keeps (h : exec i s = .next t) :
    t.params = s.params ∧ t.cmdr = s.cmdr ∧ t.regs = s.regs ∧ t.pbuf = s.pbuf ∧
      t.env = { s.env with draws := t.env.draws } := by
  cases hb : isByteCommand i with
  | true => rw [(exec_byte_frame hb h).1]; exact ⟨rfl, rfl, rfl, rfl, rfl⟩
  | false =>
    by_cases hs : i = .softReset
    · subst hs
      cases h
      exact ⟨rfl, rfl, rfl, rfl, rfl⟩
    · rw [(exec_walk_frame hb hs h).1]; exact ⟨rfl, rfl, rfl, rfl, rfl⟩

/-- Only Byte unit commands write the Byte unit and the record of UNSPEC reads. -/
theorem exec_keeps_byte_unit (hb : isByteCommand i = false) (h : exec i s = .next t) :
    t.bu = s.bu ∧ t.unspecRead = s.unspecRead := by
  by_cases hs : i = .softReset
  · subst hs
    cases h
    exact ⟨rfl, rfl⟩
  · rw [(exec_walk_frame hb hs h).1]; exact ⟨rfl, rfl⟩

/-- Settles O55, from what a command of either kind can write. -/
theorem onlyTheNamedCommandsWriteFlags : Obligations.OnlyTheNamedCommandsWriteFlags := by
  intro i s t h
  cases hb : isByteCommand i with
  | true =>
    obtain ⟨e, -, hcmp⟩ := exec_byte_frame hb h
    refine ⟨fun hv _ => hcmp hv, ?_⟩
    rw [e]
    exact ⟨fun _ _ _ => rfl, fun _ => rfl, fun _ => rfl⟩
  | false =>
    by_cases hs : i = .softReset
    · subst hs
      exact ⟨fun _ h0 => absurd rfl h0, fun _ _ h0 => absurd rfl h0, (fun h0 => by cases h0),
        fun h0 => absurd rfl h0⟩
    · obtain ⟨e, hib, hexh⟩ := exec_walk_frame hb hs h
      refine ⟨fun _ _ => ?_, fun hx hy _ => hib hx hy, hexh, fun _ => ?_⟩ <;> rw [e]
      · exact ⟨rfl, rfl⟩
      · rfl

end Sys2Proof.Machine
end

section
/-! SUPPORT. TERM. -/

namespace Sys2Proof.Machine

open Sys2Proof.Claims

theorem State.issue_params (s : State) (w : Word) : (s.issue w).params = s.params := by
  unfold State.issue
  split <;> rfl

theorem State.putPbufLane_params (s : State) (w : Word) (i j : Nat) : (s.putPbufLane w i j).params = s.params := by
  unfold State.putPbufLane
  split <;> rfl

/-- No host write changes a parameter. -/
theorem State.writeTarget_params (s : State) (w : Word) (a : Target) : (s.writeTarget w a).params = s.params := by
  cases a with
  | reg r =>
    cases r with
    | cmd => exact s.issue_params w
    | _ => rfl
  | pbuf i => simp only [State.writeTarget, State.putPbufLane_params]
  | mbuf i => rfl
  | reserved => rfl

/-- No step changes a parameter. -/
theorem step_params {s t : State} (h : step s = .next t) : t.params = s.params := by
  obtain ⟨ms, ⟨-, hq⟩ | rfl | ⟨w, rfl⟩ | ⟨w, a, rfl⟩ | ⟨-, rfl⟩ | ⟨-, img, -, rfl⟩ | ⟨p, rfl⟩⟩ := step_cases h
  · obtain ⟨-, rfl⟩ | ⟨i, -, hi⟩ := seqStep_cases hq
    · rfl
    · exact (exec_keeps hi).1
  · rfl
  · rfl
  · exact State.writeTarget_params _ _ _
  · rfl
  · rfl
  · rfl

/-- A byte that is zero-extended to a word. -/
theorem setWidth_byte_fields (b : Byte) :
    (b.setWidth 32).extractLsb' 0 8 = b ∧ (b.setWidth 32).extractLsb' 8 24 = 0 := by
  constructor <;> apply BitVec.eq_of_toNat_eq <;> simp <;> omega

/-- Settles O19: a write to TERM is a write to a read-only register, a read gives its byte. -/
theorem termIsHardwired : Obligations.TermIsHardwired := by
  refine ⟨fun s t h => step_params h, fun s ms h => ⟨_, step_of_read h rfl, ?_⟩,
    fun s ms w h => step_of_write h rfl⟩
  exact setWidth_byte_fields s.params.terminator

end Sys2Proof.Machine
end

section
/-! SUPPORT. UNSPEC registers: the record, the marks, the strict step. -/

namespace Sys2Proof.Machine

open Sys2Proof.Claims

variable {i : Instr} {s t : State}

theorem readsOf_eq_nil (hb : isByteCommand i = false) : readsOf i = [] := by
  cases i with
  | byteStoreBit _ | byteStoreRandomBit | byteToSeq | byteToStr | byteCmp _ | byteFromSeq | byteFromSeqBounded
  | byteFromStr => cases hb
  | _ => rfl

/-- The record after a command: the one before, or the first UNSPEC register that the command reads. -/
theorem exec_record (h : exec i s = .next t) :
    t.unspecRead = s.unspecRead.or ((readsOf i).find? s.bu.unspec) := by
  cases hb : isByteCommand i with
  | true => exact (exec_byte_frame hb h).2.1
  | false => rw [readsOf_eq_nil hb, List.find?_nil, Option.or_none, (exec_keeps_byte_unit hb h).2]

/-- A command can only record a register that it reads and that is UNSPEC, where none is recorded. -/
theorem exec_record_cases (h : exec i s = .next t) : t.unspecRead = s.unspecRead ∨
    (s.unspecRead = none ∧ ∃ r ∈ readsOf i, s.bu.unspec r = true ∧ t.unspecRead = some r) := by
  rw [exec_record h]
  exact State.noteRead_cases (readsOf i) s s

/-- A Byte unit command completes in any state, and does with every register marked as written what it does without
the marks. -/
theorem exec_byte_allWritten (hb : isByteCommand i = true) (s : State) :
    ∃ t u, exec i s = .next t ∧ exec i (allWritten s) = .next u ∧ allWritten t = u := by
  cases i with
  | byteNew v => exact ⟨_, _, rfl, rfl, rfl⟩
  | byteStoreBit b => exact ⟨_, _, rfl, rfl, rfl⟩
  | byteStoreRandomBit => exact ⟨_, _, rfl, rfl, rfl⟩
  | byteToSeq => exact ⟨_, _, rfl, rfl, rfl⟩
  | byteFromSeq =>
    refine ⟨_, _, rfl, rfl, ?_⟩
    change _ = State.noteRead _ _ (if s.bu.seqLen = 8#5 then _ else _)
    split <;> rfl
  | byteFromSeqBounded =>
    refine ⟨_, _, rfl, rfl, ?_⟩
    change _ = State.noteRead _ _ (if 8 < s.bu.seqLen.toNat then _ else _)
    split <;> rfl
  | seqLoad len seq =>
    refine ⟨_, _, rfl, rfl, ?_⟩
    split <;> rfl
  | byteFromStr =>
    refine ⟨_, _, rfl, rfl, ?_⟩
    change _ = State.noteRead _ _ (match digits (chars s.bu.str0 s.bu.str1) with | some _ => _ | none => _)
    cases digits (chars s.bu.str0 s.bu.str1) <;> rfl
  | byteToStr => exact ⟨_, _, rfl, rfl, rfl⟩
  | byteCmp v => exact ⟨_, _, rfl, rfl, rfl⟩
  | _ => cases hb

/-- Where none is recorded, a command records the first UNSPEC register that it reads. -/
theorem exec_records {r : UnspecReg} (hb : isByteCommand i = true) (hn : s.unspecRead = none)
    (hr : (readsOf i).find? s.bu.unspec = some r) : ∃ t, exec i s = .next t ∧ t.unspecRead = some r := by
  obtain ⟨t, -, ht, -⟩ := exec_byte_allWritten hb s
  exact ⟨t, ht, by rw [exec_record ht, hn, hr]; rfl⟩

theorem ByteUnit.not_set_of_unspec {u : ByteUnit} {r : UnspecReg} (h : u.unspec r = true) :
    (r = .byte → u.bSet = false) ∧ (r = .seq → u.seqSet = false) ∧ (r = .str0 → u.str0Set = false) ∧
      (r = .str1 → u.str1Set = false) := by
  cases r <;> simpa [ByteUnit.unspec] using h

/-- The strict step where the machine's step is a command that completes: it stops where one is recorded. -/
theorem strictStep_of_exec (hb : s.status.busy = true) (hm : s.env.moves = []) (hd : decode s.cmdr = .ok i)
    (h : exec i s = .next t) :
    (t.unspecRead = none → strictStep s = .next t) ∧
      (∀ r, t.unspecRead = some r → strictStep s = .fault (.unspecRead r)) := by
  have hstep : step s = .next t := by rw [((stepRunsTheDecodedCommand.1 s i hb hd).1 hm), h]
  rw [strictStep, hstep]
  exact ⟨fun hn => by simp only [hn], fun r hr => by simp only [hr]⟩

/-- The writers of BYTE, SEQ, STR0 and STR1 (70_reset_and_hazards.md R324). -/
theorem exec_marks (h : exec i s = .next t) :
    (t.bu.bSet = true ↔ s.bu.bSet = true ∨ (∃ v, i = .byteNew v) ∨
      ((i = .byteFromSeq ∨ i = .byteFromSeqBounded ∨ i = .byteFromStr) ∧ t.status.result = .ok)) ∧
    (t.bu.seqSet = true ↔ s.bu.seqSet = true ∨ i = .byteToSeq ∨ ∃ l q, i = .seqLoad l q ∧ i.wf = true) ∧
    (t.bu.str0Set = true ↔ s.bu.str0Set = true ∨ i = .byteToStr) ∧
    (t.bu.str1Set = true ↔ s.bu.str1Set = true ∨ i = .byteToStr) := by
  cases hb : isByteCommand i with
  | false =>
    rw [(exec_keeps_byte_unit hb h).1]
    refine ⟨⟨.inl, fun h0 => h0.resolve_right ?_⟩, ⟨.inl, fun h0 => h0.resolve_right ?_⟩,
      ⟨.inl, fun h0 => h0.resolve_right ?_⟩, ⟨.inl, fun h0 => h0.resolve_right ?_⟩⟩
    · rintro (⟨v, rfl⟩ | ⟨rfl | rfl | rfl, -⟩) <;> cases hb
    · rintro (rfl | ⟨l, q, rfl, -⟩) <;> cases hb
    · rintro rfl; cases hb
    · rintro rfl; cases hb
  | true =>
    cases i with
    | byteNew v => cases h; simp
    | byteStoreBit b => cases h; simp [State.storeByteBit]
    | byteStoreRandomBit => cases h; simp [State.storeByteBit]
    | byteToSeq => cases h; simp
    | byteFromSeq => cases h; split <;> simp
    | byteFromSeqBounded => cases h; split <;> simp
    | seqLoad len seq =>
      cases h
      split
      · simp [Instr.wf, State.illegal]; omega
      · simp [Instr.wf]; omega
    | byteFromStr => cases h; split <;> simp
    | byteToStr => cases h; simp
    | byteCmp v => cases h; simp
    | _ => cases hb

/-- Settles O32, from the record and the marks after a command, and the strict step over them. -/
theorem unspecReadsAreRecorded : Obligations.UnspecReadsAreRecorded := by
  refine ⟨fun i s t r hr h => ?_, fun i s hn => ⟨?_, ?_, ?_, ?_⟩, fun i s t h hne => ?_,
    fun i s hb => exec_byte_allWritten hb s, fun i s t _ hb hm hd h => strictStep_of_exec hb hm hd h,
    fun i s t h => exec_marks h⟩
  · rw [exec_record h, hr, Option.some_or]
  · rintro (⟨b, rfl⟩ | rfl | rfl | rfl | ⟨v, rfl⟩) hb <;>
      exact exec_records rfl hn (by simp [readsOf, ByteUnit.unspec, hb])
  · rintro (rfl | rfl) hq <;> exact exec_records rfl hn (by simp [readsOf, ByteUnit.unspec, hq])
  · rintro rfl h0
    exact exec_records rfl hn (by simp [readsOf, ByteUnit.unspec, h0])
  · rintro rfl h0 h1
    exact exec_records rfl hn (by simp [readsOf, ByteUnit.unspec, h0, h1])
  · obtain hsame | ⟨hn, r, hr, hu, ht⟩ := exec_record_cases h
    · exact absurd hsame hne
    · exact ⟨r, hr, hn, ht, ByteUnit.not_set_of_unspec hu⟩

end Sys2Proof.Machine
end

section
/-! SUPPORT. WIDTH, HEIGHT and PLEN during a walk. -/

namespace Sys2Proof.Machine

open Sys2Proof.Claims

/-- `s` with other values of WIDTH, HEIGHT and PLEN. -/
def State.withRegs (r : HostRegs) (s : State) : State := { s with regs := r }

variable (r : HostRegs) (s : State)

@[simp] theorem State.withRegs_status : (s.withRegs r).status = s.status := rfl
@[simp] theorem State.withRegs_cur : (s.withRegs r).cur = s.cur := rfl
@[simp] theorem State.withRegs_enc : (s.withRegs r).enc = s.enc := rfl
@[simp] theorem State.withRegs_dec : (s.withRegs r).dec = s.dec := rfl
@[simp] theorem State.withRegs_image : (s.withRegs r).image = s.image := rfl
@[simp] theorem State.withRegs_curPixel : (s.withRegs r).curPixel = s.curPixel := rfl
@[simp] theorem State.withRegs_feedOut : (s.withRegs r).feedOut = s.feedOut := rfl
@[simp] theorem State.withRegs_advanceOk : (s.withRegs r).advanceOk = s.advanceOk := rfl
@[simp] theorem State.withRegs_packPixel (k : Nat) (p : Pixel) :
    (s.withRegs r).packPixel k p = s.packPixel k p := rfl

/-! The parts of a walk step commute with the change of the registers. -/

theorem State.advance_withRegs : (s.withRegs r).advance = s.advance.withRegs r := by
  unfold State.advance
  simp only [State.withRegs_cur]
  cases s.cur.next <;> rfl

theorem State.afterPayload_withRegs (k : Nat) : (s.withRegs r).afterPayload k = (s.afterPayload k).withRegs r := by
  simp only [State.afterPayload, State.advance_withRegs, State.withRegs_enc, State.withRegs_advanceOk]
  split_ifs <;> rfl

theorem State.afterPadding_withRegs : (s.withRegs r).afterPadding = s.afterPadding.withRegs r := by
  simp only [State.afterPadding, State.advance_withRegs, State.withRegs_advanceOk]
  split_ifs <;> rfl

theorem State.feed_withRegs (t0 t1 t2 : Bool) : (s.withRegs r).feed t0 t1 t2 = (s.feed t0 t1 t2).withRegs r := by
  unfold State.feed
  rw [apply_ite (State.withRegs r)]
  exact ite_congr rfl (fun _ => rfl) (fun _ => rfl)

theorem State.afterFeed_withRegs : (s.withRegs r).afterFeed = s.afterFeed.withRegs r := by
  simp only [State.afterFeed, State.advance_withRegs, State.withRegs_advanceOk, State.withRegs_dec]
  split_ifs <;> rfl

theorem State.encPayload_withRegs : (s.withRegs r).encPayload = s.encPayload.map (State.withRegs r) := by
  unfold State.encPayload
  rw [apply_ite (Except.map _)]
  refine ite_congr rfl (fun _ => ?_) (fun _ => rfl)
  simp only [State.withRegs_enc, State.withRegs_curPixel, State.withRegs_packPixel]
  cases s.packPixel s.enc.take s.curPixel with
  | error f => rfl
  | ok q => exact congrArg Except.ok ((s.putCurPixel q).afterPayload_withRegs r s.enc.take)

theorem State.encPadding_withRegs : (s.withRegs r).encPadding = s.encPadding.map (State.withRegs r) := by
  unfold State.encPadding
  rw [apply_ite (Except.map _)]
  exact ite_congr rfl (fun _ => congrArg Except.ok (((s.draw 3).putCurPixel
    (s.curPixel.storeBits (s.randBit 0) (s.randBit 1) (s.randBit 2))).afterPadding_withRegs r)) (fun _ => rfl)

/-- One pixel of the encode walk, with other values of the registers. -/
theorem State.encPixel_withRegs : (s.withRegs r).encPixel = s.encPixel.map (State.withRegs r) := by
  simp only [State.encPixel, State.withRegs_status]
  cases s.status.eph with
  | payload => exact s.encPayload_withRegs r
  | padding => exact s.encPadding_withRegs r
  | idle | done | error => rfl

/-- One pixel of the decode walk, with other values of the registers. -/
theorem State.decPixel_withRegs : (s.withRegs r).decPixel = s.decPixel.map (State.withRegs r) := by
  simp only [State.decPixel, State.withRegs_status, State.withRegs_image, State.withRegs_cur, State.withRegs_feedOut,
    State.withRegs_curPixel, State.feed_withRegs, State.afterFeed_withRegs]
  split
  · split
    · cases s.feedOut <;> rfl
    · rfl
  · rfl

variable {s} {t : State}

theorem execDecFeed_withRegs {t0 t1 t2 : Bool} (h : execDecFeed t0 t1 t2 s = .next t) :
    execDecFeed t0 t1 t2 (s.withRegs r) = .next (t.withRegs r) := by
  unfold execDecFeed at h ⊢
  cases h
  simp only [State.withRegs_status, State.withRegs_feedOut, State.feed_withRegs]
  split
  · cases s.feedOut <;> rfl
  · rfl

/-- Settles O60: each walk step commutes with a change of the three registers. -/
theorem walkStepsIgnoreUnlatchedRegisters : Obligations.WalkStepsIgnoreUnlatchedRegisters := by
  intro s t r i hi h
  change exec i (s.withRegs r) = .next (t.withRegs r)
  obtain rfl | rfl | rfl | rfl | ⟨t0, t1, t2, rfl⟩ := hi
  · obtain ⟨u, hu, e, -⟩ | ⟨f, -, e, -⟩ := execEnc_cases s <;> cases e.symm.trans h
    simp only [exec, execEncStep, State.encPixel_withRegs, hu]
    rfl
  · obtain ⟨u, hu, -, e⟩ | ⟨f, -, -, e⟩ := execEnc_cases s <;> cases e.symm.trans h
    simp only [exec, execEncRun, State.encPixel_withRegs, hu]
    rfl
  · obtain ⟨u, hu, e, -⟩ | ⟨f, -, e, -⟩ := execDec_cases s <;> cases e.symm.trans h
    simp only [exec, execDecStep, State.decPixel_withRegs, hu]
    rfl
  · obtain ⟨u, hu, -, e⟩ | ⟨f, -, -, e⟩ := execDec_cases s <;> cases e.symm.trans h
    simp only [exec, execDecRun, State.decPixel_withRegs, hu]
    rfl
  · exact execDecFeed_withRegs r h

end Sys2Proof.Machine
end

section
/-! SUPPORT. The address map, and what the host port does in each part of it. -/

namespace Sys2Proof.Machine

open Sys2Proof.Claims

variable {p : Params} {a : Word} {i : Nat}

/-- No register lies past the last offset of 30_encoding.md R93. -/
theorem portReg_eq_none (h : 0x050 ≤ a.toNat) : portReg a = none := by
  unfold portReg
  split <;> simp at h ⊢

/-- An address in the PBUF window (20_memory.md R67). -/
theorem target_pbuf (ha : a.toNat = 0x10000000 + i) (hi : i < p.pbufMax) : target p a = .pbuf i := by
  rw [target, portReg_eq_none (by omega)]
  simp only [pbufBase, ha]
  rw [if_pos (by omega), Nat.add_sub_cancel_left]

/-- An address in the MBUF window (20_memory.md R68): PBUF_MAX is at most 2^28, so it lies past the PBUF window. -/
theorem target_mbuf (ha : a.toNat = 0x20000000 + i) (hi : i < p.mbufMax) : target p a = .mbuf i := by
  have hmax := p.legal.2.1.2
  rw [target, portReg_eq_none (by omega)]
  simp only [pbufBase, mbufBase, ha]
  rw [if_neg (by omega), if_pos (by omega), Nat.add_sub_cancel_left]

theorem target_reserved (h : reservedAddress p a) : target p a = .reserved := by
  obtain ⟨hreg, hpbuf, hmbuf⟩ := h
  rw [target, portReg_eq_none hreg]
  exact (if_neg hpbuf).trans (if_neg hmbuf)

/-- The k-th word of a window, as a number. -/
theorem toNat_windowWord {base k n : Nat} (hb : base ≤ 0x20000000) (hk : 4 * k < n) (hn : n ≤ 2 ^ 28) :
    (BitVec.ofNat 32 (base + 4 * k)).toNat = base + 4 * k := by
  rw [BitVec.toNat_ofNat]
  omega

/-- An access that is not an aligned 32-bit word (20_memory.md R71). -/
theorem aligned_eq_false {width : Nat} (h : a.toNat % 4 ≠ 0 ∨ width ≠ 32) : aligned a width = false := by
  unfold aligned
  obtain h | h := h <;> simp [h]

/-- Settles O13: both transactions begin with the check. -/
theorem unalignedHostAccessIsRefused : Obligations.UnalignedHostAccessIsRefused := by
  intro s a w width ms h
  have ha : ¬ aligned a width = true := by simp [aligned_eq_false h]
  exact ⟨fun hm => (step_of_move hm).trans (if_neg ha), fun hm => (step_of_move hm).trans (if_neg ha)⟩

/-! Reads. -/

/-- Lane j of a word that is built lane by lane (20_memory.md R70). -/
theorem lane_ofLanes_of_lt (f : Nat → Byte) {j : Nat} (hj : j < 4) :
    lane (ofLanes (f 0) (f 1) (f 2) (f 3)) j = f j := by
  obtain ⟨h0, h1, h2, h3⟩ := lane_ofLanes (f 0) (f 1) (f 2) (f 3)
  interval_cases j <;> assumption

variable {s : State} {draw : Word} {j : Nat}

theorem State.pbufLane_past (h : s.params.pbufMax ≤ i + j) : s.pbufLane draw i j = 0 := if_pos h

theorem State.pbufLane_written {v : Byte} (h : i + j < s.params.pbufMax)
    (hv : Memory.read .pbuf s.pbuf (i + j) = some v) : s.pbufLane draw i j = v := by
  rw [State.pbufLane, if_neg (by omega), hv, Option.getD_some]

theorem State.mbufLane_past (h : s.params.mbufMax ≤ i + j) : s.mbufLane draw i j = 0 := if_pos h

theorem State.mbufLane_written {v : Byte} (h : i + j < s.params.mbufMax) (hm : i + j < s.dec.mlen.toNat)
    (hv : Memory.read .mbuf s.mbuf (i + j) = some v) : s.mbufLane draw i j = v := by
  rw [State.mbufLane, if_neg (by omega), if_neg (by omega), hv, Option.getD_some]

/-- Settles O9: the address selects the word of the window, and the word is built lane by lane. -/
theorem bufferWindowReadsGiveTheBytes : Obligations.BufferWindowReadsGiveTheBytes := by
  refine ⟨fun s k ms hk hm => ?_, fun s k ms hk hm => ?_⟩
  · have ha := toNat_windowWord (base := 0x10000000) (by decide) hk s.params.legal.2.1.2
    refine ⟨_, step_of_read hm (by omega), fun j hj => ?_⟩
    rw [target_pbuf ha hk, State.readTarget, lane_ofLanes_of_lt (s.pbufLane _ (4 * k)) hj]
    exact ⟨State.pbufLane_past, fun h v hv => State.pbufLane_written h hv⟩
  · have ha := toNat_windowWord (base := 0x20000000) (by decide) hk s.params.legal.2.2.2
    refine ⟨_, step_of_read hm (by omega), fun j hj => ?_⟩
    rw [target_mbuf ha hk, State.readTarget, lane_ofLanes_of_lt (s.mbufLane _ (4 * k)) hj]
    exact ⟨State.mbufLane_past, fun h hl v hv => State.mbufLane_written h hl hv⟩

/-! Writes. -/

/-- An unlisted buffer byte has no value, so what is written is always listed, whatever the list was. -/
theorem Memory.read_write_pbuf_same (m : Memory) (a : Nat) (v : Byte) :
    Memory.read .pbuf (Memory.write .pbuf m a v) a = some v := by
  simp [Memory.read, Memory.write, Space.unlisted, Memory.lookup_insert_same]

/-- PBUF after one lane is written (20_memory.md R67). -/
theorem State.read_putPbufLane (s : State) (w : Word) (i j a : Nat) :
    Memory.read .pbuf (s.putPbufLane w i j).pbuf a =
      if a = i + j ∧ a < s.params.pbufMax then some (lane w j) else Memory.read .pbuf s.pbuf a := by
  unfold State.putPbufLane
  split
  · rw [if_neg (by omega)]
  · by_cases ha : a = i + j
    · subst ha
      rw [if_pos (by omega), Memory.read_write_pbuf_same]
    · rw [if_neg (by omega), Memory.read_write_other _ _ ha]

/-- A lane's write changes PBUF alone. -/
theorem State.putPbufLane_eq (s : State) (w : Word) (i j : Nat) :
    ∃ m, s.putPbufLane w i j = { s with pbuf := m } := by
  unfold State.putPbufLane
  split
  · exact ⟨s.pbuf, rfl⟩
  · exact ⟨_, rfl⟩

/-- PBUF after a word is written (R67). -/
theorem State.read_writeTarget_pbuf (s : State) (w : Word) (i a : Nat) :
    Memory.read .pbuf (s.writeTarget w (.pbuf i)).pbuf a =
      if i ≤ a ∧ a < i + 4 ∧ a < s.params.pbufMax then some (lane w (a - i)) else Memory.read .pbuf s.pbuf a := by
  simp only [State.writeTarget, State.read_putPbufLane, State.putPbufLane_params]
  by_cases ha : i ≤ a ∧ a < i + 4
  · obtain ⟨j, rfl⟩ := Nat.exists_eq_add_of_le ha.1
    have hj : j < 4 := by omega
    interval_cases j <;> simp
  · rw [if_neg (by omega), if_neg (by omega), if_neg (by omega), if_neg (by omega), if_neg (by omega)]

theorem State.writeTarget_pbuf_eq (s : State) (w : Word) (i : Nat) :
    ∃ m, s.writeTarget w (.pbuf i) = { s with pbuf := m } := by
  obtain ⟨m0, e0⟩ := s.putPbufLane_eq w i 0
  obtain ⟨m1, e1⟩ := State.putPbufLane_eq { s with pbuf := m0 } w i 1
  obtain ⟨m2, e2⟩ := State.putPbufLane_eq { s with pbuf := m1 } w i 2
  obtain ⟨m3, e3⟩ := State.putPbufLane_eq { s with pbuf := m2 } w i 3
  exact ⟨m3, by rw [State.writeTarget, e0, e1, e2, e3]⟩

/-- Settles O10: the address selects the word, whose lanes are written one after the other. -/
theorem pbufWritesStoreTheirLanes : Obligations.PbufWritesStoreTheirLanes := by
  intro s k w ms hk hm
  have ha := toNat_windowWord (base := 0x10000000) (by decide) hk s.params.legal.2.1.2
  obtain ⟨m, e⟩ := (s.setMoves ms).writeTarget_pbuf_eq w (4 * k)
  have hread : ∀ a, Memory.read .pbuf m a = if 4 * k ≤ a ∧ a < 4 * k + 4 ∧ a < s.params.pbufMax then
      some (lane w (a - 4 * k)) else Memory.read .pbuf s.pbuf a := fun a => by
    have h := (s.setMoves ms).read_writeTarget_pbuf w (4 * k) a
    rw [e] at h
    exact h
  refine ⟨m, ?_, fun j hj hlt => ?_, fun a hout => ?_⟩
  · rw [step_of_write hm (by omega), target_pbuf ha hk, e]
  · rw [hread, if_pos (by omega), Nat.add_sub_cancel_left]
  · rw [hread, if_neg hout]

/-- A read-only register ignores a write (30_encoding.md R90, R93). -/
theorem writeTarget_readOnly (h : a ∈ readOnlyOffsets) (s : State) (w : Word) (p : Params) :
    s.writeTarget w (target p a) = s := by
  simp only [readOnlyOffsets, List.mem_cons, List.not_mem_nil, or_false] at h
  obtain rfl | rfl | rfl | rfl | rfl | rfl | rfl | rfl | rfl | rfl | rfl | rfl | rfl | rfl := h <;> rfl

/-- Settles O12: a reserved address selects nothing, and none of the others takes a write. -/
theorem reservedAndReadOnlyAddresses : Obligations.ReservedAndReadOnlyAddresses := by
  intro s a w ms h4
  refine ⟨fun hm hr => ?_, fun hm ha => ?_⟩
  · rw [step_of_read hm h4, target_reserved hr, State.readTarget]
  · rw [step_of_write hm h4]
    obtain hr | hro | ⟨hlo, hhi⟩ := ha
    · rw [target_reserved hr, State.writeTarget]
    · rw [writeTarget_readOnly hro]
    · rw [target_mbuf (i := a.toNat - 0x20000000) (by omega) (by omega), State.writeTarget]

end Sys2Proof.Machine
end

section
/-! SUPPORT. Which stops a command has, and the moves of the image layer. -/

namespace Sys2Proof.Machine

open Sys2Proof.Claims

variable {s t : State} {f : Fault}

/-- Why a pixel of the encode walk stops: the open image does not have it, or one of its payload bits does not exist
(20_memory.md R60, 42_encoder.md R202). -/
theorem State.encPixel_error (h : s.encPixel = .error f) :
    (s.image.has s.cur.x s.cur.y = false ∧ f = .pixelOutsideImage s.cur.x s.cur.y) ∨
      (s.status.eph = .payload ∧ ∃ j, j < s.enc.take ∧ s.payloadBit (s.enc.i.toNat + j) = .error f) := by
  unfold State.encPixel at h
  cases he : s.status.eph <;> simp only [he] at h
  case payload =>
    unfold State.encPayload at h
    split at h
    · cases hp : s.packPixel s.enc.take s.curPixel <;> simp only [hp] at h <;> cases h
      obtain ⟨j, -, hj, hb⟩ := State.packPixel_error hp
      exact .inr ⟨rfl, j, hj, hb⟩
    · cases h
      exact .inl ⟨Bool.eq_false_iff.mpr ‹_›, rfl⟩
  case padding =>
    unfold State.encPadding at h
    split at h <;> cases h
    exact .inl ⟨Bool.eq_false_iff.mpr ‹_›, rfl⟩
  all_goals cases h

/-- Why a pixel of the decode walk stops (20_memory.md R60). -/
theorem State.decPixel_error (h : s.decPixel = .error f) :
    s.image.has s.cur.x s.cur.y = false ∧ f = .pixelOutsideImage s.cur.x s.cur.y := by
  unfold State.decPixel at h
  split at h
  · split at h
    · cases hf : s.feedOut <;> simp only [hf] at h <;> cases h
    · cases h
      exact ⟨Bool.eq_false_iff.mpr ‹_›, rfl⟩
  · cases h

/-- Only a walk step at a pixel stops, and only where its pixel does. -/
theorem exec_fault {i : Instr} (h : exec i s = .fault f) :
    ((i = .encStep ∨ i = .encRun) ∧ s.encPixel = .error f) ∨
      ((i = .decStep ∨ i = .decRun) ∧ s.decPixel = .error f) := by
  cases i with
  | encStep =>
    obtain ⟨u, -, e, -⟩ | ⟨g, hg, e, -⟩ := execEnc_cases s <;> cases e.symm.trans h
    exact .inl ⟨.inl rfl, hg⟩
  | encRun =>
    obtain ⟨u, -, -, e⟩ | ⟨g, hg, -, e⟩ := execEnc_cases s <;> cases e.symm.trans h
    exact .inl ⟨.inr rfl, hg⟩
  | decStep =>
    obtain ⟨u, -, e, -⟩ | ⟨g, hg, e, -⟩ := execDec_cases s <;> cases e.symm.trans h
    exact .inr ⟨.inl rfl, hg⟩
  | decRun =>
    obtain ⟨u, -, -, e⟩ | ⟨g, hg, -, e⟩ := execDec_cases s <;> cases e.symm.trans h
    exact .inr ⟨.inr rfl, hg⟩
  | _ => cases h

/-- The sequencer is never the one that touches the pixels from outside. -/
theorem exec_ne_noPixelMove {i : Instr} : exec i s ≠ .fault .noPixelMove := by
  intro h
  obtain ⟨-, he⟩ | ⟨-, hd⟩ := exec_fault h
  · obtain ⟨-, e⟩ | ⟨-, j, -, hb⟩ := State.encPixel_error he
    · cases e
    · obtain ⟨-, -, e⟩ | ⟨-, e⟩ := State.payloadBit_error hb <;> cases e
  · cases (State.decPixel_error hd).2

theorem seqStep_ne_noPixelMove : seqStep s ≠ .fault .noPixelMove := by
  unfold seqStep
  split
  · exact exec_ne_noPixelMove
  · nofun

theorem sequencerTurn_ne_noPixelMove : sequencerTurn s ≠ .fault .noPixelMove := by
  unfold sequencerTurn
  split
  · exact seqStep_ne_noPixelMove
  · nofun

theorem hostRead_ne_fault {a : Word} {n : Nat} : hostRead a n s ≠ .fault f := by
  unfold hostRead
  split <;> nofun

theorem hostWrite_ne_fault {a w : Word} {n : Nat} : hostWrite a n w s ≠ .fault f := by
  unfold hostWrite
  split <;> nofun

/-! The image layer's pixel moves (20_memory.md R74). -/

variable {x y : Coord}

theorem imageMove_in_walk (hw : s.status.walkActive = true) : imageMove x y s t = .fault .noPixelMove := if_pos hw

theorem imageMove_outside (hw : s.status.walkActive = false) (hi : s.image.has x y = false) :
    imageMove x y s t = .fault (.pixelOutsideImage x y) := by
  simp [imageMove, hw, hi]

theorem imageMove_between_walks (hw : s.status.walkActive = false) (hi : s.image.has x y = true) :
    imageMove x y s t = .next t := by
  simp [imageMove, hw, hi]

theorem imageMove_noPixelMove (h : imageMove x y s t = .fault .noPixelMove) : s.status.walkActive = true := by
  unfold imageMove at h
  split at h
  · assumption
  · split at h <;> cases h

/-- The stop comes from a move at the pixels during a walk, and from no other. -/
theorem applyMove_noPixelMove {m : Move} (h : applyMove m s = .fault .noPixelMove) :
    s.status.walkActive = true ∧ m.touchesPixels = true := by
  cases m with
  | read a n => exact absurd h hostRead_ne_fault
  | write a n w => exact absurd h hostWrite_ne_fault
  | pass => exact absurd h sequencerTurn_ne_noPixelMove
  | wait =>
    simp only [applyMove] at h
    split at h
    · exact absurd h seqStep_ne_noPixelMove
    · exact absurd h hostRead_ne_fault
  | test mask v n => cases h
  | reset => cases h
  | openImage w l =>
    simp only [applyMove] at h
    split at h
    · exact ⟨‹_›, rfl⟩
    · cases h
  | putPixel x y p => exact ⟨imageMove_noPixelMove h, rfl⟩
  | getPixel x y => exact ⟨imageMove_noPixelMove h, rfl⟩

theorem step_noPixelMove (h : step s = .fault .noPixelMove) :
    s.status.walkActive = true ∧ ∃ m ms, s.env.moves = m :: ms ∧ m.touchesPixels = true := by
  cases hm : s.env.moves with
  | nil => exact absurd (step_of_no_moves hm ▸ h) sequencerTurn_ne_noPixelMove
  | cons m ms =>
    obtain ⟨hw, ht⟩ := applyMove_noPixelMove (step_of_move hm ▸ h)
    exact ⟨hw, m, ms, rfl, ht⟩

theorem run_succ_of_next (k : Nat) (h : step s = .next t) :
    Sys2Proof.core.run (k + 1) s = Sys2Proof.core.run k t := by
  have h' : Sys2Proof.core.step s = .next t := h
  simp only [Host.Core.run, h']

/-- What is exclusive stays so. -/
theorem State.exclusive.after_step (h : s.exclusive) (hs : step s = .next t) : t.exclusive :=
  fun k u m ms hr => h (k + 1) u m ms (by rw [run_succ_of_next k hs, hr])

/-- An exclusive run never meets the stop (70_reset_and_hazards.md R325, R334). -/
theorem State.exclusive.run_ne_noPixelMove (h : s.exclusive) (k : Nat) :
    Sys2Proof.core.run k s ≠ .fault .noPixelMove := by
  induction k generalizing s with
  | zero => nofun
  | succ k ih =>
    cases hs : step s with
    | next t => rw [run_succ_of_next k hs]; exact ih (h.after_step hs)
    | fault f =>
      have hs' : Sys2Proof.core.step s = .fault f := hs
      simp only [Host.Core.run, hs']
      rintro ⟨⟩
      obtain ⟨hw, m, ms, hm, ht⟩ := step_noPixelMove hs
      simp [h 0 s m ms rfl hw hm] at ht
    | refused r =>
      have hs' : Sys2Proof.core.step s = .refused r := hs
      simp only [Host.Core.run, hs']
      nofun

/-- Settles O14, from what an image move is during a walk, outside the image and at one of its pixels, and by induction
over an exclusive run. -/
theorem imageLayerMovesOnlyBetweenWalks : Obligations.ImageLayerMovesOnlyBetweenWalks := by
  refine ⟨fun s m ms x y w h p hm => ⟨?_, ?_, ?_, ?_, ?_⟩, fun s k h => h.run_ne_noPixelMove k⟩ <;>
    rw [step_of_move hm]
  · rintro (rfl | rfl | rfl) hw
    · exact imageMove_in_walk hw
    · exact imageMove_in_walk hw
    · exact if_pos hw
  · rintro rfl hw
    exact if_neg (by simp [hw])
  · rintro (rfl | rfl) hw hi <;> exact imageMove_outside hw hi
  · rintro rfl hw hi
    exact imageMove_between_walks hw hi
  · rintro rfl hw hi hwf
    exact ⟨_, imageMove_between_walks hw hi, rfl, rfl, Image.pixRead_pixWrite_same hwf x y p,
      fun x' y' hne => Image.pixRead_pixWrite_other _ p hne⟩

end Sys2Proof.Machine
end

section
/-! SUPPORT. What a command does to the image, to MBUF and to the draws. -/

namespace Sys2Proof.Machine

open Sys2Proof.Claims

variable {i : Instr} {s t : State}

/-- ENC_STEP or ENC_RUN has written at most the pixel at the cursor, in its LSBs, and drawn three times if it pads
(42_encoder.md R203, R205, R211). -/
structure EncodeEffect (s t : State) : Prop where
  mbuf : t.mbuf = s.mbuf
  draws : t.env.draws = s.env.draws + if s.status.eph = .padding then 3 else 0
  image : t.image = s.image ∨ ∃ q, s.curPixel.sameButLsbs q ∧ t.image = s.image.pixWrite s.cur.x s.cur.y q

/-- A decoder command has drawn nothing and written MBUF at most at MLEN, while RUNNING (43_decoder.md R243, R254). -/
structure DecodeEffect (s t : State) : Prop where
  image : t.image = s.image
  draws : t.env.draws = s.env.draws
  mbuf : t.mbuf = s.mbuf ∨
    s.status.dph = .running ∧ t.mbuf = Memory.write .mbuf s.mbuf s.dec.mlen.toNat s.dec.accV

theorem State.encPixel_effect (h : s.encPixel = .ok t) (b : Bool) : EncodeEffect s (t.setBusy b) := by
  obtain ⟨c, n, st, img, rfl, -, -, himg, -⟩ := State.encPixel_frame h
  exact ⟨rfl, rfl, himg⟩

theorem State.decPixel_effect (h : s.decPixel = .ok t) (b : Bool) : DecodeEffect s (t.setBusy b) := by
  obtain ⟨c, d, m, st, rfl, -, -, hm⟩ := State.decPixel_frame h
  exact ⟨rfl, rfl, hm⟩

theorem execDecFeed_effect {t0 t1 t2 : Bool} (h : execDecFeed t0 t1 t2 s = .next t) : DecodeEffect s t := by
  obtain ⟨-, e⟩ | ⟨hr, ⟨-, e⟩ | ⟨-, e⟩ | ⟨-, e⟩⟩ := execDecFeed_cases t0 t1 t2 s <;> cases e.symm.trans h
  · exact ⟨rfl, rfl, .inl rfl⟩
  · exact ⟨rfl, rfl, .inl rfl⟩
  · exact ⟨rfl, rfl, .inl rfl⟩
  · obtain ⟨d, m, e, hpart, hfull⟩ := s.feed_eq t0 t1 t2
    rw [e]
    refine ⟨rfl, rfl, ?_⟩
    by_cases h8 : s.dec.accLen = 8#4
    · exact .inr ⟨hr, (hfull h8).1⟩
    · exact .inl (hpart h8).1

/-- A command that takes no step of a walk touches neither the image nor MBUF, and draws once if it is
BYTE_STORE_RANDOM_BIT (20_memory.md R65). -/
theorem exec_effect_outside_walks (hp : isPixelCommand i = false) (hf : ∀ t0 t1 t2, i ≠ .decFeed t0 t1 t2)
    (h : exec i s = .next t) :
    t.image = s.image ∧ t.mbuf = s.mbuf ∧
      t.env.draws = s.env.draws + if i = .byteStoreRandomBit then 1 else 0 := by
  cases i with
  | nop | byteNew _ | byteStoreBit _ | byteStoreRandomBit | byteToSeq | byteToStr | byteCmp _ | softReset =>
    cases h; exact ⟨rfl, rfl, rfl⟩
  | byteFromSeq | byteFromSeqBounded | seqLoad _ _ | byteFromStr | curInBoundsX _ | curInBoundsY _ | curCapacity =>
    cases h; split <;> exact ⟨rfl, rfl, rfl⟩
  | curInit =>
    cases h
    split
    · exact ⟨rfl, rfl, rfl⟩
    · split <;> exact ⟨rfl, rfl, rfl⟩
  | curAdvance =>
    cases h
    split
    · exact ⟨rfl, rfl, rfl⟩
    · split
      · exact ⟨rfl, rfl, rfl⟩
      · split <;> exact ⟨s.advance_image, s.advance_mbuf, congrArg Env.draws s.advance_env⟩
  | encStart =>
    cases h
    obtain ⟨-, e⟩ | ⟨-, p, c, e, -⟩ := s.encStart_cases <;> rw [e] <;> exact ⟨rfl, rfl, rfl⟩
  | decStart =>
    cases h
    obtain ⟨q, c, e, -⟩ := s.decStart_cases
    rw [e]
    exact ⟨rfl, rfl, rfl⟩
  | decFeed t0 t1 t2 => exact absurd rfl (hf t0 t1 t2)
  | encStep | encRun | decStep | decRun => cases hp

/-- What any command does to the image, to MBUF and to the draws. -/
theorem exec_effect (h : exec i s = .next t) :
    ((i = .encStep ∨ i = .encRun) ∧ EncodeEffect s t) ∨ (isDecoderCommand i = true ∧ DecodeEffect s t) ∨
      (i ≠ .encStep ∧ i ≠ .encRun ∧ t.image = s.image ∧ t.mbuf = s.mbuf ∧
        t.env.draws = s.env.draws + if i = .byteStoreRandomBit then 1 else 0) := by
  cases i with
  | encStep =>
    obtain ⟨u, hu, e, -⟩ | ⟨f, -, e, -⟩ := execEnc_cases s <;> cases e.symm.trans h
    exact .inl ⟨.inl rfl, State.encPixel_effect hu _⟩
  | encRun =>
    obtain ⟨u, hu, -, e⟩ | ⟨f, -, -, e⟩ := execEnc_cases s <;> cases e.symm.trans h
    exact .inl ⟨.inr rfl, State.encPixel_effect hu _⟩
  | decStep =>
    obtain ⟨u, hu, e, -⟩ | ⟨f, -, e, -⟩ := execDec_cases s <;> cases e.symm.trans h
    exact .inr (.inl ⟨rfl, State.decPixel_effect hu _⟩)
  | decRun =>
    obtain ⟨u, hu, -, e⟩ | ⟨f, -, -, e⟩ := execDec_cases s <;> cases e.symm.trans h
    exact .inr (.inl ⟨rfl, State.decPixel_effect hu _⟩)
  | decFeed t0 t1 t2 => exact .inr (.inl ⟨rfl, execDecFeed_effect h⟩)
  | _ => exact .inr (.inr ⟨nofun, nofun, exec_effect_outside_walks rfl nofun h⟩)

/-- A command leaves the image, or is ENC_STEP or ENC_RUN and writes the pixel at the cursor in its LSBs. -/
theorem exec_image (h : exec i s = .next t) :
    t.image = s.image ∨ ((i = .encStep ∨ i = .encRun) ∧
      ∃ q, s.curPixel.sameButLsbs q ∧ t.image = s.image.pixWrite s.cur.x s.cur.y q) := by
  obtain ⟨hi, he⟩ | ⟨-, hd⟩ | ⟨-, -, e, -⟩ := exec_effect h
  · exact he.image.imp_right fun hq => ⟨hi, hq⟩
  · exact .inl hd.image
  · exact .inl e

theorem Pixel.sameButLsbs_refl (p : Pixel) : p.sameButLsbs p := ⟨rfl, rfl, rfl, rfl⟩

/-- The pixel at the cursor written with its LSBs replaced: every pixel keeps all but its LSBs (20_memory.md R63). -/
theorem State.pixWrite_sameButLsbs {q : Pixel} (hwf : Memory.wf .pixels s.image.mem = true)
    (hq : s.curPixel.sameButLsbs q) (x y : Coord) :
    (s.image.pixRead x y).sameButLsbs ((s.image.pixWrite s.cur.x s.cur.y q).pixRead x y) := by
  by_cases hc : x = s.cur.x ∧ y = s.cur.y
  · obtain ⟨rfl, rfl⟩ := hc
    rw [Image.pixRead_pixWrite_same hwf]
    exact hq
  · rw [Image.pixRead_pixWrite_other _ _ hc]
    exact Pixel.sameButLsbs_refl _

/-- Settles O57: a command leaves the image, or writes the pixel at the cursor in its LSBs. -/
theorem commandsChangeOnlyLsbs : Obligations.CommandsChangeOnlyLsbs := by
  intro i s t hwf h
  obtain e | ⟨hi, q, hq, e⟩ := exec_image h <;> rw [e]
  · exact ⟨rfl, rfl, fun _ _ => rfl, fun x y => ⟨Pixel.sameButLsbs_refl _, fun _ => rfl⟩⟩
  · exact ⟨rfl, rfl, fun h1 h2 => (hi.elim h1 h2).elim, fun x y =>
      ⟨State.pixWrite_sameButLsbs hwf hq x y, fun hne => Image.pixRead_pixWrite_other _ q hne⟩⟩

/-- Settles O58: the draws and the writes to MBUF, kind by kind. -/
theorem drawsAndBufferWritesByCommand : Obligations.DrawsAndBufferWritesByCommand := by
  intro i s t h
  obtain ⟨-, -, -, hpbuf, -⟩ := exec_keeps h
  refine ⟨hpbuf, ?_⟩
  obtain ⟨hi, he⟩ | ⟨hi, hd⟩ | ⟨h1, h2, -, e, hdraws⟩ := exec_effect h
  · have hb : i ≠ .byteStoreRandomBit := by obtain rfl | rfl := hi <;> nofun
    refine ⟨?_, fun hne => absurd he.mbuf hne, fun a _ => by rw [he.mbuf]⟩
    rw [he.draws, if_neg hb]
    simp [hi]
  · refine ⟨?_, fun hne => ⟨(hd.mbuf.resolve_left hne).1, hi⟩, fun a ha => ?_⟩
    · rw [hd.draws, if_neg (by rintro rfl; cases hi), if_neg (by rintro ⟨rfl | rfl, -⟩ <;> cases hi), Nat.add_zero]
    · obtain e | ⟨-, e⟩ := hd.mbuf <;> rw [e]
      exact Memory.read_write_other _ _ ha
  · refine ⟨?_, fun hne => absurd e hne, fun a _ => by rw [e]⟩
    simp [hdraws, h1, h2]

end Sys2Proof.Machine
end

section
/-! SUPPORT. Command words as concatenated fields: decode and encode agree. -/

namespace Sys2Proof

/-! Words of fields (00_scope.md R9). -/

/-- A concatenation is known by its two fields. -/
theorem eq_append_iff {k n : Nat} {w : BitVec (k + n)} {a : BitVec k} {b : BitVec n} :
    w = a ++ b ↔ w.extractLsb' n k = a ∧ w.extractLsb' 0 n = b := by
  constructor
  · rintro rfl
    exact ⟨BitVec.extractLsb'_append_eq_left, BitVec.extractLsb'_append_eq_right⟩
  · rintro ⟨rfl, rfl⟩
    rw [BitVec.extractLsb'_append_extractLsb'_eq_extractLsb' (Nat.zero_add n).symm, BitVec.extractLsb'_eq_self]

/-- A field of a field. -/
theorem extractLsb'_extractLsb' {m a n b k : Nat} (w : BitVec m) (h : b + k ≤ n) :
    (w.extractLsb' a n).extractLsb' b k = w.extractLsb' (a + b) k := by
  ext i hi
  simp only [BitVec.getElem_extractLsb', BitVec.getLsbD_extractLsb']
  rw [decide_eq_true (by omega), Bool.true_and, Nat.add_assoc]

/-- A concatenation of three fields is known by them. -/
theorem eq_append_append_iff {k m n : Nat} {w : BitVec (k + m + n)} {a : BitVec k} {b : BitVec m} {c : BitVec n} :
    w = a ++ b ++ c ↔ w.extractLsb' (n + m) k = a ∧ w.extractLsb' n m = b ∧ w.extractLsb' 0 n = c := by
  rw [eq_append_iff, eq_append_iff, extractLsb'_extractLsb' w (by omega),
    extractLsb'_extractLsb' w (by omega), Nat.add_zero, and_assoc]

/-- A field of one bit. -/
theorem extractLsb'_one_eq_ofBool_iff {m : Nat} {w : BitVec m} {a : Nat} {b : Bool} :
    w.extractLsb' a 1 = BitVec.ofBool b ↔ w.getLsbD a = b := by
  have hbit : w.extractLsb' a 1 = BitVec.ofBool (w.getLsbD a) := by
    ext i hi
    obtain rfl : i = 0 := by omega
    simp
  rw [hbit, BitVec.ofBool_eq_iff_eq]

/-! The formats of 30_encoding.md R94, each as the words it accepts where OP is known. -/

theorem ite_eq_ok_iff {p : Prop} [Decidable p] {e : DecodeError} {i j : Instr} :
    (if p then Except.ok i else .error e) = .ok j ↔ p ∧ j = i := by
  split <;> simp [*, eq_comm]

section
variable {w : Word} {op : BitVec 6} {i j : Instr}

theorem decodeN_eq_ok_iff (h : opField w = op) : decodeN i w = .ok j ↔ w = op ++ 0#26 ∧ j = i := by
  rw [decodeN, ite_eq_ok_iff, eq_append_iff (k := 6) (n := 26), and_iff_right (a := w.extractLsb' 26 6 = op) h]
  rfl

theorem decodeV8_eq_ok_iff {f : Byte → Instr} (h : opField w = op) :
    decodeV8 f w = .ok j ↔ ∃ v, w = op ++ 0#18 ++ v ∧ j = f v := by
  subst h
  simp [decodeV8, ite_eq_ok_iff, eq_append_append_iff (k := 6) (m := 18) (n := 8), opField]

theorem decodeC24_eq_ok_iff {f : Coord → Instr} (h : opField w = op) :
    decodeC24 f w = .ok j ↔ ∃ v, w = op ++ 0#2 ++ v ∧ j = f v := by
  subst h
  simp [decodeC24, ite_eq_ok_iff, eq_append_append_iff (k := 6) (m := 2) (n := 24), opField, and_assoc]

theorem decodeBit_eq_ok_iff {f : Bool → Instr} (h : opField w = op) :
    decodeBit f w = .ok j ↔ ∃ b, w = op ++ 0#25 ++ BitVec.ofBool b ∧ j = f b := by
  subst h
  simp only [decodeBit, ite_eq_ok_iff, eq_append_append_iff (k := 6) (m := 25) (n := 1), opField, and_assoc,
    extractLsb'_one_eq_ofBool_iff]
  simp [-BitVec.getLsbD_eq_getElem]

theorem decodeQ_eq_ok_iff {f : BitVec 5 → BitVec 16 → Instr} (h : opField w = op) :
    decodeQ f w = .ok j ↔ ∃ len seq, w = op ++ 0#5 ++ len ++ seq ∧ len.toNat ≤ 16 ∧ j = f len seq := by
  subst h
  simp only [eq_append_iff (k := 16) (n := 16), eq_append_append_iff (k := 6) (m := 5) (n := 5), opField,
    extractLsb'_extractLsb', Nat.reduceAdd, Nat.reduceLeDiff, and_assoc]
  unfold decodeQ
  split
  · next hz => simp [show w.extractLsb' 21 5 ≠ 0#5 from hz]
  · split <;> simp_all [eq_comm]

theorem decodeT3_eq_ok_iff {f : Bool → Bool → Bool → Instr} (h : opField w = op) :
    decodeT3 f w = .ok j ↔ ∃ t0 t1 t2,
      w = op ++ 0#23 ++ BitVec.ofBool t2 ++ BitVec.ofBool t1 ++ BitVec.ofBool t0 ∧ j = f t0 t1 t2 := by
  subst h
  simp only [decodeT3, ite_eq_ok_iff, opField, and_assoc, eq_append_iff (k := 31) (n := 1),
    eq_append_iff (k := 30) (n := 1), eq_append_append_iff (k := 6) (m := 23) (n := 1),
    extractLsb'_one_eq_ofBool_iff]
  simp [-BitVec.getLsbD_eq_getElem, extractLsb'_extractLsb']

end

/-! The opcodes whose format has operands. -/

section
variable {w : Word}

theorem decode_byteNew (h : opField w = 0x01#6) : decode w = decodeV8 .byteNew w := by
  rw [decode, h]
  rfl

theorem decode_byteStoreBit (h : opField w = 0x02#6) : decode w = decodeBit .byteStoreBit w := by
  rw [decode, h]
  rfl

theorem decode_seqLoad (h : opField w = 0x07#6) : decode w = decodeQ .seqLoad w := by
  rw [decode, h]
  rfl

theorem decode_byteCmp (h : opField w = 0x0A#6) : decode w = decodeV8 .byteCmp w := by
  rw [decode, h]
  rfl

theorem decode_curInBoundsX (h : opField w = 0x12#6) : decode w = decodeC24 .curInBoundsX w := by
  rw [decode, h]
  rfl

theorem decode_curInBoundsY (h : opField w = 0x13#6) : decode w = decodeC24 .curInBoundsY w := by
  rw [decode, h]
  rfl

theorem decode_decFeed (h : opField w = 0x2B#6) : decode w = decodeT3 .decFeed w := by
  rw [decode, h]
  rfl

end

/-- A word decodes to a command exactly if it is the command's word and LEN is in range. -/
theorem decode_eq_ok_iff {w : Word} {i : Instr} : decode w = .ok i ↔ encode i = w ∧ i.wf = true := by
  constructor
  · intro h
    unfold decode at h
    split at h
    case h_2 hop | h_11 hop =>
      obtain ⟨v, rfl, rfl⟩ := (decodeV8_eq_ok_iff hop).mp h
      exact ⟨rfl, rfl⟩
    case h_3 hop =>
      obtain ⟨b, rfl, rfl⟩ := (decodeBit_eq_ok_iff hop).mp h
      exact ⟨rfl, rfl⟩
    case h_8 hop =>
      obtain ⟨len, seq, rfl, hlen, rfl⟩ := (decodeQ_eq_ok_iff hop).mp h
      exact ⟨rfl, decide_eq_true hlen⟩
    case h_14 hop | h_15 hop =>
      obtain ⟨c, rfl, rfl⟩ := (decodeC24_eq_ok_iff hop).mp h
      exact ⟨rfl, rfl⟩
    case h_23 hop =>
      obtain ⟨t0, t1, t2, rfl, rfl⟩ := (decodeT3_eq_ok_iff hop).mp h
      exact ⟨rfl, rfl⟩
    case h_25 => cases h
    -- What is left has format N.
    all_goals
      rename_i hop
      obtain ⟨rfl, rfl⟩ := (decodeN_eq_ok_iff hop).mp h
      exact ⟨rfl, rfl⟩
  · rintro ⟨rfl, hwf⟩
    cases i with
    | byteNew v =>
      have hop : opField (encode (.byteNew v)) = 0x01#6 := (eq_append_append_iff.mp rfl).1
      exact (decode_byteNew hop).trans ((decodeV8_eq_ok_iff hop).mpr ⟨v, rfl, rfl⟩)
    | byteCmp v =>
      have hop : opField (encode (.byteCmp v)) = 0x0A#6 := (eq_append_append_iff.mp rfl).1
      exact (decode_byteCmp hop).trans ((decodeV8_eq_ok_iff hop).mpr ⟨v, rfl, rfl⟩)
    | curInBoundsX c =>
      have hop : opField (encode (.curInBoundsX c)) = 0x12#6 := (eq_append_append_iff.mp rfl).1
      exact (decode_curInBoundsX hop).trans ((decodeC24_eq_ok_iff hop).mpr ⟨c, rfl, rfl⟩)
    | curInBoundsY c =>
      have hop : opField (encode (.curInBoundsY c)) = 0x13#6 := (eq_append_append_iff.mp rfl).1
      exact (decode_curInBoundsY hop).trans ((decodeC24_eq_ok_iff hop).mpr ⟨c, rfl, rfl⟩)
    | seqLoad len seq =>
      have hop : opField (encode (.seqLoad len seq)) = 0x07#6 :=
        (BitVec.extractLsb'_append_eq_of_le (by decide)).trans (eq_append_append_iff.mp rfl).1
      exact (decode_seqLoad hop).trans ((decodeQ_eq_ok_iff hop).mpr ⟨len, seq, rfl, of_decide_eq_true hwf, rfl⟩)
    | byteStoreBit b => cases b <;> rfl
    | decFeed t0 t1 t2 => cases t0 <;> cases t1 <;> cases t2 <;> rfl
    | nop | byteStoreRandomBit | byteToSeq | byteFromSeq | byteFromSeqBounded | byteFromStr | byteToStr | curInit
    | curAdvance | curCapacity | encStart | encStep | encRun | decStart | decStep | decRun | softReset => rfl

/-- Settles O2: the command's own word is a word that decodes to it. -/
theorem decodeOfEncodeIsTheCommand : Obligations.DecodeOfEncodeIsTheCommand :=
  fun _ hwf => decode_eq_ok_iff.mpr ⟨rfl, hwf⟩

/-- Settles O3: no other word decodes to the command. -/
theorem encodeOfDecodeIsTheWord : Obligations.EncodeOfDecodeIsTheWord :=
  fun _ _ h => decode_eq_ok_iff.mp h

/-- Settles O1: each word is evaluated. -/
theorem workedEncodingsDecode : Obligations.WorkedEncodingsDecode :=
  ⟨⟨rfl, rfl⟩, ⟨rfl, rfl⟩, ⟨rfl, rfl⟩, ⟨rfl, rfl⟩, ⟨rfl, rfl⟩, ⟨rfl, rfl⟩, ⟨rfl, rfl⟩, ⟨rfl, rfl⟩, rfl, rfl, rfl⟩

end Sys2Proof
end

section
/-! SUPPORT. The opcode map: which words decode, and what a word that does not decode does. -/

namespace Sys2Proof.Laws

/-- The word of every command lies under its row (30_encoding.md R96). -/
theorem encodeFits (i : Instr) : EncodeFits.Statement i := by
  cases i with
  | nop => exact EncodeFits.nop
  | byteNew v => exact EncodeFits.byteNew v
  | byteStoreBit b => exact EncodeFits.byteStoreBit b
  | byteStoreRandomBit => exact EncodeFits.byteStoreRandomBit
  | byteToSeq => exact EncodeFits.byteToSeq
  | byteFromSeq => exact EncodeFits.byteFromSeq
  | byteFromSeqBounded => exact EncodeFits.byteFromSeqBounded
  | seqLoad len seq => exact EncodeFits.seqLoad len seq
  | byteFromStr => exact EncodeFits.byteFromStr
  | byteToStr => exact EncodeFits.byteToStr
  | byteCmp v => exact EncodeFits.byteCmp v
  | curInit => exact EncodeFits.curInit
  | curAdvance => exact EncodeFits.curAdvance
  | curInBoundsX c => exact EncodeFits.curInBoundsX c
  | curInBoundsY c => exact EncodeFits.curInBoundsY c
  | curCapacity => exact EncodeFits.curCapacity
  | encStart => exact EncodeFits.encStart
  | encStep => exact EncodeFits.encStep
  | encRun => exact EncodeFits.encRun
  | decStart => exact EncodeFits.decStart
  | decStep => exact EncodeFits.decStep
  | decRun => exact EncodeFits.decRun
  | decFeed t0 t1 t2 => exact EncodeFits.decFeed t0 t1 t2
  | softReset => exact EncodeFits.softReset

end Sys2Proof.Laws

namespace Sys2Proof

variable {w : Word} {i : Instr} {r q : OpcodeRow}

/-- A word that decodes is matched by the row of its command. -/
theorem row_of_decode (h : decode w = .ok i) :
    ∃ r ∈ opcodeRows, r.mnemonic = i.mnemonic ∧ w &&& r.mask = r.matchWord := by
  obtain ⟨rfl, -⟩ := decode_eq_ok_iff.mp h
  exact Laws.encodeFits i

/-- A field whose bits a mask fixes. -/
theorem extractLsb'_of_masked {m v : Word} {a n : Nat} (h : w &&& m = v)
    (hm : m.extractLsb' a n = BitVec.allOnes n) : w.extractLsb' a n = v.extractLsb' a n := by
  rw [← h, BitVec.extractLsb'_and, hm, BitVec.and_allOnes]

/-- Every row fixes OP (30_encoding.md R92). -/
theorem opField_of_row (hr : r ∈ opcodeRows) (h : w &&& r.mask = r.matchWord) : opField w = opField r.matchWord :=
  extractLsb'_of_masked h ((by decide : ∀ r ∈ opcodeRows, r.mask.extractLsb' 26 6 = BitVec.allOnes 6) r hr)

/-- No two rows have one OP. -/
theorem row_eq_of_opField (hr : r ∈ opcodeRows) (hq : q ∈ opcodeRows)
    (h : opField r.matchWord = opField q.matchWord) : r = q :=
  List.inj_on_of_nodup_map (f := fun r : OpcodeRow => opField r.matchWord) (by decide) hr hq h

/-- LEN above 16 (30_encoding.md R97). -/
theorem decode_ne_ok_of_long (hop : opField w = 0x07#6) (hlen : 16 < (w.extractLsb' 16 5).toNat) :
    decode w ≠ .ok i := by
  rw [decode_seqLoad hop, decodeQ, if_pos hlen]
  split <;> simp

/-- The rows of format N fix the whole word; the others are these. -/
theorem row_cases (hr : r ∈ opcodeRows) : r.mask = BitVec.allOnes 32 ∧ (decode r.matchWord).isOk = true ∨
    r ∈ [⟨"BYTE_NEW", 0x04000000, 0xFFFFFF00⟩, ⟨"BYTE_STORE_BIT", 0x08000000, 0xFFFFFFFE⟩,
      ⟨"SEQ_LOAD", 0x1C000000, 0xFFE00000⟩, ⟨"BYTE_CMP", 0x28000000, 0xFFFFFF00⟩,
      ⟨"CUR_IN_BOUNDS_X", 0x48000000, 0xFF000000⟩, ⟨"CUR_IN_BOUNDS_Y", 0x4C000000, 0xFF000000⟩,
      ⟨"DEC_FEED", 0xAC000000, 0xFFFFFFF8⟩] := by
  revert r
  decide

/-- A word that a row matches decodes, if it is no SEQ_LOAD with LEN above 16. -/
theorem decode_of_row (hr : r ∈ opcodeRows) (h : w &&& r.mask = r.matchWord)
    (hlen : ¬ (opField w = 0x07#6 ∧ 16 < (w.extractLsb' 16 5).toNat)) : ∃ i, decode w = .ok i := by
  have hop := opField_of_row hr h
  obtain ⟨hmask, hok⟩ | hr := row_cases hr
  · rw [hmask, BitVec.and_allOnes] at h
    subst h
    cases hd : decode r.matchWord with
    | ok i => exact ⟨i, rfl⟩
    | error e => simp [hd, Except.isOk, Except.toBool] at hok
  · simp only [List.mem_cons, List.not_mem_nil, or_false] at hr
    obtain rfl | rfl | rfl | rfl | rfl | rfl | rfl := hr
    · exact ⟨_, (decode_byteNew hop).trans (if_pos (extractLsb'_of_masked h (by decide)))⟩
    · exact ⟨_, (decode_byteStoreBit hop).trans (if_pos (extractLsb'_of_masked h (by decide)))⟩
    · refine ⟨.seqLoad (w.extractLsb' 16 5) (w.extractLsb' 0 16), (decode_seqLoad hop).trans ?_⟩
      exact (if_neg (not_not.mpr (extractLsb'_of_masked h (by decide)))).trans (if_neg fun hl => hlen ⟨hop, hl⟩)
    · exact ⟨_, (decode_byteCmp hop).trans (if_pos (extractLsb'_of_masked h (by decide)))⟩
    · exact ⟨_, (decode_curInBoundsX hop).trans (if_pos (extractLsb'_of_masked h (by decide)))⟩
    · exact ⟨_, (decode_curInBoundsY hop).trans (if_pos (extractLsb'_of_masked h (by decide)))⟩
    · exact ⟨_, (decode_decFeed hop).trans (if_pos (extractLsb'_of_masked h (by decide)))⟩

/-- Settles O4, from the row of each command, the word under each row, and OP, which tells rows apart. -/
theorem legalWordsAreTheOpcodeMap : Obligations.LegalWordsAreTheOpcodeMap := by
  refine ⟨fun w => ⟨?_, ?_⟩, fun w i h => row_of_decode h, fun w r hr q hq h1 h2 => ?_⟩
  · rintro ⟨i, h⟩
    obtain ⟨r, hr, -, hm⟩ := row_of_decode h
    exact ⟨⟨r, hr, hm⟩, fun ⟨hop, hlen⟩ => decode_ne_ok_of_long hop hlen h⟩
  · rintro ⟨⟨r, hr, hm⟩, hlen⟩
    exact decode_of_row hr hm hlen
  · exact row_eq_of_opField hr hq ((opField_of_row hr h1).symm.trans (opField_of_row hq h2))

/-- A reserved OP (30_encoding.md R98): no row has it. -/
theorem decode_ne_ok_of_reserved_op
    (hop : (0x0B ≤ (opField w).toNat ∧ (opField w).toNat ≤ 0x0F) ∨
      (0x15 ≤ (opField w).toNat ∧ (opField w).toNat ≤ 0x1F) ∨
      (0x23 ≤ (opField w).toNat ∧ (opField w).toNat ≤ 0x27) ∨
      (0x2C ≤ (opField w).toNat ∧ (opField w).toNat ≤ 0x3E)) : decode w ≠ .ok i := by
  intro h
  obtain ⟨r, hr, -, hm⟩ := row_of_decode h
  rw [opField_of_row hr hm] at hop
  clear hm
  revert hop
  revert r
  decide

/-- A listed OP with a reserved bit set (30_encoding.md R98). -/
theorem decode_ne_ok_of_reserved_bit (hr : r ∈ opcodeRows) (hop : opField w = opField r.matchWord)
    (hm : w &&& r.mask ≠ r.matchWord) : decode w ≠ .ok i := by
  intro h
  obtain ⟨q, hq, -, hqm⟩ := row_of_decode h
  obtain rfl := row_eq_of_opField hr hq (hop.symm.trans (opField_of_row hq hqm))
  exact hm hqm

end Sys2Proof

namespace Sys2Proof.Machine

open Sys2Proof.Claims

variable {s : State}

theorem seqStep_of_illegal (h : ∀ i, decode s.cmdr ≠ .ok i) :
    seqStep s = .next { s with status := ended s.status .errIllegal } := by
  unfold seqStep
  cases hd : decode s.cmdr with
  | ok i => exact absurd hd (h i)
  | error e => rfl

/-- Settles O5: none of the three classes decodes, since a word that does lies under the row of its command. -/
theorem illegalWordsChangeOnlyResultAndBusy : Obligations.IllegalWordsChangeOnlyResultAndBusy := by
  intro s hb hill
  have hd : ∀ i, decode s.cmdr ≠ .ok i := by
    intro i h
    obtain hop | ⟨r, hr, hop, hm⟩ | ⟨hop, hlen⟩ := hill
    · exact decode_ne_ok_of_reserved_op hop h
    · exact decode_ne_ok_of_reserved_bit hr hop hm h
    · exact decode_ne_ok_of_long hop hlen h
  refine ⟨fun hm => ?_, fun ms hm => ?_, fun ms hm => ?_⟩
  · rw [step_of_no_moves hm, sequencerTurn_of_busy hb, seqStep_of_illegal hd]
  · rw [step_of_move hm]
    exact (sequencerTurn_of_busy (s := s.setMoves ms) hb).trans (seqStep_of_illegal (s := s.setMoves ms) hd)
  · exact (step_of_wait hm hb).trans (seqStep_of_illegal (s := s.setMoves _) hd)

end Sys2Proof.Machine
end

section
/-! SUPPORT. CMD writes, and the registers by the map of 30_encoding.md R93. -/

namespace Sys2Proof.Machine

open Sys2Proof.Claims

/-- Settles O7: offset 0x000 selects CMD, and issuing a word goes by BUSY. -/
theorem commandWriteIssuesOrDrops : Obligations.CommandWriteIssuesOrDrops := by
  intro s w ms hm
  have hstep : step s = .next ((s.setMoves ms).issue w) := step_of_write hm rfl
  refine ⟨fun hb => hstep.trans ?_, fun hb => hstep.trans ?_⟩
  · exact congrArg _ (if_neg (by simp [State.setMoves, hb]))
  · exact congrArg _ (if_pos hb)

variable {s : State} {a v : Word} {r : PortReg}

/-- The row of `registerWords` for a register that has an offset: none if the register is UNSPEC. -/
def State.shownWord (s : State) (x : Word × PortReg) : List (Word × Word) :=
  ((s.observeReg x.2).map (Prod.mk x.1)).toList

theorem State.mem_shownWord_iff {x : Word × PortReg} :
    (a, v) ∈ s.shownWord x ↔ x.1 = a ∧ s.observeReg x.2 = some v := by
  simp [State.shownWord, and_comm]

/-- The row of a register with a mark is there once a writer has run. -/
theorem State.shownWord_of_ite {b : Bool} (h : s.observeReg r = if b then some v else none) :
    s.shownWord (a, r) = if b then [(a, v)] else [] := by
  rw [State.shownWord, h]
  cases b <;> rfl

/-- `registerWords` goes through the registers without a mark, then through those with one. -/
theorem registerWords_eq_flatMap : registerWords s =
    (portRegs.filter (fun x => x.2.unspec.isNone) ++ portRegs.filter (fun x => !x.2.unspec.isNone)).flatMap
      s.shownWord := by
  have hmarked : portRegs.filter (fun x => !x.2.unspec.isNone) =
      [(0x008, .byte), (0x00C, .seq), (0x010, .str0), (0x014, .str1)] := rfl
  rw [hmarked, List.flatMap_append, registerWords, ← State.shownWord_of_ite s.observeReg_byte,
    ← State.shownWord_of_ite s.observeReg_seq, ← State.shownWord_of_ite s.observeReg_str0,
    ← State.shownWord_of_ite s.observeReg_str1]
  simp only [List.flatMap_cons, List.flatMap_nil, List.append_assoc, List.append_nil]
  rfl

/-- The words of R93 are those of the registers that are not UNSPEC. -/
theorem mem_registerWords_iff : (a, v) ∈ registerWords s ↔ ∃ r, (a, r) ∈ portRegs ∧ s.observeReg r = some v := by
  rw [registerWords_eq_flatMap, List.mem_flatMap]
  simp only [(List.filter_append_perm _ portRegs).mem_iff, State.mem_shownWord_iff]
  constructor
  · rintro ⟨⟨_, r⟩, hr, rfl, ho⟩
    exact ⟨r, hr, ho⟩
  · rintro ⟨r, hr, ho⟩
    exact ⟨(a, r), hr, rfl, ho⟩

/-- Each register is at its offset, which is aligned. -/
theorem portReg_of_mem (h : (a, r) ∈ portRegs) : portReg a = some r ∧ a.toNat % 4 = 0 :=
  (by decide : ∀ x ∈ portRegs, portReg x.1 = some x.2 ∧ x.1.toNat % 4 = 0) _ h

/-- A register that is not UNSPEC reads the same whatever is drawn. -/
theorem State.readReg_of_observeReg (h : s.observeReg r = some v) (draw : Word) : s.readReg draw r = v := by
  cases r with
  | byte | seq | str0 | str1 =>
    simp_all [State.observeReg_byte, State.observeReg_seq, State.observeReg_str0, State.observeReg_str1,
      State.readReg]
  | _ => exact Option.some.inj h

/-- A HostRead of a register (R90). -/
theorem step_of_read_register {ms : List Move} (hm : s.env.moves = .read a 32 :: ms) (hr : (a, r) ∈ portRegs) :
    step s = .next (answered s ms (s.readReg (Config.hostDraw s.env.draws) r)) := by
  obtain ⟨hreg, ha⟩ := portReg_of_mem hr
  rw [step_of_read hm ha, target, hreg, State.readTarget]

/-- The reserved bits of a register shorter than a word read 0. -/
theorem extractLsb'_setWidth_eq_zero {n k : Nat} (x : BitVec n) : (x.setWidth 32).extractLsb' n k = 0 := by
  ext i hi
  simp

/-- Settles O8: a register that is not UNSPEC has one word, whatever is drawn, and BYTE and SEQ are shorter than
a word. -/
theorem registerReadsFollowTheMap : Obligations.RegisterReadsFollowTheMap := by
  refine ⟨fun s a v => ?_, fun s a ms hm => ⟨fun v hv => ?_, fun ha => ?_⟩⟩
  · rw [mem_registerWords_iff]
    simp [State.observe]
  · obtain ⟨r, hr, ho⟩ := mem_registerWords_iff.mp hv
    rw [step_of_read_register hm hr, State.readReg_of_observeReg ho]
  · simp only [List.mem_cons, List.not_mem_nil, or_false] at ha
    obtain rfl | rfl | rfl | rfl := ha
    · exact ⟨_, step_of_read_register (r := .byte) hm (by decide),
        fun _ => extractLsb'_setWidth_eq_zero _, fun h => absurd h (by decide)⟩
    · exact ⟨_, step_of_read_register (r := .seq) hm (by decide),
        fun h => absurd h (by decide), fun _ => extractLsb'_setWidth_eq_zero _⟩
    · exact ⟨_, step_of_read_register (r := .str0) hm (by decide),
        fun h => absurd h (by decide), fun h => absurd h (by decide)⟩
    · exact ⟨_, step_of_read_register (r := .str1) hm (by decide),
        fun h => absurd h (by decide), fun h => absurd h (by decide)⟩

end Sys2Proof.Machine
end

section
/-! SUPPORT. Bit sequences and binary strings: fold and to_seq (00_scope.md R10), the digits of STR0 and STR1. -/

namespace Sys2Proof.Machine

/-! Sequences. -/

theorem fold_concat (l : List Bool) (b : Bool) : fold (l ++ [b]) = 2 * fold l + b.toNat := by
  simp [fold]

theorem fold_lt (l : List Bool) : fold l < 2 ^ l.length := by
  induction l using List.reverseRecOn with
  | nil => decide
  | append_singleton l b ih =>
    rw [fold_concat, List.length_append]
    exact push_bound b ih

/-- The bits of a fold are the sequence, the last element bit 0. -/
theorem testBit_fold {l : List Bool} {j : Nat} (hj : j < l.length) :
    (fold l).testBit (l.length - 1 - j) = l[j] := by
  induction l using List.reverseRecOn with
  | nil => cases hj
  | append_singleton l b ih =>
    rw [fold_concat, ← Nat.bit_val, List.length_append, List.length_singleton, Nat.add_sub_cancel]
    by_cases h : j < l.length
    · rw [List.getElem_append_left h, ← ih h, show l.length - j = l.length - 1 - j + 1 by omega,
        Nat.testBit_bit_succ]
    · obtain rfl : j = l.length := by simp at hj; omega
      rw [Nat.sub_self, Nat.testBit_bit_zero]
      simp

/-- A register with room for the sequence holds its fold. -/
theorem toNat_ofNat_fold {l : List Bool} {n : Nat} (h : l.length ≤ n) : (BitVec.ofNat n (fold l)).toNat = fold l :=
  Nat.mod_eq_of_lt ((fold_lt l).trans_le (Nat.pow_le_pow_right (by decide) h))

/-- Nothing of a sequence that is right-aligned is masked (40_byte_unit.md R136, R137). -/
theorem seqBits_fold {v : BitVec 16} {len : BitVec 5} {l : List Bool} (hlen : len.toNat = l.length)
    (hv : v.toNat = fold l) : (seqBits v len).toNat = fold l := by
  rw [seqBits_toNat, hlen, hv, Nat.mod_eq_of_lt (fold_lt l)]

/-- A value whose bits, most significant first, are the sequence. -/
theorem fold_eq_toNat {n : Nat} {l : List Bool} {v : BitVec n} (hn : l.length = n)
    (h : ∀ (j : Nat) (hj : j < l.length), l[j] = v.getLsbD (n - 1 - j)) : fold l = v.toNat := by
  subst hn
  refine Nat.eq_of_testBit_eq fun i => ?_
  by_cases hi : i < l.length
  · have hj : l.length - 1 - i < l.length := by omega
    have := (testBit_fold hj).trans (h _ hj)
    rwa [show l.length - 1 - (l.length - 1 - i) = i by omega] at this
  · have hle : 2 ^ l.length ≤ 2 ^ i := Nat.pow_le_pow_right (by decide) (by omega)
    rw [Nat.testBit_eq_false_of_lt ((fold_lt l).trans_le hle), Nat.testBit_eq_false_of_lt (v.isLt.trans_le hle)]

theorem toSeq_eq_map (v : Byte) : toSeq v = (List.range 8).map (fun j => v.getLsbD (7 - j)) := rfl

theorem fold_toSeq (v : Byte) : fold (toSeq v) = v.toNat :=
  fold_eq_toNat rfl fun j hj => by simp [toSeq_eq_map]

theorem ofNat_fold_toSeq (v : Byte) : BitVec.ofNat 8 (fold (toSeq v)) = v := by
  rw [fold_toSeq, BitVec.ofNat_toNat, BitVec.setWidth_eq]

/-- SEQ_V after BYTE_TO_SEQ (40_byte_unit.md R134). -/
theorem toNat_setWidth_eq_fold_toSeq (v : Byte) : (v.setWidth 16).toNat = fold (toSeq v) :=
  (BitVec.toNat_setWidth_of_le (by decide)).trans (fold_toSeq v).symm

/-! Strings. -/

theorem digit_eq_some_iff {c : Byte} {d : Bool} : digit c = some d ↔ c = digitChar d := by
  unfold digit
  cases d <;> split_ifs <;> simp_all [digitChar]

/-- A string has digits exactly if it is their string. -/
theorem digits_eq_some_iff {cs : List Byte} {ds : List Bool} : digits cs = some ds ↔ cs = ds.map digitChar := by
  induction cs generalizing ds with
  | nil => simp [digits, eq_comm]
  | cons c cs ih =>
    cases ds with
    | nil => rw [digits]; split <;> simp
    | cons d ds =>
      rw [List.map_cons, List.cons.injEq, ← digit_eq_some_iff, ← ih, digits]
      cases digit c <;> cases digits cs <;> simp

theorem digitChar_eq (d : Bool) : digitChar d = if d then 0x31#8 else 0x30#8 := by
  cases d <;> rfl

theorem chars_eq_map (w0 w1 : Word) :
    chars w0 w1 = (List.range 8).map (fun j => if j < 4 then lane w0 j else lane w1 (j - 4)) := rfl

/-- A digit string, character by character. -/
theorem chars_eq_map_digitChar {w0 w1 : Word} {l : List Bool} (hl : l.length = 8)
    (h : ∀ j, j < 8 → (if j < 4 then lane w0 j else lane w1 (j - 4)) = if l.getD j false then 0x31#8 else 0x30#8) :
    chars w0 w1 = l.map digitChar := by
  rw [chars_eq_map]
  refine List.ext_getElem (by simp [hl]) fun j hj hj' => ?_
  rw [List.length_map] at hj'
  rw [List.getElem_map, List.getElem_map, List.getElem_range, h j (hl ▸ hj'),
    List.getD_eq_getElem _ _ hj', digitChar_eq]

/-- STR0 after BYTE_TO_STR (40_byte_unit.md R139). -/
theorem lane_strHi (v : Byte) {j : Nat} (hj : j < 4) : lane (strHi v) j = digitChar (v.getLsbD (7 - j)) :=
  lane_ofLanes_of_lt (fun j => digitChar (v.getLsbD (7 - j))) hj

/-- STR1 after BYTE_TO_STR (R139). -/
theorem lane_strLo (v : Byte) {j : Nat} (hj : j < 4) : lane (strLo v) j = digitChar (v.getLsbD (3 - j)) :=
  lane_ofLanes_of_lt (fun j => digitChar (v.getLsbD (3 - j))) hj

theorem chars_strHi_strLo (v : Byte) : chars (strHi v) (strLo v) = (toSeq v).map digitChar := by
  simp [chars, lane_strHi, lane_strLo, toSeq]

end Sys2Proof.Machine
end

section
/-! SUPPORT. The Byte unit commands: their words, and what each does where the registers it reads are written. -/

namespace Sys2Proof.Machine

open Sys2Proof.Claims

/-! Words. -/

theorem wordN_of_decodeN {op : BitVec 6} {i : Instr} (h : ∀ {w}, opField w = op → decode w = decodeN i w) :
    WordN op i := by
  intro w hop
  rw [h hop, decodeN]
  split <;> rfl

/-- The commands of format N, with their opcodes (30_encoding.md R96). -/
def formatN : List (BitVec 6 × Instr) :=
  [(0x00, .nop), (0x03, .byteStoreRandomBit), (0x04, .byteToSeq), (0x05, .byteFromSeq), (0x06, .byteFromSeqBounded),
   (0x08, .byteFromStr), (0x09, .byteToStr), (0x10, .curInit), (0x11, .curAdvance), (0x14, .curCapacity),
   (0x20, .encStart), (0x21, .encStep), (0x22, .encRun), (0x28, .decStart), (0x29, .decStep), (0x2A, .decRun),
   (0x3F, .softReset)]

theorem wordN_of_mem {op : BitVec 6} {i : Instr} (h : (op, i) ∈ formatN) : WordN op i := by
  simp only [formatN, List.mem_cons, List.not_mem_nil, or_false, Prod.mk.injEq] at h
  casesm* _ ∨ _, _ ∧ _ <;> subst op i <;> exact wordN_of_decodeN fun hop => by rw [decode, hop]; rfl

theorem wordV8_of_decodeV8 {op : BitVec 6} {f : Byte → Instr}
    (h : ∀ {w}, opField w = op → decode w = decodeV8 f w) : WordV8 op f := by
  intro w hop
  rw [h hop, decodeV8]
  split <;> rfl

theorem wordBit_of_decodeBit {op : BitVec 6} {f : Bool → Instr}
    (h : ∀ {w}, opField w = op → decode w = decodeBit f w) : WordBit op f := by
  intro w hop
  rw [h hop, decodeBit]
  split <;> rfl

theorem decodeQ_cases (f : BitVec 5 → BitVec 16 → Instr) (w : Word) :
    if w.extractLsb' 21 5 = 0 ∧ (w.extractLsb' 16 5).toNat ≤ 16 then
      decodeQ f w = .ok (f (w.extractLsb' 16 5) (w.extractLsb' 0 16))
    else ∃ e, decodeQ f w = .error e := by
  by_cases hz : w.extractLsb' 21 5 = 0
  · by_cases hlen : (w.extractLsb' 16 5).toNat ≤ 16
    · rw [if_pos ⟨hz, hlen⟩, decodeQ, if_neg (not_not.mpr hz), if_neg (Nat.not_lt.mpr hlen)]
    · rw [if_neg fun h => hlen h.2, decodeQ, if_neg (not_not.mpr hz), if_pos (Nat.lt_of_not_le hlen)]
      exact ⟨_, rfl⟩
  · rw [if_neg fun h => hz h.1, decodeQ, if_pos hz]
    exact ⟨_, rfl⟩

variable {s : State}

/-! Reads of written registers. -/

theorem State.reading_byte {t : State} (hb : s.bu.bSet = true) (ht : t.unspecRead = s.unspecRead) :
    s.reading [.byte] t = .next t :=
  congrArg _ (State.noteRead_of_set ht (by simp [ByteUnit.unspec, hb]))

theorem State.reading_seq {t : State} (hq : s.bu.seqSet = true) (ht : t.unspecRead = s.unspecRead) :
    s.reading [.seq] t = .next t :=
  congrArg _ (State.noteRead_of_set ht (by simp [ByteUnit.unspec, hq]))

theorem State.reading_str {t : State} (h0 : s.bu.str0Set = true) (h1 : s.bu.str1Set = true)
    (ht : t.unspecRead = s.unspecRead) : s.reading [.str0, .str1] t = .next t :=
  congrArg _ (State.noteRead_of_set ht (by simp [ByteUnit.unspec, h0, h1]))

/-- Writing to BYTE what it holds. -/
theorem State.putByte_self (hb : s.bu.bSet = true) : s.putByte s.bu.b = s := by
  rw [State.putByte, ← hb]

/-! One lemma per command that reads a register. -/

theorem exec_byteStoreBit (hb : s.bu.bSet = true) (bit : Bool) :
    exec (.byteStoreBit bit) s = .next ((s.storeByteBit bit).endStep .ok) :=
  State.reading_byte hb rfl

theorem exec_byteStoreRandomBit (hb : s.bu.bSet = true) :
    exec .byteStoreRandomBit s = .next (((s.draw 1).storeByteBit (s.randBit 0)).endStep .ok) :=
  State.reading_byte hb rfl

theorem exec_byteToSeq (hb : s.bu.bSet = true) :
    exec .byteToSeq s = .next ((s.putSeq (s.bu.b.setWidth 16) 8).endStep .ok) :=
  State.reading_byte hb rfl

theorem exec_byteToStr (hb : s.bu.bSet = true) :
    exec .byteToStr s = .next (((s.putStr0 (strHi s.bu.b)).putStr1 (strLo s.bu.b)).endStep .ok) :=
  State.reading_byte hb rfl

theorem exec_byteCmp (hb : s.bu.bSet = true) (v : Byte) :
    exec (.byteCmp v) s = .next ({ s with status := s.status.compare s.bu.b v }.endStep .ok) :=
  State.reading_byte hb rfl

theorem exec_byteFromStr_of_digits (h0 : s.bu.str0Set = true) (h1 : s.bu.str1Set = true) {l : List Bool}
    (hl : chars s.bu.str0 s.bu.str1 = l.map digitChar) :
    exec .byteFromStr s = .next ((s.putByte (BitVec.ofNat 8 (fold l))).endStep .ok) := by
  rw [exec, execByteFromStr, digits_eq_some_iff.mpr hl]
  exact State.reading_str h0 h1 rfl

/-- BYTE_FROM_STR of the string of B changes neither B nor its mark. -/
theorem exec_byteFromStr_of_own_string (hb : s.bu.bSet = true) (h0 : s.bu.str0Set = true) (h1 : s.bu.str1Set = true)
    (hc : chars s.bu.str0 s.bu.str1 = (toSeq s.bu.b).map digitChar) :
    exec .byteFromStr s = .next (s.endStep .ok) := by
  rw [exec_byteFromStr_of_digits h0 h1 hc, ofNat_fold_toSeq, State.putByte_self hb]

theorem exec_byteFromStr_of_not_digit (h0 : s.bu.str0Set = true) (h1 : s.bu.str1Set = true)
    (hc : ∃ c ∈ chars s.bu.str0 s.bu.str1, c ≠ 0x30#8 ∧ c ≠ 0x31#8) :
    exec .byteFromStr s = .next (s.endStep .errDigit) := by
  have hnone : digits (chars s.bu.str0 s.bu.str1) = none := by
    refine Option.eq_none_iff_forall_ne_some.mpr fun l hl => ?_
    obtain ⟨c, hmem, hz, ho⟩ := hc
    rw [digits_eq_some_iff.mp hl] at hmem
    obtain ⟨d, -, rfl⟩ := List.mem_map.mp hmem
    cases d
    · exact hz rfl
    · exact ho rfl
  rw [exec, execByteFromStr, hnone]
  exact State.reading_str h0 h1 rfl

section
variable {l : List Bool} (hq : s.bu.seqSet = true) (hlen : s.bu.seqLen.toNat = l.length)
  (hval : s.bu.seqV.toNat = fold l)
include hq hlen hval

theorem exec_byteFromSeq : exec .byteFromSeq s =
    .next (if l.length = 8 then (s.putByte (BitVec.ofNat 8 (fold l))).endStep .ok else s.endStep .errLength) := by
  have h8 : s.bu.seqLen = 8#5 ↔ l.length = 8 := by rw [← BitVec.toNat_inj, hlen]; rfl
  have hv : s.bu.seqV.setWidth 8 = BitVec.ofNat 8 (fold l) := hval ▸ rfl
  rw [exec, execByteFromSeq, hv]
  simp only [h8]
  exact State.reading_seq hq (by split <;> rfl)

theorem exec_byteFromSeqBounded : exec .byteFromSeqBounded s =
    .next (if l.length ≤ 8 then (s.putByte (BitVec.ofNat 8 (fold l))).endStep .ok else s.endStep .errLength) := by
  have hv : seqBits s.bu.seqV s.bu.seqLen = s.bu.seqV :=
    BitVec.eq_of_toNat_eq ((seqBits_fold hlen hval).trans hval.symm)
  have hv8 : s.bu.seqV.setWidth 8 = BitVec.ofNat 8 (fold l) := hval ▸ rfl
  rw [exec, execByteFromSeqBounded, hv, hv8, hlen]
  simp only [← Nat.not_le, ite_not]
  exact State.reading_seq hq (by split <;> rfl)

end

theorem exec_seqLoad {len : BitVec 5} (h : len.toNat ≤ 16) (seq : BitVec 16) :
    exec (.seqLoad len seq) s = .next ((s.putSeq (seqBits seq len) len).endStep .ok) :=
  congrArg _ (if_neg (Nat.not_lt.mpr h))

/-- A Byte unit command is a single step. -/
theorem exec_byte_busy {i : Instr} {t : State} (hb : isByteCommand i = true) (h : exec i s = .next t) :
    t.status.busy = false := by
  cases i with
  | byteNew _ | byteStoreBit _ | byteStoreRandomBit | byteToSeq | byteToStr | byteCmp _ => cases h; rfl
  | byteFromSeq | byteFromSeqBounded | seqLoad _ _ | byteFromStr => cases h; split <;> rfl
  | _ => cases hb

/-! The statements. -/

/-- Settles O23: store_bit writes bit 0 and leaves the others, whatever the bit. -/
theorem byteStoreBitReplacesTheLsb : Obligations.ByteStoreBitReplacesTheLsb := by
  refine ⟨wordBit_of_decodeBit decode_byteStoreBit, wordN_of_mem (by decide),
    fun s hb => ⟨fun bit => ?_, ?_⟩⟩
  · exact ⟨_, lsb_storeBit _ _, storeBit_high _ _, exec_byteStoreBit hb bit⟩
  · exact ⟨_, lsb_storeBit _ _, storeBit_high _ _, exec_byteStoreRandomBit hb⟩

/-- Settles O24: a byte is the fold of its bits. -/
theorem byteToSeqHoldsTheBits : Obligations.ByteToSeqHoldsTheBits :=
  ⟨wordN_of_mem (by decide), fun s hb => ⟨_, toNat_setWidth_eq_fold_toSeq s.bu.b, exec_byteToSeq hb⟩⟩

/-- Settles O25: both variants write the fold, the sequence's length deciding which does. -/
theorem sequencesFoldIntoTheByte : Obligations.SequencesFoldIntoTheByte :=
  ⟨wordN_of_mem (by decide), wordN_of_mem (by decide), fun _ _ hq hlen hval =>
    ⟨_, toNat_ofNat_fold, exec_byteFromSeq hq hlen hval, exec_byteFromSeqBounded hq hlen hval⟩⟩

/-- Settles O26: LEN and the operand masked to LEN bits; the fold of a sequence is shorter than the mask. -/
theorem seqLoadHoldsTheSequence : Obligations.SeqLoadHoldsTheSequence := by
  refine ⟨fun w hop => ?_, fun s len seq h => ⟨_, seqBits_toNat seq len, exec_seqLoad h seq⟩, fun s l hl => ?_⟩
  · rw [decode_seqLoad hop]
    exact decodeQ_cases .seqLoad w
  · have hlen : (BitVec.ofNat 5 l.length).toNat = l.length := Nat.mod_eq_of_lt (by omega)
    have hv := seqBits_fold hlen (toNat_ofNat_fold hl)
    refine ⟨_, hv, fun j hj => ?_, exec_seqLoad (hlen.trans_le hl) _⟩
    rw [List.getElem?_eq_getElem hj, ← testBit_fold hj, ← BitVec.testBit_toNat, hv]

/-- Settles O27: the characters are the string of the digits, or one of them is the character of no digit. -/
theorem binaryStringsBecomeTheByte : Obligations.BinaryStringsBecomeTheByte := by
  refine ⟨wordN_of_mem (by decide), fun s h0 h1 => ⟨fun l hl hc => ?_, ?_⟩⟩
  · exact ⟨_, toNat_ofNat_fold hl.le, exec_byteFromStr_of_digits h0 h1 (chars_eq_map_digitChar hl hc)⟩
  · rintro ⟨j, hj, hne⟩
    refine exec_byteFromStr_of_not_digit h0 h1 ⟨_, ?_, hne⟩
    rw [chars_eq_map]
    exact List.mem_map_of_mem (List.mem_range.mpr hj)

/-- Settles O28: the characters are the string of the byte's bits, whose fold is the byte. -/
theorem byteBecomesItsBinaryString : Obligations.ByteBecomesItsBinaryString := by
  refine ⟨wordN_of_mem (by decide), fun s hb => ⟨strHi s.bu.b, strLo s.bu.b, fun j hj => ?_,
    exec_byteToStr hb, fun t ht => ?_⟩⟩
  · rw [lane_strHi _ hj, lane_strLo _ hj]
    exact ⟨digitChar_eq _, digitChar_eq _⟩
  · cases (exec_byteToStr hb).symm.trans ht
    exact exec_byteFromStr_of_own_string hb rfl rfl (chars_strHi_strLo s.bu.b)

/-- Settles O29: the two flags are the comparison's. -/
theorem byteCmpComparesUnsigned : Obligations.ByteCmpComparesUnsigned :=
  ⟨wordV8_of_decodeV8 decode_byteCmp, fun _ v hb =>
    ⟨_, _, beq_iff_eq.trans BitVec.toNat_inj.symm, decide_eq_true_iff, exec_byteCmp hb v⟩⟩

/-- Settles O30: the sequence of a byte has length 8, and its fold is the byte. -/
theorem byteSequenceRoundTrip : Obligations.ByteSequenceRoundTrip := by
  refine ⟨rfl, fold_concat, fold_lt, fun v => ⟨rfl, fun j hj => by simp [toSeq_eq_map, hj], fold_toSeq v⟩,
    fun s v => ?_⟩
  have hval := toNat_setWidth_eq_fold_toSeq v
  exact ⟨_, _, _, _, rfl, exec_byteToSeq rfl, exec_byteFromSeq (l := toSeq v) rfl rfl hval, ofNat_fold_toSeq v, rfl,
    exec_byteFromSeqBounded (l := toSeq v) rfl rfl hval, ofNat_fold_toSeq v, rfl⟩

/-- Settles O31: a Byte unit command completes in any state and writes no more than the Byte unit's part. -/
theorem byteCommandsFrame : Obligations.ByteCommandsFrame := by
  intro i s hb
  obtain ⟨t, -, ht, -⟩ := exec_byte_allWritten hb s
  obtain ⟨hframe, -, hcmp⟩ := exec_byte_frame hb ht
  refine ⟨t, ht, Nat.le_of_lt_succ t.bu.b.isLt, ?_⟩
  have hbusy := exec_byte_busy hb ht
  rw [hframe]
  exact ⟨rfl, rfl, rfl, rfl, rfl, rfl, rfl, rfl, rfl, rfl, rfl, rfl, by simp [State.withByteWrites, hbusy], hcmp⟩

/-- Settles O22: the word is of format V8, and the step writes BYTE and ends with OK. -/
theorem byteNewSetsTheByte : Obligations.ByteNewSetsTheByte :=
  ⟨wordV8_of_decodeV8 decode_byteNew, fun _ _ => rfl⟩

end Sys2Proof.Machine
end

section
/-! SUPPORT. The raster cursor commands: their words, each in and out of a walk, and where repeated calls of
advance() take the cursor. -/

namespace Sys2Proof.Machine

open Sys2Proof.Claims

/-! Words. -/

theorem wordC24_of_decodeC24 {op : BitVec 6} {f : Coord → Instr}
    (h : ∀ {w}, opField w = op → decode w = decodeC24 f w) : WordC24 op f := by
  intro w hop
  rw [h hop, decodeC24]
  split <;> rfl

variable {s : State} {i : Instr} {c : Cursor}

/-! The phase check, and each command where it passes. -/

/-- A cursor command is not accepted in a walk (41_cursor.md R180, 60_exceptions.md R284). -/
theorem outOfPhase_of_isCursorCommand (hi : isCursorCommand i = true) : outOfPhase i (fun st => st.walkActive) := by
  intro s hw
  cases i with
  | curInit | curAdvance | curInBoundsX _ | curInBoundsY _ | curCapacity => exact congrArg _ (if_pos hw)
  | _ => cases hi

theorem exec_curInit (hw : s.status.walkActive = false) : exec .curInit s =
    .next (s.cursorInit.endStep (if s.cursorInit.cur.empty then .errEmpty else .ok)) := by
  rw [apply_ite s.cursorInit.endStep]
  exact congrArg _ (if_neg (Bool.eq_false_iff.mp hw))

theorem exec_curAdvance (hw : s.status.walkActive = false) : exec .curAdvance s =
    .next (if s.cur.empty then s.endStep .errEmpty
      else s.advance.endStep (if s.advanceOk then .ok else .errExhausted)) := by
  rw [apply_ite s.advance.endStep]
  exact congrArg _ (if_neg (Bool.eq_false_iff.mp hw))

theorem exec_curInBoundsX (hw : s.status.walkActive = false) (coord : Coord) : exec (.curInBoundsX coord) s =
    .next ({ s with status := s.status.inBounds coord s.cur.wl }.endStep .ok) :=
  congrArg _ (if_neg (Bool.eq_false_iff.mp hw))

theorem exec_curInBoundsY (hw : s.status.walkActive = false) (coord : Coord) : exec (.curInBoundsY coord) s =
    .next ({ s with status := s.status.inBounds coord s.cur.hl }.endStep .ok) :=
  congrArg _ (if_neg (Bool.eq_false_iff.mp hw))

theorem exec_curCapacity (hw : s.status.walkActive = false) :
    exec .curCapacity s = .next (s.putCap.endStep .ok) :=
  congrArg _ (if_neg (Bool.eq_false_iff.mp hw))

/-! The next coordinate (41_cursor.md R173). -/

theorem Cursor.empty_eq_true : c.empty = true ↔ c.wl.toNat = 0 ∨ c.hl.toNat = 0 := by
  rw [← Bool.not_eq_false, Cursor.empty_eq_false]
  omega

theorem Cursor.next_in_row (h : c.x.toNat + 1 < c.wl.toNat) : c.next = some { c with x := c.x + 1 } :=
  if_pos h

theorem Cursor.next_row (hx : ¬ c.x.toNat + 1 < c.wl.toNat) (hy : c.y.toNat + 1 < c.hl.toNat) :
    c.next = some { c with x := 0, y := c.y + 1 } :=
  (if_neg hx).trans (if_pos hy)

theorem Cursor.next_final (hx : ¬ c.x.toNat + 1 < c.wl.toNat) (hy : ¬ c.y.toNat + 1 < c.hl.toNat) :
    c.next = none :=
  (if_neg hx).trans (if_neg hy)

/-- A coordinate with a larger one above it does not wrap. -/
theorem toNat_add_one_of_lt {a b : Coord} (h : a.toNat + 1 < b.toNat) : (a + 1).toNat = a.toNat + 1 :=
  BitVec.toNat_add_of_lt (h.trans b.isLt)

theorem exec_curAdvance_of_next (hw : s.status.walkActive = false) (hne : s.cur.empty = false)
    (hc : s.cur.next = some c) :
    exec .curAdvance s = .next { s with cur := c, status := ended s.status .ok } := by
  rw [exec_curAdvance hw, State.advance, State.advanceOk, hne, hc]
  rfl

theorem exec_curAdvance_of_final (hw : s.status.walkActive = false) (hne : s.cur.empty = false)
    (hc : s.cur.next = none) :
    exec .curAdvance s = .next { s with status := { ended s.status .errExhausted with exh := true } } := by
  rw [exec_curAdvance hw, State.advance, State.advanceOk, hne, hc]
  rfl

/-! Repeated calls of advance(). -/

/-- The cursor is at a pixel of the latched image (20_memory.md R60). -/
def Cursor.Inside (c : Cursor) : Prop := c.x.toNat < c.wl.toNat ∧ c.y.toNat < c.hl.toNat

/-- The cursor's linear index in the latched image (20_memory.md R64). -/
def Cursor.index (c : Cursor) : Nat := linear c.wl c.x c.y

/-- The number of pixels of the latched image. -/
def Cursor.size (c : Cursor) : Nat := c.wl.toNat * c.hl.toNat

theorem Cursor.size_congr {d : Cursor} (hw : d.wl = c.wl) (hh : d.hl = c.hl) : d.size = c.size := by
  rw [Cursor.size, hw, hh, Cursor.size]

theorem Cursor.Inside.index_lt (h : c.Inside) : c.index < c.size := linear_lt h.1 h.2

/-- Inside the image advance() goes one pixel further, or leaves the cursor at the last pixel with EXH set. -/
theorem State.advance_of_inside (h : s.cur.Inside) :
    (s.advanceOk = true ∧ s.advance.cur.Inside ∧ s.advance.cur.index = s.cur.index + 1) ∨
      (s.advanceOk = false ∧ s.advance.cur = s.cur ∧ s.cur.index + 1 = s.cur.size ∧
        s.cur.x.toNat + 1 = s.cur.wl.toNat ∧ s.cur.y.toNat + 1 = s.cur.hl.toNat ∧
        s.advance.status.exh = true) := by
  obtain ⟨hx, hy⟩ := h
  obtain ⟨c, hc, hok, e⟩ | ⟨hc, hno, e⟩ := s.advance_cases <;> rw [e]
  · obtain ⟨-, -, -, hin⟩ := Cursor.next_some hc
    obtain ⟨hx', hy', hidx⟩ := hin hx hy
    exact .inl ⟨hok, ⟨hx', hy'⟩, hidx⟩
  · obtain ⟨hfx, hfy, hidx⟩ := Cursor.next_none hc hx hy
    exact .inr ⟨hno, rfl, hidx, hfx, hfy, rfl⟩

/-- advance() returns ok exactly if a pixel follows. -/
theorem State.advanceOk_iff (h : s.cur.Inside) : s.advanceOk = true ↔ s.cur.index + 1 < s.cur.size := by
  obtain ⟨hok, hin, hidx⟩ | ⟨hno, -, hlast, -⟩ := State.advance_of_inside h
  · have hlt := hin.index_lt
    rw [hidx, Cursor.size_congr s.advance_dims.1 s.advance_dims.2] at hlt
    exact iff_of_true hok hlt
  · rw [hno]
    exact iff_of_false Bool.false_ne_true (by omega)

/-- `k` calls of advance() from inside the image keep its dimensions and go `k` pixels further, but not past the
last one. -/
theorem State.advance_iterate (h : s.cur.Inside) (k : Nat) :
    (State.advance^[k] s).cur.wl = s.cur.wl ∧ (State.advance^[k] s).cur.hl = s.cur.hl ∧
      (State.advance^[k] s).cur.Inside ∧
      (State.advance^[k] s).cur.index = min (s.cur.index + k) (s.cur.size - 1) := by
  induction k with
  | zero => exact ⟨rfl, rfl, h, (Nat.min_eq_left (Nat.le_sub_one_of_lt h.index_lt)).symm⟩
  | succ k ih =>
    obtain ⟨hw, hh, hin, hidx⟩ := ih
    rw [Function.iterate_succ_apply']
    obtain ⟨hw', hh'⟩ := (State.advance^[k] s).advance_dims
    have hsize : (State.advance^[k] s).cur.size = s.cur.size := Cursor.size_congr hw hh
    refine ⟨hw'.trans hw, hh'.trans hh, ?_⟩
    obtain ⟨hok, hin', hnext⟩ | ⟨-, hcur, hlast, -⟩ := State.advance_of_inside hin
    · have hlt := (State.advanceOk_iff hin).mp hok
      exact ⟨hin', by omega⟩
    · rw [hcur]
      exact ⟨hin, by omega⟩

/-! The statements. -/

/-- Settles O34: the command does what the next coordinate in raster order, if there is one, says. -/
theorem curAdvanceIsRasterOrder : Obligations.CurAdvanceIsRasterOrder := by
  refine ⟨wordN_of_mem (by decide), outOfPhase_of_isCursorCommand rfl, fun s hw => ⟨fun he => ?_, fun h1 h2 => ?_⟩⟩
  · rw [exec_curAdvance hw, if_pos (Cursor.empty_eq_true.mpr he)]
    rfl
  · have hne := Cursor.empty_eq_false.mpr ⟨h1, h2⟩
    exact ⟨fun hx => ⟨_, toNat_add_one_of_lt hx, exec_curAdvance_of_next hw hne (Cursor.next_in_row hx)⟩,
      fun hx hy => ⟨_, toNat_add_one_of_lt hy, exec_curAdvance_of_next hw hne (Cursor.next_row hx hy)⟩,
      fun hx hy => exec_curAdvance_of_final hw hne (Cursor.next_final hx hy)⟩

/-- Settles O35: from (0, 0) the index after `k` calls is the smaller of `k` and the last pixel's. -/
theorem traversalVisitsEveryPixelInOrder : Obligations.TraversalVisitsEveryPixelInOrder := by
  intro s h1 h2 hx hy
  have hin : s.cur.Inside := by rw [Cursor.Inside, hx, hy]; exact ⟨h1, h2⟩
  have h0 : s.cur.index = 0 := by simp [Cursor.index, linear, hx, hy]
  refine forall_and.mp fun k => ?_
  obtain ⟨hw, hh, hin', hidx⟩ := State.advance_iterate hin k
  have hsize := Cursor.size_congr hw hh
  refine ⟨fun hk => ?_, fun hk => ?_⟩
  · have hk' : (State.advance^[k] s).cur.index = k := by
      change k < s.cur.size at hk
      omega
    refine ⟨hw ▸ hk', hw ▸ hin'.1, ?_⟩
    rw [State.advanceOk_iff hin', hk', hsize]
    rfl
  · change s.cur.size ≤ k + 1 at hk
    rw [Function.iterate_succ_apply']
    obtain ⟨hok, -, -⟩ | ⟨hno, -, -, hfx, hfy, hexh⟩ := State.advance_of_inside hin'
    · have hlt := (State.advanceOk_iff hin').mp hok
      omega
    · exact ⟨hno, hw ▸ hfx, hh ▸ hfy, hexh⟩

/-- Settles O37: the product fits in 64 bits. -/
theorem capacityIsExact : Obligations.CapacityIsExact :=
  ⟨wordN_of_mem (by decide), outOfPhase_of_isCursorCommand rfl, fun s hw =>
    ⟨_, (BitVec.toNat_ofNat _ _).trans (Nat.mod_eq_of_lt (capacityBits_lt s.cur.wl s.cur.hl)), exec_curCapacity hw⟩⟩

/-- Settles O33: the dimensions are latched before the image is found to have no pixel. -/
theorem curInitLatchesTheDimensions : Obligations.CurInitLatchesTheDimensions := by
  refine ⟨wordN_of_mem (by decide), outOfPhase_of_isCursorCommand rfl, fun s hw =>
    ⟨_, _, coordBitsOf_toNat _ _, coordBitsOf_toNat _ _, ?_⟩⟩
  rw [exec_curInit hw]
  simp only [Cursor.empty_eq_true]
  rfl

/-- Settles O36: both commands compare as numbers. -/
theorem inBoundsComparesWithTheLatchedDimension : Obligations.InBoundsComparesWithTheLatchedDimension :=
  ⟨wordC24_of_decodeC24 decode_curInBoundsX, wordC24_of_decodeC24 decode_curInBoundsY,
    fun _ => outOfPhase_of_isCursorCommand rfl, fun _ => outOfPhase_of_isCursorCommand rfl,
    fun _ c hw => ⟨⟨_, decide_eq_true_iff, exec_curInBoundsX hw c⟩, ⟨_, decide_eq_true_iff, exec_curInBoundsY hw c⟩⟩⟩

end Sys2Proof.Machine
end

section
/-! SUPPORT. The encoder commands: the payload bits, ENC_START, and one pixel of the encode walk in a state that meets
the invariant. -/

namespace Sys2Proof.Machine

open Sys2Proof.Claims

variable {i : Instr} {s t : State} {f : Fault} {j k : Nat}

/-! Payload bits (42_encoder.md R202). -/

theorem State.payloadByte_of_written {v : Byte} (hj : j < s.enc.n.toNat) (hv : Memory.read .pbuf s.pbuf j = some v) :
    s.payloadByte j = .ok v := by
  rw [State.payloadByte, if_pos hj, hv]

theorem State.payloadByte_of_unspec (hj : j < s.enc.n.toNat) (hv : Memory.read .pbuf s.pbuf j = none) :
    s.payloadByte j = .error (.pbufUnspec j) := by
  rw [State.payloadByte, if_pos hj, hv]

theorem State.payloadByte_terminator (hj : j = s.enc.n.toNat) : s.payloadByte j = .ok s.params.terminator := by
  rw [State.payloadByte, if_neg (by omega), if_pos hj]

theorem State.payloadBit_of_byte {v : Byte} (h : s.payloadByte (k / 8) = .ok v) :
    s.payloadBit k = .ok (v.getLsbD (7 - k % 8)) := by
  rw [State.payloadBit, h]

theorem State.payloadBit_of_byte_error (h : s.payloadByte (k / 8) = .error f) : s.payloadBit k = .error f := by
  rw [State.payloadBit, h]

/-- The payload is PBUF, ENC_N and the terminator. -/
theorem State.payloadBit_congr (hb : t.pbuf = s.pbuf) (hn : t.enc.n = s.enc.n) (hp : t.params = s.params) (k : Nat) :
    t.payloadBit k = s.payloadBit k := by
  simp only [State.payloadBit, State.payloadByte, hb, hn, hp]

/-- Settles O40: a bit is that bit of its byte, and the byte is PBUF's, the fault or the terminator. -/
theorem payloadBitsAreMostSignificantFirst : Obligations.PayloadBitsAreMostSignificantFirst := fun _ _ =>
  ⟨fun hj _ hv => State.payloadBit_of_byte (State.payloadByte_of_written hj hv),
    fun hj hv => State.payloadBit_of_byte_error (State.payloadByte_of_unspec hj hv),
    fun hj => State.payloadBit_of_byte (State.payloadByte_terminator hj)⟩

/-! ENC_START (R201). -/

/-- The capacity as CAP holds it (41_cursor.md R178). -/
theorem capacityBits_toNat (wl hl : Coord) :
    (BitVec.ofNat 64 (capacityBits wl hl)).toNat = capacityBits wl hl :=
  (BitVec.toNat_ofNat _ _).trans (Nat.mod_eq_of_lt (capacityBits_lt wl hl))

/-- Settles O39, from everything ENC_START can do: CAP and ENC_L hold the two sides of the comparison. -/
theorem encStartChecksLengthThenCapacity : Obligations.EncStartChecksLengthThenCapacity := by
  refine ⟨wordN_of_mem (by decide), fun s => ⟨fun hlt => ?_, fun hle => ?_⟩⟩ <;>
    obtain ⟨hlt', e⟩ | ⟨hle', p, c, e, hcase⟩ := s.encStart_cases
  · exact congrArg _ e
  · exact absurd hlt (Nat.not_lt.mpr hle')
  · exact absurd hlt' (Nat.not_lt.mpr hle)
  · refine ⟨s.cursorInit.cur.wl, s.cursorInit.cur.hl, _, _, coordBitsOf_toNat _ _, coordBitsOf_toNat _ _,
      capacityBits_toNat _ _, payloadBits_toNat hle, ?_⟩
    rw [payloadBits_toNat hle, capacityBits_toNat]
    obtain ⟨hcap, rfl, rfl⟩ | ⟨hcap, rfl, rfl⟩ := hcase
    · rw [if_pos hcap]
      exact congrArg _ e
    · rw [if_neg hcap]
      exact congrArg _ e

/-! What a walk command makes of one pixel (R203, R207, 43_decoder.md R247, R248). -/

theorem EncPhase.active_iff {p : EncPhase} : p.active = true ↔ p = .payload ∨ p = .padding := by
  cases p <;> simp [EncPhase.active]

theorem DecPhase.active_iff {p : DecPhase} : p.active = true ↔ p = .running := by
  cases p <;> simp [DecPhase.active]

theorem State.encPixel_of_not_active (ha : s.status.eph.active = false) : s.encPixel = .ok (s.finish .errSeq) := by
  unfold State.encPixel
  cases he : s.status.eph with
  | idle | done | error => rfl
  | payload | padding => rw [he] at ha; cases ha

theorem exec_encStep_of_encPixel (h : s.encPixel = .ok t) : exec .encStep s = .next (t.setBusy false) := by
  simp only [exec, execEncStep, h]

theorem exec_encRun_of_encPixel (h : s.encPixel = .ok t) :
    exec .encRun s = .next (t.setBusy t.status.eph.active) := by
  simp only [exec, execEncRun, h]

theorem exec_of_encPixel_error (h : s.encPixel = .error f) : exec .encStep s = .fault f ∧ exec .encRun s = .fault f := by
  simp only [exec, execEncStep, execEncRun, h, and_self]

theorem exec_decStep_of_decPixel (h : s.decPixel = .ok t) : exec .decStep s = .next (t.setBusy false) := by
  simp only [exec, execDecStep, h]

theorem exec_decRun_of_decPixel (h : s.decPixel = .ok t) :
    exec .decRun s = .next (t.setBusy t.status.dph.active) := by
  simp only [exec, execDecRun, h]

theorem exec_of_decPixel_error (h : s.decPixel = .error f) : exec .decStep s = .fault f ∧ exec .decRun s = .fault f := by
  simp only [exec, execDecStep, execDecRun, h, and_self]

/-- A next state of ENC_STEP or ENC_RUN is that of one pixel, and BUSY is held only by ENC_RUN in a walk (R207). -/
theorem encPixel_of_exec (hi : i = .encStep ∨ i = .encRun) (h : exec i s = .next t) :
    ∃ u b, s.encPixel = .ok u ∧ t = u.setBusy b ∧ (b = true → i = .encRun ∧ u.status.eph.active = true) := by
  obtain rfl | rfl := hi <;> obtain ⟨u, hu, e1, e2⟩ | ⟨g, -, e1, e2⟩ := execEnc_cases s
  · cases e1.symm.trans h
    exact ⟨u, _, hu, rfl, nofun⟩
  · cases e1.symm.trans h
  · cases e2.symm.trans h
    exact ⟨u, _, hu, rfl, fun hb => ⟨rfl, hb⟩⟩
  · cases e2.symm.trans h

/-- A next state of DEC_STEP or DEC_RUN, likewise (R248). -/
theorem decPixel_of_exec (hi : i = .decStep ∨ i = .decRun) (h : exec i s = .next t) :
    ∃ u b, s.decPixel = .ok u ∧ t = u.setBusy b ∧ (b = true → i = .decRun ∧ u.status.dph.active = true) := by
  obtain rfl | rfl := hi <;> obtain ⟨u, hu, e1, e2⟩ | ⟨g, -, e1, e2⟩ := execDec_cases s
  · cases e1.symm.trans h
    exact ⟨u, _, hu, rfl, nofun⟩
  · cases e1.symm.trans h
  · cases e2.symm.trans h
    exact ⟨u, _, hu, rfl, fun hb => ⟨rfl, hb⟩⟩
  · cases e2.symm.trans h

theorem encoderCommand_cases (hi : isEncoderCommand i = true) : i = .encStart ∨ i = .encStep ∨ i = .encRun := by
  cases i <;> simp [isEncoderCommand] at hi ⊢

/-- Settles O46: ENC_START by its cases, one pixel by what it can change at all. -/
theorem encoderCommandsFrame : Obligations.EncoderCommandsFrame := by
  intro i s t hi h
  obtain rfl | hi := encoderCommand_cases hi
  · cases h
    obtain ⟨-, e⟩ | ⟨-, p, c, e, -⟩ := s.encStart_cases <;> rw [e] <;> simp
  · have hne : i ≠ .encStart := by rintro rfl; simp at hi
    obtain ⟨u, b, hu, rfl, -⟩ := encPixel_of_exec hi h
    obtain ⟨c, n, st, img, rfl, -, -, -, hn⟩ := State.encPixel_frame hu
    have henc : ({ s.enc with i := n } : Encoder) ≠ s.enc → s.status.eph = .payload :=
      not_imp_comm.mp fun hp => by rw [hn hp]
    simpa [hne] using henc

/-! The pixel a walk step is at exists in the image that the walk has latched (20_memory.md R60). -/

theorem State.Inv.inside (h : s.Inv) (hw : s.status.walkActive = true) : s.cur.Inside :=
  h.cursor.inside_of_not_empty (h.walkDims hw)

theorem Status.walkActive_of_eph {st : Status} (h : st.eph.active = true) : st.walkActive = true := by
  rw [Status.walkActive, h, Bool.true_or]

theorem Status.walkActive_of_dph {st : Status} (h : st.dph.active = true) : st.walkActive = true := by
  rw [Status.walkActive, h, Bool.or_true]

theorem State.imageLatched.has (hl : s.imageLatched) (hin : s.cur.Inside) : s.image.has s.cur.x s.cur.y = true := by
  obtain ⟨hx, hy⟩ := hin
  simp [Image.has, hl.1, hl.2, hx, hy]

/-- Every bit of a payload step lies in the payload (R202, R203). -/
theorem State.Inv.bit_lt (h : s.Inv) (hp : s.status.eph = .payload) (hj : j < s.enc.take) :
    s.enc.i.toNat + j < payloadBits s.enc.n.toNat := by
  have hl := (h.encoder.len (EncPhase.active_iff.mpr (.inl hp))).1
  rw [Encoder.take] at hj
  omega

/-- With the latched image open and the payload written a pixel of the encode walk never stops. -/
theorem State.Inv.encPixel_exists (h : s.Inv) (hl : s.imageLatched)
    (hw : s.status.eph = .payload → s.pbufWritten s.enc.n.toNat) : ∃ t, s.encPixel = .ok t := by
  cases hx : s.encPixel with
  | ok t => exact ⟨t, rfl⟩
  | error f =>
    exfalso
    cases ha : s.status.eph.active with
    | true =>
      obtain ⟨hout, -⟩ | ⟨hp, j, hj, hb⟩ := State.encPixel_error hx
      · simp [hl.has (h.inside (Status.walkActive_of_eph ha))] at hout
      · obtain ⟨b, hb'⟩ := State.payloadBit_exists (hw hp) (h.bit_lt hp hj)
        cases hb.symm.trans hb'
    | false => cases (State.encPixel_of_not_active ha).symm.trans hx

/-- With the latched image open a pixel of the decode walk never stops. -/
theorem State.Inv.decPixel_exists (h : s.Inv) (hl : s.imageLatched) : ∃ t, s.decPixel = .ok t := by
  cases hx : s.decPixel with
  | ok t => exact ⟨t, rfl⟩
  | error f =>
    exfalso
    cases ha : s.status.dph.active with
    | true =>
      obtain ⟨hout, -⟩ := State.decPixel_error hx
      simp [hl.has (h.inside (Status.walkActive_of_dph ha))] at hout
    | false => simp [State.decPixel, ha] at hx

end Sys2Proof.Machine
end

section
/-! SUPPORT. One pixel of a walk in a state that meets the invariant: what the encoder writes, and how the walk goes on
or ends. -/

namespace Sys2Proof.Machine

open Sys2Proof.Claims

variable {i : Instr} {s t : State} {f : Fault} {j k : Nat}

/-! The pixel that is written (42_encoder.md R203, R205). -/

/-- Channel by channel: a payload bit in bit 0, or the channel as read. -/
theorem State.packPixel_channel {p q : Pixel} (h : s.packPixel k p = .ok q) (hj : j < 3) :
    if j < k then s.payloadBit (s.enc.i.toNat + j) = .ok (lsb (channel q j)) else channel q j = channel p j := by
  have of_channel {c d : Byte} (hc : s.packChannel k j c = .ok d) :
      if j < k then s.payloadBit (s.enc.i.toNat + j) = .ok (lsb d) else d = c := by
    obtain ⟨hlt, b, hb, rfl⟩ | ⟨hge, rfl⟩ := State.packChannel_ok hc
    · rw [if_pos hlt, lsb_storeBit, hb]
    · rw [if_neg hge]
  obtain ⟨h0, h1, h2, -⟩ := State.packPixel_ok h
  obtain rfl | rfl | rfl : j = 0 ∨ j = 1 ∨ j = 2 := by omega
  · exact of_channel h0
  · exact of_channel h1
  · exact of_channel h2

/-- The pixel at the cursor with the next three draws in its LSBs. -/
def State.paddedPixel (s : State) : Pixel := s.curPixel.storeBits (s.randBit 0) (s.randBit 1) (s.randBit 2)

theorem State.paddedPixel_sameButLsbs (s : State) : s.curPixel.sameButLsbs s.paddedPixel :=
  Pixel.storeBits_sameButLsbs _ _ _ _

theorem State.lsb_channel_paddedPixel (s : State) (hj : j < 3) : lsb (channel s.paddedPixel j) = s.randBit j := by
  obtain rfl | rfl | rfl : j = 0 ∨ j = 1 ∨ j = 2 := by omega
  · exact lsb_storeBit _ _
  · exact lsb_storeBit _ _
  · exact lsb_storeBit _ _

/-- One pixel of a payload, by what it writes. -/
theorem State.encPixel_payload (ht : s.encPixel = .ok t) (hp : s.status.eph = .payload) :
    ∃ q, s.packPixel s.enc.take s.curPixel = .ok q ∧ t = (s.putCurPixel q).afterPayload s.enc.take := by
  obtain ⟨ha, -⟩ | ⟨-, -, hq⟩ | ⟨he, -⟩ := State.encPixel_cases ht
  · rw [hp] at ha; cases ha
  · exact hq
  · cases hp.symm.trans he

/-- One pixel of the padding. -/
theorem State.encPixel_padding (ht : s.encPixel = .ok t) (hp : s.status.eph = .padding) :
    t = ((s.draw 3).putCurPixel s.paddedPixel).afterPadding := by
  obtain ⟨ha, -⟩ | ⟨he, -⟩ | ⟨-, -, e⟩ := State.encPixel_cases ht
  · rw [hp] at ha; cases ha
  · cases hp.symm.trans he
  · exact e

/-! How an encode walk goes on (R203, R204, R209). -/

/-- A payload step reaches the payload's end exactly if ENC_I becomes ENC_L. -/
theorem Encoder.next_i_eq_l_iff {e : Encoder} (h : e.i.toNat < e.l.toNat) :
    BitVec.ofNat 32 (e.i.toNat + e.take) = e.l ↔ ¬ e.i.toNat + e.take < e.l.toNat := by
  obtain ⟨hnat, -, hend⟩ := Encoder.take_spec h
  rw [← BitVec.toNat_inj, hnat]
  exact ⟨fun he => by omega, fun hge => (hend hge).1⟩

/-- R209: while payload bits are left after a step, a pixel is left for them. -/
theorem State.Inv.advanceOk_of_bits_left (h : s.Inv) (hp : s.status.eph = .payload)
    (hlt : s.enc.i.toNat + s.enc.take < s.enc.l.toNat) : s.advanceOk = true := by
  have ha : s.status.eph.active = true := EncPhase.active_iff.mpr (.inl hp)
  obtain ⟨-, -, hcap⟩ := h.encoder.len ha
  obtain ⟨hi, hpos⟩ := h.encoder.payload hp
  have hin := h.inside (Status.walkActive_of_eph ha)
  obtain ⟨-, h3, -⟩ := Encoder.take_spec hi
  have h3 := h3 hlt
  have hcap : s.enc.l.toNat < 3 * s.cur.size := by rwa [capacityBits, Nat.mul_assoc] at hcap
  have hpos : s.enc.i.toNat = 3 * s.cur.index := hpos
  rw [State.advanceOk_iff hin]
  omega

/-- The end of a payload step in a state that meets the invariant. -/
theorem State.Inv.afterPayload_eq (h : s.Inv) (hp : s.status.eph = .payload) :
    s.afterPayload s.enc.take =
      { s with
        cur := s.advance.cur
        enc := { s.enc with i := BitVec.ofNat 32 (s.enc.i.toNat + s.enc.take) }
        status := { s.status with
          result := if BitVec.ofNat 32 (s.enc.i.toNat + s.enc.take) = s.enc.l ∧ s.advanceOk = false then .encDone
            else .ok
          exh := s.advance.status.exh
          eph := if BitVec.ofNat 32 (s.enc.i.toNat + s.enc.take) ≠ s.enc.l then .payload
            else if s.advanceOk then .padding else .done } } := by
  have hl := Encoder.next_i_eq_l_iff (h.encoder.payload hp).1
  obtain ⟨c, p, e, ⟨hlt, -, rfl, rfl⟩ | ⟨hlt, hno, -, -⟩ | ⟨hge, hok, rfl, rfl⟩ | ⟨hge, hno, rfl, rfl⟩⟩ :=
    s.afterPayload_eq s.enc.take
  · rw [e]
    simp [hl, hlt, hp]
  · cases hno.symm.trans (h.advanceOk_of_bits_left hp hlt)
  · rw [e]
    simp [hl, hge, hok]
  · rw [e]
    simp [hl, hge, hno]

/-- Settles O41, from the pixel that is packed and the end of a payload step. -/
theorem encStepWritesThePayloadPixel : Obligations.EncStepWritesThePayloadPixel := by
  refine ⟨wordN_of_mem (by decide), fun s h hl hw hp => ?_⟩
  obtain ⟨t, ht⟩ := h.encPixel_exists hl fun _ => hw
  obtain ⟨q, hq, rfl⟩ := State.encPixel_payload ht hp
  have hsame : (s.image.pixWrite s.cur.x s.cur.y q).pixRead s.cur.x s.cur.y = q :=
    Image.pixRead_pixWrite_same h.image _ _ q
  obtain ⟨hok, hcur, hexh⟩ := State.advance_congr (s := s) (t := s.putCurPixel q) rfl
  refine ⟨s.image.pixWrite s.cur.x s.cur.y q, BitVec.ofNat 32 (s.enc.i.toNat + s.enc.take), s.enc.take, rfl,
    (Encoder.take_spec (h.encoder.payload hp).1).1, rfl, rfl,
    fun x y hne => Image.pixRead_pixWrite_other _ q hne, fun j hj => ?_, ?_, ?_⟩
  · rw [hsame]
    exact State.packPixel_channel hq hj
  · rw [hsame]
    exact State.packPixel_sameButLsbs hq
  · rw [exec_encStep_of_encPixel ht, ← hok, ← hcur, ← hexh rfl]
    exact congrArg (fun u : State => Host.Outcome.next (u.setBusy false)) ((h.putCurPixel q).afterPayload_eq hp)

/-- The end of a padding step. -/
theorem State.afterPadding_of_padding (hp : s.status.eph = .padding) :
    s.afterPadding =
      { s with
        cur := s.advance.cur
        status := { s.status with
          result := if s.advanceOk then .ok else .encDone
          exh := s.advance.status.exh
          eph := if s.advanceOk then .padding else .done } } := by
  obtain ⟨c, p, e, ⟨hok, rfl, rfl⟩ | ⟨hno, rfl, rfl⟩⟩ := s.afterPadding_eq
  · rw [e]
    simp [hok, hp]
  · rw [e]
    simp [hno]

/-- Settles O42: the pixel written is the one read with the draws stored, and the walk goes on if a pixel follows. -/
theorem encStepPadsThePixel : Obligations.EncStepPadsThePixel := by
  intro s h hl hp
  obtain ⟨t, ht⟩ := h.encPixel_exists hl fun h0 => by cases hp.symm.trans h0
  obtain rfl := State.encPixel_padding ht hp
  have hsame : (s.image.pixWrite s.cur.x s.cur.y s.paddedPixel).pixRead s.cur.x s.cur.y = s.paddedPixel :=
    Image.pixRead_pixWrite_same h.image _ _ _
  obtain ⟨hok, hcur, hexh⟩ := State.advance_congr (s := s) (t := (s.draw 3).putCurPixel s.paddedPixel) rfl
  refine ⟨s.image.pixWrite s.cur.x s.cur.y s.paddedPixel, rfl, rfl,
    fun x y hne => Image.pixRead_pixWrite_other _ _ hne, fun j hj => ?_, ?_, ?_⟩
  · rw [hsame]
    exact s.lsb_channel_paddedPixel hj
  · rw [hsame]
    exact s.paddedPixel_sameButLsbs
  · rw [exec_encStep_of_encPixel ht, ← hok, ← hcur, ← hexh rfl]
    exact congrArg (fun u : State => Host.Outcome.next (u.setBusy false))
      (State.afterPadding_of_padding (s := (s.draw 3).putCurPixel s.paddedPixel) hp)

/-- Settles O43: the two commands answer the same pixel. -/
theorem encRunIsEncStepWithBusyHeld : Obligations.EncRunIsEncStepWithBusyHeld := by
  have run_of_pixel {s u : State} (hu : s.encPixel = .ok u) :
      exec .encRun s = .next { u.setBusy false with status := { (u.setBusy false).status with
        busy := decide ((u.setBusy false).status.eph = .payload ∨ (u.setBusy false).status.eph = .padding) } } := by
    rw [exec_encRun_of_encPixel hu, (Bool.eq_iff_iff.mpr (by simp [EncPhase.active_iff]) :
      u.status.eph.active = decide (u.status.eph = .payload ∨ u.status.eph = .padding))]
    rfl
  refine ⟨wordN_of_mem (by decide), fun s t h => ?_, fun s h hl hw => ?_⟩
  · obtain ⟨u, b, hu, -, -⟩ := encPixel_of_exec (.inl rfl) h
    cases (exec_encStep_of_encPixel hu).symm.trans h
    exact run_of_pixel hu
  · obtain ⟨u, hu⟩ := h.encPixel_exists hl fun _ => hw
    exact ⟨_, exec_encStep_of_encPixel hu, run_of_pixel hu⟩

/-! How a pixel leaves the walk: at the next coordinate, or at its end. -/

/-- The walk goes on in `t` at the coordinate after that of `s`, with OK, or has ended DONE at the final one. -/
def EncodeOutcome (s t : State) : Prop :=
    (s.cur.next = some t.cur ∧ t.status.eph.active = true ∧ t.status.result = .ok) ∨
      (s.cur.next = none ∧ t.status.eph = .done ∧ t.status.result = .encDone)

/-- After a payload step a pixel follows while bits are left, so the walk goes on or is DONE (R203, R209). -/
theorem State.Inv.afterPayload_outcome (h : s.Inv) (hp : s.status.eph = .payload)
    (ht : t = s.afterPayload s.enc.take) : EncodeOutcome s t := by
  have hl := Encoder.next_i_eq_l_iff (h.encoder.payload hp).1
  rw [ht, h.afterPayload_eq hp]
  obtain ⟨c, hc, hok, e⟩ | ⟨hc, hno, -⟩ := s.advance_cases
  · refine .inl ⟨by rw [e, hc], ?_, by simp [hok]⟩
    dsimp only
    split_ifs <;> rfl
  · have hend := hl.mpr fun hlt => by cases hno.symm.trans (h.advanceOk_of_bits_left hp hlt)
    exact .inr ⟨hc, by simp [hend, hno], by simp [hend, hno]⟩

/-- After a padding step likewise (R205). -/
theorem State.afterPadding_outcome (hp : s.status.eph = .padding) (ht : t = s.afterPadding) : EncodeOutcome s t := by
  rw [ht, State.afterPadding_of_padding hp]
  obtain ⟨c, hc, hok, e⟩ | ⟨hc, hno, -⟩ := s.advance_cases
  · exact .inl ⟨by rw [e, hc], by simp [hok, EncPhase.active], by simp [hok]⟩
  · exact .inr ⟨hc, by simp [hno], by simp [hno]⟩

/-- A pixel of an active encode walk. -/
theorem State.Inv.encPixel_outcome (h : s.Inv) (ha : s.status.eph.active = true) (ht : s.encPixel = .ok t) :
    EncodeOutcome s t := by
  obtain hp | hp := EncPhase.active_iff.mp ha
  · obtain ⟨q, -, e⟩ := State.encPixel_payload ht hp
    exact (h.putCurPixel q).afterPayload_outcome hp e
  · exact State.afterPadding_outcome (s := (s.draw 3).putCurPixel s.paddedPixel) hp (State.encPixel_padding ht hp)

/-- An encode walk that goes on does so at the next coordinate. -/
theorem State.Inv.encPixel_next_of_active (h : s.Inv) (ht : s.encPixel = .ok t) (ha : t.status.eph.active = true) :
    s.status.eph.active = true ∧ s.cur.next = some t.cur := by
  cases hs : s.status.eph.active with
  | false =>
    cases (State.encPixel_of_not_active hs).symm.trans ht
    cases hs.symm.trans ha
  | true =>
    obtain ⟨hn, -, -⟩ | ⟨-, hd, -⟩ := h.encPixel_outcome hs ht
    · exact ⟨rfl, hn⟩
    · rw [hd] at ha; cases ha

/-- A decode walk that goes on does so at the next coordinate (43_decoder.md R247). -/
theorem State.decPixel_next_of_active (ht : s.decPixel = .ok t) (ha : t.status.dph.active = true) :
    s.status.dph.active = true ∧ s.cur.next = some t.cur := by
  obtain ⟨hn, rfl⟩ | ⟨hr, -, ⟨-, rfl⟩ | ⟨-, rfl⟩ | ⟨-, rfl⟩⟩ := State.decPixel_cases ht
  · exact absurd (DecPhase.active_iff.mp ha) hn
  · cases ha
  · cases ha
  · obtain ⟨d, m, e, -⟩ := s.feed_eq (lsb s.curPixel.r) (lsb s.curPixel.g) (lsb s.curPixel.b)
    rw [e] at ha ⊢
    obtain ⟨c, hc, e'⟩ | ⟨-, e'⟩ := State.afterFeed_cases { s with dec := d, mbuf := m } <;> rw [e'] at ha ⊢
    · exact ⟨ha, hc⟩
    · cases ha

theorem State.decPixel_result (ht : s.decPixel = .ok t) : t.status.result ≠ .errNoMorePixels := by
  obtain ⟨hn, rfl⟩ | ⟨hr, -, ⟨-, rfl⟩ | ⟨-, rfl⟩ | ⟨-, rfl⟩⟩ := State.decPixel_cases ht
  · nofun
  · nofun
  · nofun
  · obtain ⟨c, -, e⟩ | ⟨-, e⟩ := State.afterFeed_cases
      (s.feed (lsb s.curPixel.r) (lsb s.curPixel.g) (lsb s.curPixel.b)) <;> rw [e] <;> nofun

/-- A command that takes no step of a walk at a pixel ends in its one step, and never with ERR_NO_MORE_PIXELS. -/
theorem exec_ends_outside_walks (hi : isPixelCommand i = false) (h : exec i s = .next t) :
    t.status.busy = false ∧ t.status.result ≠ .errNoMorePixels := by
  cases i with
  | nop | byteNew _ | byteStoreBit _ | byteStoreRandomBit | byteToSeq | byteToStr | byteCmp _ | softReset =>
    cases h; exact ⟨rfl, nofun⟩
  | byteFromSeq | byteFromSeqBounded | seqLoad _ _ | byteFromStr | curInBoundsX _ | curInBoundsY _ | curCapacity =>
    cases h; split <;> exact ⟨rfl, nofun⟩
  | curInit | curAdvance => cases h; split_ifs <;> exact ⟨rfl, nofun⟩
  | encStart =>
    cases h
    obtain ⟨-, e⟩ | ⟨-, p, c, e, ⟨-, -, rfl⟩ | ⟨-, -, rfl⟩⟩ := s.encStart_cases <;> rw [e] <;> exact ⟨rfl, nofun⟩
  | decStart =>
    cases h
    obtain ⟨q, c, e, ⟨-, -, rfl⟩ | ⟨-, -, rfl⟩⟩ := s.decStart_cases <;> rw [e] <;> exact ⟨rfl, nofun⟩
  | decFeed t0 t1 t2 =>
    obtain ⟨-, e⟩ | ⟨-, ⟨-, e⟩ | ⟨-, e⟩ | ⟨-, e⟩⟩ := execDecFeed_cases t0 t1 t2 s <;> cases e.symm.trans h <;>
      exact ⟨rfl, nofun⟩
  | encStep | encRun | decStep | decRun => cases hi

theorem pixelCommand_cases (hi : isPixelCommand i = true) :
    (i = .encStep ∨ i = .encRun) ∨ (i = .decStep ∨ i = .decRun) := by
  cases i <;> simp [isPixelCommand] at hi ⊢

/-- Settles O44: only a payload step could give that result, and while bits are left a pixel is left for them. -/
theorem noMorePixelsIsUnreachable : Obligations.NoMorePixelsIsUnreachable := by
  intro i s t h hi
  cases hp : isPixelCommand i with
  | false => exact (exec_ends_outside_walks hp hi).2
  | true =>
    obtain he | hd := pixelCommand_cases hp
    · obtain ⟨u, b, hu, rfl, -⟩ := encPixel_of_exec he hi
      cases ha : s.status.eph.active with
      | false =>
        cases (State.encPixel_of_not_active ha).symm.trans hu
        nofun
      | true =>
        obtain ⟨-, -, hr⟩ | ⟨-, -, hr⟩ := h.encPixel_outcome ha hu <;> simp [hr]
    · obtain ⟨u, b, hu, rfl, -⟩ := decPixel_of_exec hd hi
      exact (State.decPixel_result hu :)

/-- The next pixel has one pixel fewer to visit. -/
theorem pixelsLeft_next {c d : Cursor} (h : c.Inside) (hn : c.next = some d) : pixelsLeft d + 1 = pixelsLeft c := by
  obtain ⟨hw, hh, -, hin⟩ := Cursor.next_some hn
  obtain ⟨hx, hy, hidx⟩ := hin h.1 h.2
  have hlt := linear_lt hx hy
  rw [pixelsLeft, pixelsLeft]
  rw [hw] at hidx
  rw [hw, hh] at hlt ⊢
  omega

/-- Settles O59: BUSY is held only by a RUN in a walk that goes on, and that is at the next pixel. -/
theorem runsVisitOnePixelAStep : Obligations.RunsVisitOnePixelAStep := by
  intro i s t h hi hb
  cases hp : isPixelCommand i with
  | false => cases (exec_ends_outside_walks hp hi).1.symm.trans hb
  | true =>
    obtain he | hd := pixelCommand_cases hp
    · obtain ⟨u, b, hu, rfl, hrun⟩ := encPixel_of_exec he hi
      obtain ⟨rfl, hact⟩ := hrun hb
      obtain ⟨ha, hn⟩ := h.encPixel_next_of_active hu hact
      exact ⟨.inl rfl, pixelsLeft_next (h.inside (Status.walkActive_of_eph ha)) hn⟩
    · obtain ⟨u, b, hu, rfl, hrun⟩ := decPixel_of_exec hd hi
      obtain ⟨rfl, hact⟩ := hrun hb
      obtain ⟨ha, hn⟩ := State.decPixel_next_of_active hu hact
      exact ⟨.inr rfl, pixelsLeft_next (h.inside (Status.walkActive_of_dph ha)) hn⟩

/-! Where a command stops (42_encoder.md R202, 20_memory.md R60). -/

theorem State.encPixel_outside (ha : s.status.eph.active = true) (hout : s.image.has s.cur.x s.cur.y = false) :
    s.encPixel = .error (.pixelOutsideImage s.cur.x s.cur.y) := by
  obtain hp | hp := EncPhase.active_iff.mp ha
  · simp [State.encPixel, hp, State.encPayload, hout]
  · simp [State.encPixel, hp, State.encPadding, hout]

theorem State.decPixel_outside (hr : s.status.dph = .running) (hout : s.image.has s.cur.x s.cur.y = false) :
    s.decPixel = .error (.pixelOutsideImage s.cur.x s.cur.y) := by
  simp [State.decPixel, hr, DecPhase.active, hout]

/-- A channel whose payload bit exists is packed. -/
theorem State.packChannel_exists {b : Bool} (hb : s.payloadBit (s.enc.i.toNat + j) = .ok b) (c : Byte) :
    ∃ d, s.packChannel k j c = .ok d := by
  unfold State.packChannel
  split
  · exact ⟨_, by rw [hb]⟩
  · exact ⟨_, rfl⟩

/-- The first payload bit that a pixel needs and that does not exist stops it. -/
theorem State.packPixel_of_first_error (hj : j < 3) (hk : j < k)
    (he : s.payloadBit (s.enc.i.toNat + j) = .error f)
    (hok : ∀ m, m < j → ∃ b, s.payloadBit (s.enc.i.toNat + m) = .ok b) (p : Pixel) : s.packPixel k p = .error f := by
  have hstop (c : Byte) : s.packChannel k j c = .error f := by rw [State.packChannel, if_pos hk, he]
  have hpass (m : Nat) (hm : m < j) (c : Byte) : ∃ d, s.packChannel k m c = .ok d :=
    (hok m hm).elim fun _ hb => State.packChannel_exists hb c
  obtain rfl | rfl | rfl : j = 0 ∨ j = 1 ∨ j = 2 := by omega
  · simp [State.packPixel, hstop]
  · obtain ⟨r, hr⟩ := hpass 0 (by decide) p.r
    simp [State.packPixel, hr, hstop]
  · obtain ⟨r, hr⟩ := hpass 0 (by decide) p.r
    obtain ⟨g, hg⟩ := hpass 1 (by decide) p.g
    simp [State.packPixel, hr, hg, hstop]

/-- The bits of the next payload step, by their place in the pixel. -/
theorem bitOfStep_iff {q : Nat} : bitOfStep s q ↔ ∃ j, j < s.enc.take ∧ q = s.enc.i.toNat + j := by
  refine ⟨fun ⟨hle, hlt⟩ => ⟨q - s.enc.i.toNat, ?_, by omega⟩, ?_⟩
  · rw [Encoder.take]
    omega
  · rintro ⟨j, hj, rfl⟩
    exact ⟨by omega, Nat.add_lt_add_left hj _⟩

theorem exec_ne_refused {r : Refusal} : exec i s ≠ .refused r := by
  cases i with
  | encStep | encRun =>
    obtain ⟨u, -, e1, e2⟩ | ⟨g, -, e1, e2⟩ := execEnc_cases s <;> simp [exec, e1, e2]
  | decStep | decRun =>
    obtain ⟨u, -, e1, e2⟩ | ⟨g, -, e1, e2⟩ := execDec_cases s <;> simp [exec, e1, e2]
  | _ => nofun

theorem exec_completes_outside_walks (hi : isPixelCommand i = false) (s : State) : ∃ t, exec i s = .next t := by
  cases h : exec i s with
  | next t => exact ⟨t, rfl⟩
  | fault f => obtain ⟨rfl | rfl, -⟩ | ⟨rfl | rfl, -⟩ := exec_fault h <;> cases hi
  | refused r => exact absurd h exec_ne_refused

/-- A payload step stops at the first byte it needs that is UNSPEC. -/
theorem State.encPixel_of_unspec {q : Nat} (hin : s.image.has s.cur.x s.cur.y = true) (hp : s.status.eph = .payload)
    (hq : bitOfStep s q) (hlt : q / 8 < s.enc.n.toNat) (hv : Memory.read .pbuf s.pbuf (q / 8) = none)
    (hok : ∀ p, bitOfStep s p → p < q → ∃ b, s.payloadBit p = .ok b) :
    s.encPixel = .error (.pbufUnspec (q / 8)) := by
  obtain ⟨j, hj, rfl⟩ := bitOfStep_iff.mp hq
  have h3 : s.enc.take ≤ 3 := Nat.min_le_right _ _
  have hpack := State.packPixel_of_first_error (by omega) hj
    (State.payloadBit_of_byte_error (State.payloadByte_of_unspec hlt hv))
    (fun m hm => hok _ (bitOfStep_iff.mpr ⟨m, by omega, rfl⟩) (by omega)) s.curPixel
  simp [State.encPixel, hp, State.encPayload, hin, hpack]

/-- The only stops of a command in a state that meets the invariant: a payload bit lies in a byte of PBUF or in the
terminator. -/
theorem exec_fault_of_inv (h : s.Inv) (hi : exec i s = .fault f) :
    (isPixelCommand i = true ∧ s.image.has s.cur.x s.cur.y = false ∧ f = .pixelOutsideImage s.cur.x s.cur.y) ∨
      ((i = .encStep ∨ i = .encRun) ∧ s.status.eph = .payload ∧
        ∃ q, bitOfStep s q ∧ q / 8 < s.enc.n.toNat ∧ Memory.read .pbuf s.pbuf (q / 8) = none ∧
          f = .pbufUnspec (q / 8)) := by
  obtain ⟨he, hx⟩ | ⟨hd, hx⟩ := exec_fault hi
  · obtain ⟨hout, rfl⟩ | ⟨hp, j, hj, hb⟩ := State.encPixel_error hx
    · exact .inl ⟨by obtain rfl | rfl := he <;> rfl, hout, rfl⟩
    · obtain ⟨hlt, hv, rfl⟩ | ⟨hpast, -⟩ := State.payloadBit_error hb
      · exact .inr ⟨he, hp, _, bitOfStep_iff.mpr ⟨j, hj, rfl⟩, hlt, hv, rfl⟩
      · have hbit := h.bit_lt hp hj
        rw [payloadBits] at hbit
        omega
  · obtain ⟨hout, rfl⟩ := State.decPixel_error hx
    exact .inl ⟨by obtain rfl | rfl := hd <;> rfl, hout, rfl⟩

/-- With the latched image open and the payload written every command completes. -/
theorem exec_completes_of_inv (h : s.Inv) (hl : s.imageLatched) (hw : s.pbufWritten s.enc.n.toNat) (i : Instr) :
    ∃ t, exec i s = .next t := by
  cases hp : isPixelCommand i with
  | false => exact exec_completes_outside_walks hp s
  | true =>
    obtain ⟨u, hu⟩ := h.encPixel_exists hl fun _ => hw
    obtain ⟨v, hv⟩ := h.decPixel_exists hl
    obtain (rfl | rfl) | (rfl | rfl) := pixelCommand_cases hp
    · exact ⟨_, exec_encStep_of_encPixel hu⟩
    · exact ⟨_, exec_encRun_of_encPixel hu⟩
    · exact ⟨_, exec_decStep_of_decPixel hv⟩
    · exact ⟨_, exec_decRun_of_decPixel hv⟩

/-- Settles O54, from why a pixel of either walk stops. -/
theorem commandsStopOnlyByName : Obligations.CommandsStopOnlyByName := by
  refine ⟨fun s hout => ⟨fun hp => ?_, fun hr => ?_⟩, fun s q hin hp hq hlt hv hok => ?_,
    fun i s f h hi => exec_fault_of_inv h hi, fun i s r => exec_ne_refused,
    fun i s hi => exec_completes_outside_walks hi s, fun i s h hl hw => exec_completes_of_inv h hl hw i⟩
  · exact exec_of_encPixel_error (State.encPixel_outside (EncPhase.active_iff.mpr hp) hout)
  · exact exec_of_decPixel_error (State.decPixel_outside hr hout)
  · exact exec_of_encPixel_error (State.encPixel_of_unspec hin hp hq hlt hv hok)

end Sys2Proof.Machine
end

section
/-! SUPPORT. The encode walk from its first pixel to its last (42_encoder.md R207, R208, R210). -/

namespace Sys2Proof.Machine

open Sys2Proof.Claims

variable {s t u : State} {m : Nat}

/-- Two pixels of one image with the same linear index are one pixel (20_memory.md R64). -/
theorem linear_inj {w x y x' y' : Coord} (hx : x.toNat < w.toNat) (hx' : x'.toNat < w.toNat)
    (h : linear w x y = linear w x' y') : x = x' ∧ y = y' := by
  have hmod (a b : Coord) (ha : a.toNat < w.toNat) : linear w a b % w.toNat = a.toNat := by
    rw [linear, Nat.mul_add_mod', Nat.mod_eq_of_lt ha]
  have hdiv (a b : Coord) (ha : a.toNat < w.toNat) : linear w a b / w.toNat = b.toNat := by
    rw [linear, Nat.mul_comm, Nat.mul_add_div (by omega), Nat.div_eq_of_lt ha, Nat.add_zero]
  exact ⟨BitVec.eq_of_toNat_eq (by rw [← hmod x y hx, h, hmod x' y' hx']),
    BitVec.eq_of_toNat_eq (by rw [← hdiv x y hx, h, hdiv x' y' hx'])⟩

/-- What the walk from `s` makes of pixel number `p`, read as `old`: its payload bits, channels past the payload as
they were, and in the padding three draws of its own (R208, R210). -/
structure EncodedPixel (s : State) (p : Nat) (old new : Pixel) : Prop where
  high : old.sameButLsbs new
  payload : ∀ j, j < 3 → 3 * p + j < s.enc.l.toNat → s.payloadBit (3 * p + j) = .ok (lsb (channel new j))
  rest : ∀ j, j < 3 → p < payloadPixels s.enc.l.toNat → s.enc.l.toNat ≤ 3 * p + j → channel new j = channel old j
  padding : ∀ j, j < 3 → payloadPixels s.enc.l.toNat ≤ p →
    lsb (channel new j) = s.randBit (3 * (p - payloadPixels s.enc.l.toNat) + j)

/-- The state `t` of the walk from `s` with `m` pixels behind it: the invariant, what no pixel changes, the draws, and
the image, encoded before pixel `m` and as in `s` from there. -/
structure Walked (s : State) (m : Nat) (t : State) : Prop where
  inv : t.Inv
  params : t.params = s.params
  cmdr : t.cmdr = s.cmdr
  regs : t.regs = s.regs
  pbuf : t.pbuf = s.pbuf
  moves : t.env.moves = s.env.moves
  wl : t.cur.wl = s.cur.wl
  hl : t.cur.hl = s.cur.hl
  encL : t.enc.l = s.enc.l
  encN : t.enc.n = s.enc.n
  imageW : t.image.w = s.image.w
  imageH : t.image.h = s.image.h
  draws : t.env.draws = s.env.draws + 3 * (m - payloadPixels s.enc.l.toNat)
  pixels : ∀ x y : Coord, x.toNat < s.cur.wl.toNat →
    if linear s.cur.wl x y < m then
      EncodedPixel s (linear s.cur.wl x y) (s.image.pixRead x y) (t.image.pixRead x y)
    else t.image.pixRead x y = s.image.pixRead x y

/-- The walk stands before its pixel `m`. -/
structure Walking (s : State) (m : Nat) (t : State) : Prop extends Walked s m t where
  active : t.status.eph.active = true
  index : t.cur.index = m

theorem Walking.start (h : s.Inv) (hp : s.status.eph = .payload) (hi : s.enc.i = 0) : Walking s 0 s where
  inv := h
  params := rfl
  cmdr := rfl
  regs := rfl
  pbuf := rfl
  moves := rfl
  wl := rfl
  hl := rfl
  encL := rfl
  encN := rfl
  imageW := rfl
  imageH := rfl
  draws := by simp
  pixels x y _ := by simp
  active := EncPhase.active_iff.mpr (.inl hp)
  index := by
    have hpos : s.enc.i.toNat = 3 * s.cur.index := (h.encoder.payload hp).2
    rw [hi] at hpos
    simpa using hpos.symm

theorem Walking.latched (h : Walking s m t) (hl : s.imageLatched) : t.imageLatched :=
  ⟨by rw [h.imageW, h.wl, hl.1], by rw [h.imageH, h.hl, hl.2]⟩

theorem Walking.written (h : Walking s m t) (hw : s.pbufWritten s.enc.n.toNat) : t.pbufWritten t.enc.n.toNat := by
  rw [h.encN]
  intro j hj
  rw [h.pbuf]
  exact hw j hj

/-- In the payload ENC_I is three bits for each pixel behind (R204), and no pixel is padded yet. -/
theorem Walking.payload_index (h : Walking s m t) (hp : t.status.eph = .payload) :
    t.enc.i.toNat = 3 * m ∧ 3 * m < s.enc.l.toNat := by
  obtain ⟨hlt, hpos⟩ := h.inv.encoder.payload hp
  have hpos : t.enc.i.toNat = 3 * t.cur.index := hpos
  rw [h.index] at hpos
  rw [h.encL] at hlt
  exact ⟨hpos, hpos ▸ hlt⟩

/-- In the padding the payload's pixels are behind. -/
theorem Walking.padding_index (h : Walking s m t) (hp : t.status.eph = .padding) : s.enc.l.toNat ≤ 3 * m := by
  have hle : t.enc.l.toNat ≤ 3 * t.cur.index := (h.inv.encoder.padding hp).2
  rwa [h.index, h.encL] at hle

/-- A payload step encodes its pixel. -/
theorem Walking.packed (h : Walking s m t) (hp : t.status.eph = .payload) {q : Pixel}
    (hq : t.packPixel t.enc.take t.curPixel = .ok q) : EncodedPixel s m t.curPixel q := by
  obtain ⟨hi, hlt⟩ := h.payload_index hp
  have htake (j : Nat) (hj : j < 3) : j < t.enc.take ↔ 3 * m + j < s.enc.l.toNat := by
    rw [Encoder.take, h.encL, hi]
    omega
  have hchan (j : Nat) (hj : j < 3) := State.packPixel_channel hq hj
  refine ⟨State.packPixel_sameButLsbs hq, fun j hj hb => ?_, fun j hj _ hb => ?_, fun j hj hb => ?_⟩
  · have := hchan j hj
    rwa [if_pos ((htake j hj).mpr hb), hi, State.payloadBit_congr h.pbuf h.encN h.params] at this
  · have := hchan j hj
    rwa [if_neg (by rw [htake j hj]; omega)] at this
  · rw [payloadPixels] at hb
    omega

/-- A padding step encodes its pixel. -/
theorem Walking.padded (h : Walking s m t) (hp : t.status.eph = .padding) :
    EncodedPixel s m t.curPixel t.paddedPixel := by
  have hle := h.padding_index hp
  refine ⟨t.paddedPixel_sameButLsbs, fun j hj hb => ?_, fun j hj hb _ => ?_, fun j hj hb => ?_⟩
  · omega
  · rw [payloadPixels] at hb
    omega
  · rw [t.lsb_channel_paddedPixel hj, State.randBit, h.draws, State.randBit, Nat.add_assoc]

/-- One pixel of the walk writes the encoded pixel at the cursor. -/
theorem Walking.image_of_encPixel (h : Walking s m t) (hu : t.encPixel = .ok u) :
    ∃ q, EncodedPixel s m t.curPixel q ∧ u.image = t.image.pixWrite t.cur.x t.cur.y q := by
  obtain hp | hp := EncPhase.active_iff.mp h.active
  · obtain ⟨q, hq, rfl⟩ := State.encPixel_payload hu hp
    obtain ⟨c, p, e, -⟩ := (t.putCurPixel q).afterPayload_eq t.enc.take
    exact ⟨q, h.packed hp hq, by rw [e]; rfl⟩
  · obtain rfl := State.encPixel_padding hu hp
    obtain ⟨c, p, e, -⟩ := ((t.draw 3).putCurPixel t.paddedPixel).afterPadding_eq
    exact ⟨_, h.padded hp, by rw [e]; rfl⟩

/-- One pixel takes the walk from `m` pixels behind it to `m + 1`. -/
theorem Walking.encPixel (h : Walking s m t) (hu : t.encPixel = .ok u) : Walked s (m + 1) u := by
  obtain ⟨q, henc, himg⟩ := h.image_of_encPixel hu
  obtain ⟨hx, hy⟩ := h.inv.inside (Status.walkActive_of_eph h.active)
  have hinv := h.inv.encPixel hu
  have hpix := h.pixels
  have hidx : linear s.cur.wl t.cur.x t.cur.y = m := by rw [← h.wl]; exact h.index
  have hdraws : (if t.status.eph = .padding then 3 else 0) + 3 * (m - payloadPixels s.enc.l.toNat) =
      3 * (m + 1 - payloadPixels s.enc.l.toNat) := by
    rw [payloadPixels]
    obtain hp | hp := EncPhase.active_iff.mp h.active
    · have := (h.payload_index hp).2
      rw [if_neg (by rw [hp]; nofun)]
      omega
    · have := h.padding_index hp
      rw [if_pos hp]
      omega
  obtain ⟨c, n, st, img, rfl, hw, hh, -, -⟩ := State.encPixel_frame hu
  subst himg
  refine ⟨hinv, h.params, h.cmdr, h.regs, h.pbuf, h.moves, hw.trans h.wl, hh.trans h.hl, h.encL, h.encN, h.imageW,
    h.imageH, ?_, fun x y hxw => ?_⟩
  · change t.env.draws + _ = _
    rw [h.draws]
    omega
  · have hold := hpix x y hxw
    by_cases hc : x = t.cur.x ∧ y = t.cur.y
    · obtain ⟨rfl, rfl⟩ := hc
      rw [hidx] at hold ⊢
      rw [if_neg (lt_irrefl m)] at hold
      rw [if_pos (Nat.lt_succ_self m), Image.pixRead_pixWrite_same h.inv.image, ← hold]
      exact henc
    · have hne : linear s.cur.wl x y ≠ m := fun he => hc (linear_inj hxw (h.wl ▸ hx) (he.trans hidx.symm))
      rw [Image.pixRead_pixWrite_other _ _ hc]
      have hiff : linear s.cur.wl x y < m + 1 ↔ linear s.cur.wl x y < m := by omega
      simpa only [hiff] using hold

/-- BUSY is no part of what the walk keeps. -/
theorem Walked.setBusy (h : Walked s m t) (b : Bool) : Walked s m (t.setBusy b) :=
  ⟨h.inv.setBusy b, h.params, h.cmdr, h.regs, h.pbuf, h.moves, h.wl, h.hl, h.encL, h.encN, h.imageW, h.imageH,
    h.draws, h.pixels⟩

/-- The walk goes on where a pixel follows. -/
theorem Walking.next (h : Walking s m t) (hu : t.encPixel = .ok u) (hn : t.cur.next = some u.cur)
    (ha : u.status.eph.active = true) : m + 1 < s.cur.size ∧ Walking s (m + 1) u := by
  obtain ⟨hx, hy⟩ := h.inv.inside (Status.walkActive_of_eph h.active)
  obtain ⟨hw, hh, -, hin⟩ := Cursor.next_some hn
  obtain ⟨hx', hy', hidx⟩ := hin hx hy
  have hidx : u.cur.index = m + 1 := hidx.trans (congrArg (· + 1) h.index)
  have hlt : u.cur.index < u.cur.size := linear_lt hx' hy'
  rw [hidx, Cursor.size_congr (hw.trans h.wl) (hh.trans h.hl)] at hlt
  exact ⟨hlt, { h.encPixel hu with active := ha, index := hidx }⟩

/-- Where no pixel follows, all are behind. -/
theorem Walking.last (h : Walking s m t) (hn : t.cur.next = none) : m + 1 = s.cur.size := by
  obtain ⟨hx, hy⟩ := h.inv.inside (Status.walkActive_of_eph h.active)
  obtain ⟨-, -, hlast⟩ := Cursor.next_none hn hx hy
  have hlast : t.cur.index + 1 = t.cur.size := hlast
  rwa [h.index, Cursor.size_congr h.wl h.hl] at hlast

/-- The walk from `s` has ended: every pixel is behind, DONE with ENC_DONE. -/
structure WalkDone (s t : State) : Prop extends Walked s s.cur.size t where
  eph : t.status.eph = .done
  result : t.status.result = .encDone
  busy : t.status.busy = false

section

variable (hl : s.imageLatched) (hw : s.pbufWritten s.enc.n.toNat) (hcmd : decode s.cmdr = .ok .encRun)
  (hm : s.env.moves = [])
include hl hw hcmd hm

/-- A step of ENC_RUN in the walk: on to the next pixel with BUSY held, or to the end. -/
theorem Walking.step (h : Walking s m t) (hb : t.status.busy = true) :
    ∃ u, step t = .next u ∧ ((m + 1 < s.cur.size ∧ Walking s (m + 1) u ∧ u.status.busy = true) ∨
      (m + 1 = s.cur.size ∧ WalkDone s u)) := by
  obtain ⟨u, hu⟩ := h.inv.encPixel_exists (h.latched hl) fun _ => h.written hw
  refine ⟨u.setBusy u.status.eph.active, ?_, ?_⟩
  · rw [step_of_no_moves (h.moves.trans hm), sequencerTurn_of_busy hb, seqStep_of_decode (h.cmdr ▸ hcmd),
      exec_encRun_of_encPixel hu]
  · obtain ⟨hn, ha, -⟩ | ⟨hn, hd, hr⟩ := h.inv.encPixel_outcome h.active hu
    · obtain ⟨hlt, hnext⟩ := h.next hu hn ha
      exact .inl ⟨hlt, { hnext.toWalked.setBusy _ with active := ha, index := hnext.index }, ha⟩
    · have hlast := h.last hn
      refine .inr ⟨hlast, { hlast ▸ (h.encPixel hu).setBusy _ with eph := hd, result := hr, busy := ?_ }⟩
      rw [State.setBusy_status, hd]
      rfl

/-- ENC_RUN before pixel `m` of `m + k + 1` ends the walk in `k + 1` steps. -/
theorem Walking.run (k : Nat) (h : Walking s m t) (hb : t.status.busy = true) (hk : m + k + 1 = s.cur.size) :
    ∃ u, Sys2Proof.core.run (k + 1) t = .next u ∧ WalkDone s u := by
  induction k generalizing m t with
  | zero =>
    obtain ⟨u, hs, ⟨hlt, -⟩ | ⟨-, hdone⟩⟩ := h.step hl hw hcmd hm hb
    · omega
    · exact ⟨u, run_succ_of_next 0 hs, hdone⟩
  | succ k ih =>
    obtain ⟨u, hs, ⟨-, hgo, hbusy⟩ | ⟨hlast, -⟩⟩ := h.step hl hw hcmd hm hb
    · obtain ⟨v, hv, hdone⟩ := ih hgo hbusy (by omega)
      exact ⟨v, (run_succ_of_next _ hs).trans hv, hdone⟩
    · omega

end

/-- Settles O45, by induction on the pixels left: each step of ENC_RUN encodes one. -/
theorem encodeWalkClosedForm : Obligations.EncodeWalkClosedForm := by
  intro s h hl hw hp hi hb hm hc
  have hcmd : decode s.cmdr = .ok .encRun := by rw [hc]; decide
  have hin := h.inside (Status.walkActive_of_eph (EncPhase.active_iff.mpr (.inl hp)))
  obtain ⟨k, hk⟩ : ∃ k, s.cur.size = k + 1 := Nat.exists_eq_add_one.mpr (Nat.zero_lt_of_lt hin.index_lt)
  obtain ⟨t, hrun, hdone⟩ := (Walking.start h hp hi).run hl hw hcmd hm k hb (by omega)
  refine ⟨t, (congrArg (fun n => Sys2Proof.core.run n s) hk).trans hrun, hdone.eph, hdone.result, hdone.busy,
    hdone.moves.trans hm, hdone.imageW, hdone.imageH, hdone.pbuf, hdone.regs, hdone.params, fun x y hx hy => ?_⟩
  have hpix := hdone.pixels x y hx
  have hlt : linear s.cur.wl x y < s.cur.size := linear_lt hx hy
  rw [if_pos hlt] at hpix
  exact ⟨hpix.high, fun j hj => ⟨hpix.payload j hj, hpix.rest j hj, hpix.padding j hj⟩⟩

end Sys2Proof.Machine
end

section
/-! SUPPORT. The decoder commands: ACC as a sequence of bits, what `feed` makes of it, and each command in and out of
its phase. -/

namespace Sys2Proof.Machine

open Sys2Proof.Claims

variable {i : Instr} {s t : State} {d : Decoder} {rest : List Bool} {t0 t1 t2 : Bool}

/-! ACC as the bits that are not yet in MBUF (10_state.md R41, R43). -/

theorem fold_append (l r : List Bool) : fold (l ++ r) = fold l * 2 ^ r.length + fold r := by
  induction r using List.reverseRecOn with
  | nil => simp [fold]
  | append_singleton r b ih =>
    rw [← List.append_assoc, fold_concat, ih, fold_concat, List.length_append, List.length_singleton, pow_succ]
    ring

/-- Every value that fits its length is the fold of bits. -/
theorem exists_fold_eq {v n : Nat} (h : v < 2 ^ n) : ∃ l : List Bool, l.length = n ∧ fold l = v := by
  induction n generalizing v with
  | zero => exact ⟨[], rfl, (Nat.lt_one_iff.mp h).symm⟩
  | succ n ih =>
    obtain ⟨l, hl, hv⟩ := ih (v := v / 2) (by omega)
    refine ⟨l ++ [v.bodd], by simp [hl], ?_⟩
    rw [fold_concat, hv, ← Nat.mod_two_of_bodd, Nat.div_add_mod]

/-- ACC holds the bits `rest`: the first eight in the accumulator, the others in the spillover. -/
structure Decoder.Holds (rest : List Bool) (d : Decoder) : Prop where
  accLen : d.accLen.toNat = min 8 rest.length
  accV : d.accV.toNat = fold (rest.take 8)
  spillLen : d.spillLen.toNat = rest.length - 8
  spillV : d.spillV.toNat = fold (rest.drop 8)
  room : rest.length ≤ 10

/-- ACC of a decoder that meets the invariant holds some bits. -/
theorem Decoder.Inv.holds {n : Nat} (h : d.Inv n) : ∃ rest, d.Holds rest := by
  obtain ⟨a, ha, hav⟩ := exists_fold_eq h.accV
  obtain ⟨b, hb, hbv⟩ := exists_fold_eq h.spillV
  have hshape := Decoder.shape_mem.mp h.shape
  have hsplit : (a ++ b).take 8 = a ∧ (a ++ b).drop 8 = b := by
    obtain ⟨h8, -⟩ | ⟨hlt, -, -, h0⟩ := hshape
    · rw [← h8, ← ha]
      exact ⟨List.take_left, List.drop_left⟩
    · obtain rfl : b = [] := List.eq_nil_of_length_eq_zero (hb.trans h0)
      rw [List.append_nil]
      exact ⟨List.take_of_length_le (by omega), List.drop_of_length_le (by omega)⟩
  have hlen : (a ++ b).length = d.accLen.toNat + d.spillLen.toNat := by rw [List.length_append, ha, hb]
  exact ⟨a ++ b, by omega, by rw [hsplit.1, hav], by omega, by rw [hsplit.2, hbv], by omega⟩

theorem Decoder.Holds.accLen_eq_eight (h : d.Holds rest) : d.accLen = 8#4 ↔ 8 ≤ rest.length := by
  rw [← BitVec.toNat_inj, h.accLen]
  simp

theorem Decoder.Holds.pushAcc (h : d.Holds rest) (b : Bool) (hl : rest.length < 8) :
    (d.pushAcc b).Holds (rest ++ [b]) := by
  have hlen := h.accLen
  have hval := h.accV
  rw [List.take_of_length_le (by omega)] at hval
  have hbound := fold_lt rest
  have hnone := h.spillV
  rw [List.drop_of_length_le (by omega)] at hnone
  have hone : (rest ++ [b]).length = rest.length + 1 := List.length_append
  obtain ⟨hv', hl'⟩ := Decoder.pushAcc_toNat b (d := d) (by omega)
    (by rwa [hval, hlen, Nat.min_eq_right (by omega)])
  constructor
  case accLen => omega
  case accV => rw [hv', hval, List.take_of_length_le (by omega), fold_concat]
  case spillLen => exact h.spillLen.trans (by omega)
  case spillV =>
    rw [List.drop_of_length_le (by omega)]
    exact hnone
  case room => omega

theorem Decoder.Holds.pushSpill (h : d.Holds rest) (b : Bool) (h8 : 8 ≤ rest.length) (hl : rest.length < 10) :
    (d.pushSpill b).Holds (rest ++ [b]) := by
  have hlen := h.spillLen
  have hval := h.spillV
  have hbound := fold_lt (rest.drop 8)
  rw [List.length_drop] at hbound
  have hone : (rest ++ [b]).length = rest.length + 1 := List.length_append
  obtain ⟨hv', hl'⟩ := Decoder.pushSpill_toNat b (d := d) (by omega) (by rwa [hval, hlen])
  constructor
  case accLen => exact h.accLen.trans (by omega)
  case accV =>
    rw [List.take_append_of_le_length h8]
    exact h.accV
  case spillLen => omega
  case spillV => rw [hv', hval, List.drop_append_of_le_length h8, fold_concat]
  case room => omega

/-- A triplet fed into an accumulator that is not full follows the bits in it (43_decoder.md R243). -/
theorem Decoder.Holds.pushTriplet (h : d.Holds rest) (hl : rest.length < 8) (t0 t1 t2 : Bool) :
    (d.pushTriplet t0 t1 t2).Holds (rest ++ [t0, t1, t2]) := by
  have hlen (n : BitVec 4) : d.accLen = n ↔ rest.length = n.toNat := by
    rw [← BitVec.toNat_inj, h.accLen, Nat.min_eq_right (by omega)]
  have h0 := h.pushAcc t0 hl
  rw [show rest ++ [t0, t1, t2] = rest ++ [t0] ++ [t1] ++ [t2] by simp]
  unfold Decoder.pushTriplet
  split
  · next h7 =>
    have h7 : rest.length = 7 := (hlen _).mp h7
    exact (h0.pushSpill t1 (by simp [h7]) (by simp [h7])).pushSpill t2 (by simp [h7]) (by simp [h7])
  · next h7 =>
    have h7 : rest.length ≠ 7 := mt (hlen 7#4).mpr h7
    have h1 := h0.pushAcc t1 (by simp; omega)
    split
    · next h6 =>
      have h6 : rest.length = 6 := (hlen _).mp h6
      exact h1.pushSpill t2 (by simp [h6]) (by simp [h6])
    · next h6 =>
      have h6 : rest.length ≠ 6 := mt (hlen 6#4).mpr h6
      exact h1.pushAcc t2 (by simp; omega)

/-- ACC and MLEN after a complete byte is appended: the spillover has become the accumulator, and the triplet is pushed
into it (R243). -/
def Decoder.nextByte (t0 t1 t2 : Bool) (d : Decoder) : Decoder :=
  ((Decoder.pushAcc { d.spillToAcc with mlen := d.mlen + 1 } t0).pushAcc t1).pushAcc t2

/-- A triplet fed after a complete byte follows the spillover's bits. -/
theorem Decoder.Holds.nextByte (h : d.Holds rest) (h8 : 8 ≤ rest.length) (t0 t1 t2 : Bool) :
    (d.nextByte t0 t1 t2).Holds (rest.drop 8 ++ [t0, t1, t2]) := by
  have hroom := h.room
  have hl : (rest.drop 8).length = rest.length - 8 := List.length_drop
  have hfew : (rest.drop 8).take 8 = rest.drop 8 ∧ (rest.drop 8).drop 8 = [] :=
    ⟨List.take_of_length_le (by omega), List.drop_of_length_le (by omega)⟩
  have hspill : Decoder.Holds (rest.drop 8) { d.spillToAcc with mlen := d.mlen + 1 } := by
    constructor
    case accLen =>
      change (d.spillLen.setWidth 4).toNat = _
      rw [BitVec.toNat_setWidth_of_le (by decide), h.spillLen]
      omega
    case accV =>
      change (d.spillV.setWidth 8).toNat = _
      rw [BitVec.toNat_setWidth_of_le (by decide), h.spillV, hfew.1]
    case spillLen =>
      change 0 = _
      omega
    case spillV =>
      rw [hfew.2]
      rfl
    case room => omega
  rw [show rest.drop 8 ++ [t0, t1, t2] = rest.drop 8 ++ [t0] ++ [t1] ++ [t2] by simp]
  exact ((hspill.pushAcc t0 (by omega)).pushAcc t1 (by simp; omega)).pushAcc t2 (by simp; omega)

/-! The feed function (43_decoder.md R243, R244). -/

theorem Memory.read_write_mbuf_same (m : Memory) (a : Nat) (v : Byte) :
    Memory.read .mbuf (Memory.write .mbuf m a v) a = some v := by
  have hw : Memory.write .mbuf m a v = Memory.insert m a v := if_neg nofun
  rw [Memory.read, hw, Memory.lookup_insert_same]

/-- A complete byte is appended and the triplet follows the spillover. -/
theorem State.feed_of_full (h : s.dec.accLen = 8#4) : s.feed t0 t1 t2 = { s with
    mbuf := Memory.write .mbuf s.mbuf s.dec.mlen.toNat s.dec.accV
    dec := s.dec.nextByte t0 t1 t2 } :=
  if_pos h

/-- The triplet follows the accumulator. -/
theorem State.feed_of_partial (h : s.dec.accLen ≠ 8#4) :
    s.feed t0 t1 t2 = { s with dec := s.dec.pushTriplet t0 t1 t2 } :=
  if_neg h

/-- MLEN does not wrap where a byte may be appended. -/
theorem State.mlen_add_one (h : s.dec.mlen.toNat < s.params.mbufMax) :
    (s.dec.mlen + 1).toNat = s.dec.mlen.toNat + 1 := by
  have hmax := s.params.legal.2.2.2
  rw [BitVec.toNat_add]
  exact Nat.mod_eq_of_lt (by simp; omega)

/-! DEC_START, and DEC_FEED by the result of `feed` (R241, R249). -/

/-- Settles O47, from everything DEC_START can do. -/
theorem decStartClearsTheDecoder : Obligations.DecStartClearsTheDecoder := by
  refine ⟨wordN_of_mem (by decide), fun s =>
    ⟨s.cursorInit.cur.wl, s.cursorInit.cur.hl, coordBitsOf_toNat _ _, coordBitsOf_toNat _ _, ?_⟩⟩
  simp only [← Cursor.empty_eq_true]
  obtain ⟨q, c, e, ⟨he, rfl, rfl⟩ | ⟨hne, rfl, rfl⟩⟩ := s.decStart_cases
  · rw [if_pos he]
    exact congrArg _ e
  · rw [if_neg (Bool.eq_false_iff.mp hne)]
    exact congrArg _ e

theorem exec_decFeed_of_not_running (hr : s.status.dph ≠ .running) :
    exec (.decFeed t0 t1 t2) s = .next (s.endStep .errSeq) := by
  obtain ⟨-, e⟩ | ⟨hr', -⟩ := execDecFeed_cases t0 t1 t2 s
  · exact e
  · exact absurd hr' hr

section
variable (hr : s.status.dph = .running)
include hr

theorem exec_decFeed_of_found (hf : s.feedOut = .found) :
    exec (.decFeed t0 t1 t2) s = .next (s.decFound.setBusy false) := by
  simp only [exec, execDecFeed, hr, hf, DecPhase.active, if_true]

theorem exec_decFeed_of_overflow (hf : s.feedOut = .overflow) :
    exec (.decFeed t0 t1 t2) s = .next (s.decOverflow.setBusy false) := by
  simp only [exec, execDecFeed, hr, hf, DecPhase.active, if_true]

theorem exec_decFeed_of_cont (hf : s.feedOut = .cont) :
    exec (.decFeed t0 t1 t2) s = .next ((s.feed t0 t1 t2).endStep .ok) := by
  simp only [exec, execDecFeed, hr, hf, DecPhase.active, if_true]

end

/-- Settles O48: the bits of ACC are those of the byte that goes to MBUF and those that the triplet follows. -/
theorem decFeedFollowsTheTable : Obligations.DecFeedFollowsTheTable := by
  refine ⟨fun w hop => ?_, fun t0 t1 t2 s hp => exec_decFeed_of_not_running (bne_iff_ne.mp hp),
    fun s t0 t1 t2 h hr => ?_⟩
  · rw [decode_decFeed hop, decodeT3]
    split <;> rfl
  obtain ⟨rest, hd⟩ := h.decoder.holds
  obtain ⟨hfound, hover, hcont⟩ := s.feedOut_eq
  have h8 : s.dec.accLen = 8#4 ↔ s.dec.accLen.toNat = 8 := by rw [← BitVec.toNat_inj]; rfl
  refine ⟨fun hl hv => exec_decFeed_of_found hr (hfound.mpr ⟨h8.mpr hl, hv⟩),
    fun hl hv hm => exec_decFeed_of_overflow hr (hover.mpr ⟨h8.mpr hl, hv, hm⟩), fun hl hv hm => ?_, fun hl => ?_⟩
  · have hlen : 8 ≤ rest.length := hd.accLen_eq_eight.mp (h8.mpr hl)
    have hnew := hd.nextByte hlen t0 t1 t2
    have hroom := hd.room
    have hfew : (rest.drop 8 ++ [t0, t1, t2]).length = rest.length - 8 + 3 := by simp
    refine ⟨_, s.dec.nextByte t0 t1 t2, ?_, Memory.read_write_mbuf_same _ _ _,
      fun a ha => Memory.read_write_other _ _ ha, State.mlen_add_one hm, ?_, BitVec.eq_of_toNat_eq ?_,
      BitVec.eq_of_toNat_eq ?_, ?_⟩
    · rw [exec_decFeed_of_cont hr (hcont.mpr fun _ => ⟨hv, hm.ne⟩), State.feed_of_full (h8.mpr hl)]
      rfl
    · rw [hnew.accLen, hd.spillLen]
      omega
    · rw [hnew.spillLen, hfew]
      exact Nat.sub_eq_zero_of_le (by omega)
    · rw [hnew.spillV, List.drop_of_length_le (by omega)]
      rfl
    · rw [hnew.accV, List.take_of_length_le (by omega), fold_append, hd.spillV, Nat.mul_comm]
      rfl
  · have hlen : rest.length < 8 := by rw [hd.accLen] at hl; omega
    have hnew := hd.pushTriplet hlen t0 t1 t2
    have hacc : s.dec.accLen.toNat = rest.length := hd.accLen.trans (Nat.min_eq_right hlen.le)
    have hval := hd.accV
    rw [List.take_of_length_le hlen.le] at hval
    have hpart : s.dec.accLen ≠ 8#4 := mt h8.mp hl.ne
    refine ⟨s.dec.pushTriplet t0 t1 t2, ?_, Decoder.pushTriplet_mlen t0 t1 t2 s.dec, ?_, ?_, ?_, ?_⟩
    · rw [exec_decFeed_of_cont hr (hcont.mpr fun h0 => absurd h0 hpart), State.feed_of_partial hpart]
      rfl
    · rw [hnew.accLen, hacc, List.length_append]
      rfl
    · rw [hnew.spillLen, hacc, List.length_append]
      rfl
    · rw [hnew.accV, hval, hacc, List.take_append, List.take_of_length_le hlen.le, fold_append, List.length_take,
        Nat.min_comm]
      rfl
    · rw [hnew.spillV, hacc, List.drop_append, List.drop_of_length_le hlen.le, List.nil_append]

/-! DEC_STEP and DEC_RUN (R247, R248). -/

theorem State.decPixel_of_not_running (hr : s.status.dph ≠ .running) : s.decPixel = .ok (s.finish .errSeq) :=
  if_neg (mt DecPhase.active_iff.mp hr)

section
variable (hr : s.status.dph = .running) (hin : s.image.has s.cur.x s.cur.y = true)
include hr hin

theorem State.decPixel_of_found (hf : s.feedOut = .found) : s.decPixel = .ok s.decFound := by
  simp only [State.decPixel, hr, hin, hf, DecPhase.active, if_true]

theorem State.decPixel_of_overflow (hf : s.feedOut = .overflow) : s.decPixel = .ok s.decOverflow := by
  simp only [State.decPixel, hr, hin, hf, DecPhase.active, if_true]

theorem State.decPixel_of_cont (hf : s.feedOut = .cont) :
    s.decPixel = .ok (s.feed (lsb s.curPixel.r) (lsb s.curPixel.g) (lsb s.curPixel.b)).afterFeed := by
  simp only [State.decPixel, hr, hin, hf, DecPhase.active, if_true, Pixel.triplet]

end

theorem State.feed_cur (t0 t1 t2 : Bool) (s : State) : (s.feed t0 t1 t2).cur = s.cur := by
  obtain ⟨d, m, e, -⟩ := s.feed_eq t0 t1 t2
  rw [e]

/-- Settles O49: DEC_STEP and DEC_FEED make the same of the triplet, and DEC_STEP then advances. -/
theorem decStepFeedsThePixel : Obligations.DecStepFeedsThePixel := by
  refine ⟨wordN_of_mem (by decide),
    fun s hp => exec_decStep_of_decPixel (State.decPixel_of_not_running (bne_iff_ne.mp hp)), fun s h hl hr => ?_⟩
  have hin := hl.has (h.inside (Status.walkActive_of_dph (DecPhase.active_iff.mpr hr)))
  refine ⟨fun hf => exec_decStep_of_decPixel (State.decPixel_of_found hr hin hf),
    fun hf => exec_decStep_of_decPixel (State.decPixel_of_overflow hr hin hf),
    fun hf => ⟨_, exec_decFeed_of_cont hr hf, ?_⟩⟩
  rw [exec_decStep_of_decPixel (State.decPixel_of_cont hr hin hf)]
  have hcur := s.feed_cur (lsb s.curPixel.r) (lsb s.curPixel.g) (lsb s.curPixel.b)
  generalize s.feed (lsb s.curPixel.r) (lsb s.curPixel.g) (lsb s.curPixel.b) = u at hcur
  obtain ⟨c, hc, hok, e⟩ | ⟨hc, hno, e⟩ := s.advance_cases
  · obtain ⟨c', hc', e'⟩ | ⟨hc', -⟩ := u.afterFeed_cases <;> cases (hcur ▸ hc').symm.trans hc
    rw [e, e', if_pos hok]
    rfl
  · obtain ⟨c', hc', -⟩ | ⟨-, e'⟩ := u.afterFeed_cases
    · cases (hcur ▸ hc').symm.trans hc
    · rw [e', if_neg (Bool.eq_false_iff.mp hno)]
      rfl

/-- Settles O50: the two commands answer the same pixel. -/
theorem decRunIsDecStepWithBusyHeld : Obligations.DecRunIsDecStepWithBusyHeld := by
  have run_of_pixel {s u : State} (hu : s.decPixel = .ok u) :
      exec .decRun s = .next { u.setBusy false with status := { (u.setBusy false).status with
        busy := decide ((u.setBusy false).status.dph = .running) } } := by
    rw [exec_decRun_of_decPixel hu, (Bool.eq_iff_iff.mpr (by simp [DecPhase.active_iff]) :
      u.status.dph.active = decide (u.status.dph = .running))]
    rfl
  refine ⟨wordN_of_mem (by decide), fun s t h => ?_, fun s h hl => ?_⟩
  · obtain ⟨u, b, hu, -, -⟩ := decPixel_of_exec (.inl rfl) h
    cases (exec_decStep_of_decPixel hu).symm.trans h
    exact run_of_pixel hu
  · obtain ⟨u, hu⟩ := h.decPixel_exists hl
    exact ⟨_, exec_decStep_of_decPixel hu, run_of_pixel hu⟩

/-! What the decoder never does (R254). -/

theorem decoderCommand_cases (hi : isDecoderCommand i = true) :
    i = .decStart ∨ (i = .decStep ∨ i = .decRun) ∨ ∃ t0 t1 t2, i = .decFeed t0 t1 t2 := by
  cases i <;> simp [isDecoderCommand] at hi ⊢

/-- `s` with what a decoder command can write taken from `t`: the cursor, ACC, MLEN, MBUF, STATUS but for EQ, LT, IB
and DROP. -/
def State.withDecoderWrites (s t : State) : State :=
  { s with
    cur := t.cur
    dec := t.dec
    mbuf := t.mbuf
    status := { t.status with eq := s.status.eq, lt := s.status.lt, ib := s.status.ib, drop := s.status.drop } }

/-- A decoder command writes no more than that, and DEC_FEED neither the cursor nor EXH. -/
theorem exec_decoder_frame (hi : isDecoderCommand i = true) (h : exec i s = .next t) :
    t = s.withDecoderWrites t ∧
      ((∃ t0 t1 t2, i = .decFeed t0 t1 t2) → t.cur = s.cur ∧ t.status.exh = s.status.exh) := by
  obtain rfl | hp | ⟨t0, t1, t2, rfl⟩ := decoderCommand_cases hi
  · cases h
    obtain ⟨q, c, e, -⟩ := s.decStart_cases
    rw [e]
    exact ⟨rfl, nofun⟩
  · obtain ⟨u, b, hu, rfl, -⟩ := decPixel_of_exec hp h
    obtain ⟨c, d, m, st, rfl, -⟩ := State.decPixel_frame hu
    exact ⟨rfl, by obtain rfl | rfl := hp <;> nofun⟩
  · obtain ⟨-, e⟩ | ⟨-, ⟨-, e⟩ | ⟨-, e⟩ | ⟨-, e⟩⟩ := execDecFeed_cases t0 t1 t2 s <;> cases e.symm.trans h
    · exact ⟨rfl, fun _ => ⟨rfl, rfl⟩⟩
    · exact ⟨rfl, fun _ => ⟨rfl, rfl⟩⟩
    · exact ⟨rfl, fun _ => ⟨rfl, rfl⟩⟩
    · obtain ⟨d, m, e, -⟩ := s.feed_eq t0 t1 t2
      rw [e]
      exact ⟨rfl, fun _ => ⟨rfl, rfl⟩⟩

/-- Settles O53, from what a decoder command can write. -/
theorem decoderCommandsFrame : Obligations.DecoderCommandsFrame := by
  intro i s t hi h
  obtain ⟨-, -, -, hmbuf⟩ := drawsAndBufferWritesByCommand i s t h
  obtain ⟨e, hfeed⟩ := exec_decoder_frame hi h
  refine ⟨?_, ?_, ?_, ?_, ?_, ?_, ?_, ?_, ?_, ?_, ?_, ?_, hfeed, hmbuf⟩ <;> rw [e] <;> rfl

end Sys2Proof.Machine
end

section
/-! SUPPORT. The decode walk: fed bits are reassembled into bytes, and a message in the image's LSBs is recovered
(43_decoder.md R250 to R252). -/

namespace Sys2Proof.Machine

open Sys2Proof.Claims

variable {s t u : State} {bs : List Bool} {k j : Nat}

/-! The flat sequence of fed bits and its bytes (R251). -/

/-- Byte `k` of a flat sequence. -/
def byteOf (bs : List Bool) (k : Nat) : Byte := BitVec.ofNat 8 (fold ((bs.drop (8 * k)).take 8))

theorem byteOf_toNat (bs : List Bool) (k : Nat) : (byteOf bs k).toNat = fold ((bs.drop (8 * k)).take 8) :=
  toNat_ofNat_fold (List.length_take_le _ _)

/-- A byte that is complete stays as it is. -/
theorem byteOf_append (h : 8 * (k + 1) ≤ bs.length) (l : List Bool) : byteOf (bs ++ l) k = byteOf bs k := by
  rw [byteOf, List.drop_append_of_le_length (by omega), List.take_append_of_le_length (by simp; omega), byteOf]

theorem flat_length (ts : List (Bool × Bool × Bool)) : (flat ts).length = 3 * ts.length := by
  induction ts with
  | nil => rfl
  | cons t ts ih => simp only [flat, List.length_cons, ih, Nat.mul_succ]

/-- The decoder has been fed `bs`: MBUF holds its first MLEN bytes and ACC the bits after them, at least the last
triplet (the one-pixel delay of R250). -/
structure Reassembled (bs : List Bool) (s : State) : Prop where
  acc : s.dec.Holds (bs.drop (8 * s.dec.mlen.toNat))
  behind : 8 * s.dec.mlen.toNat ≤ bs.length - 3
  bytes : ∀ k, k < s.dec.mlen.toNat → Memory.read .mbuf s.mbuf k = some (byteOf bs k)
  room : s.dec.mlen.toNat ≤ s.params.mbufMax

theorem Reassembled.start (h : s.dec = { accV := 0, accLen := 0, spillV := 0, spillLen := 0, mlen := 0 }) :
    Reassembled [] s := by
  have h0 : s.dec.mlen.toNat = 0 := by rw [h]; rfl
  refine ⟨?_, by omega, fun k hk => by omega, by omega⟩
  rw [h]
  exact ⟨rfl, rfl, rfl, rfl, Nat.zero_le _⟩

theorem Reassembled.full_iff (h : Reassembled bs s) :
    s.dec.accLen = 8#4 ↔ 8 * (s.dec.mlen.toNat + 1) ≤ bs.length := by
  have hb := h.behind
  rw [h.acc.accLen_eq_eight, List.length_drop]
  omega

theorem Reassembled.accV_eq (h : Reassembled bs s) : s.dec.accV = byteOf bs s.dec.mlen.toNat :=
  BitVec.eq_of_toNat_eq (h.acc.accV.trans (byteOf_toNat _ _).symm)

/-- A feed that goes on adds its triplet to the sequence. -/
theorem Reassembled.feed (h : Reassembled bs s) (hc : s.feedOut = .cont) (t0 t1 t2 : Bool) :
    Reassembled (bs ++ [t0, t1, t2]) (s.feed t0 t1 t2) := by
  have hb := h.behind
  have hroom := h.room
  have hlen : (bs ++ [t0, t1, t2]).length = bs.length + 3 := List.length_append
  have hkeep (k : Nat) (hk : k < s.dec.mlen.toNat) :
      Memory.read .mbuf s.mbuf k = some (byteOf (bs ++ [t0, t1, t2]) k) := by
    rw [h.bytes k hk, byteOf_append (by omega)]
  by_cases h8 : s.dec.accLen = 8#4
  · have hfull := h.full_iff.mp h8
    have hlt : s.dec.mlen.toNat < s.params.mbufMax := Nat.lt_of_le_of_ne hroom (s.feedOut_eq.2.2.mp hc h8).2
    have hm : (s.dec.nextByte t0 t1 t2).mlen.toNat = s.dec.mlen.toNat + 1 := State.mlen_add_one hlt
    have hacc := h.acc.nextByte (h.acc.accLen_eq_eight.mp h8) t0 t1 t2
    rw [List.drop_drop, ← List.drop_append_of_le_length (by omega)] at hacc
    rw [State.feed_of_full h8]
    refine ⟨?_, ?_, fun k hk => ?_, ?_⟩
    · dsimp only
      rw [hm]
      exact hacc
    · dsimp only
      omega
    · dsimp only at hk ⊢
      by_cases hk' : k = s.dec.mlen.toNat
      · rw [hk', Memory.read_write_mbuf_same, h.accV_eq, byteOf_append hfull]
      · rw [Memory.read_write_other _ _ hk']
        exact hkeep k (by omega)
    · exact hm.trans_le hlt
  · have hpart := mt h.full_iff.mpr h8
    have hm := Decoder.pushTriplet_mlen t0 t1 t2 s.dec
    have hacc := h.acc.pushTriplet (by rw [List.length_drop]; omega) t0 t1 t2
    rw [← List.drop_append_of_le_length (by omega)] at hacc
    rw [State.feed_of_partial h8]
    refine ⟨?_, ?_, ?_, ?_⟩ <;> dsimp only <;> rw [hm]
    · exact hacc
    · omega
    · exact hkeep
    · exact hroom

theorem Reassembled.feedAll {ts : List (Bool × Bool × Bool)} (h : Reassembled bs s) (hf : feedAll ts s = some t) :
    Reassembled (bs ++ flat ts) t := by
  induction ts generalizing bs s with
  | nil =>
    cases hf
    rwa [flat, List.append_nil]
  | cons p ts ih =>
    obtain ⟨t0, t1, t2⟩ := p
    rw [Claims.feedAll] at hf
    split at hf
    · next hc =>
      have := ih (h.feed hc t0 t1 t2) hf
      rwa [List.append_assoc] at this
    · cases hf
    · cases hf

/-- Settles O51, by induction on the triplets. -/
theorem fedBitsAreReassembled : Obligations.FedBitsAreReassembled := by
  intro s t ts h0 hf
  have h := (Reassembled.start h0).feedAll hf
  rw [List.nil_append] at h
  have hb := h.behind
  have hacc := h.acc.accLen
  have hspill := h.acc.spillLen
  have hlen := flat_length ts
  rw [List.length_drop] at hacc hspill
  refine ⟨by omega, fun k hk => ⟨_, h.bytes k hk, byteOf_toNat _ _⟩, ?_, ?_⟩
  · rw [h.acc.accV, h.acc.accLen, ← List.take_eq_take_min]
  · rw [h.acc.spillV, h.acc.accLen, List.drop_eq_drop_min, List.drop_drop]

/-! A message in the LSBs of an image, and the walk over it (R250, R252). -/

/-- The LSBs of the open image hold the bytes `c` and the terminator, in the encoder's order (42_encoder.md R208). -/
def State.Embeds (c : List Byte) (s : State) : Prop :=
  ∀ x y : Coord, x.toNat < s.cur.wl.toNat → y.toNat < s.cur.hl.toNat → ∀ k, k < 3 →
    3 * linear s.cur.wl x y + k < payloadBits c.length →
    lsb (channel (s.image.pixRead x y) k) = flatBit c s.params.terminator (3 * linear s.cur.wl x y + k)

/-- The sequence agrees with the payload of `c` as far as both reach. -/
def Carries (c : List Byte) (term : Byte) (bs : List Bool) : Prop :=
  ∀ (i : Nat) (hi : i < bs.length), i < payloadBits c.length → bs[i] = flatBit c term i

/-- Then so do its complete bytes. -/
theorem Carries.byteOf_eq {c : List Byte} {term : Byte} (h : Carries c term bs) (hk : 8 * (k + 1) ≤ bs.length)
    (hc : k ≤ c.length) : byteOf bs k = (c ++ [term]).getD k 0 := by
  have hlen : ((bs.drop (8 * k)).take 8).length = 8 := by simp; omega
  refine BitVec.eq_of_toNat_eq ((byteOf_toNat _ _).trans (fold_eq_toNat hlen fun i hi => ?_))
  rw [List.getElem_take, List.getElem_drop, h _ _ (by rw [payloadBits]; omega), flatBit,
    (by omega : (8 * k + i) / 8 = k), (by omega : (8 * k + i) % 8 = i)]

/-- The state `t` of the walk from `s` with the bits `bs` behind it: RUNNING with BUSY held, one triplet of bits for
each pixel behind, and what no pixel changes. -/
structure Decoding (s : State) (c : List Byte) (bs : List Bool) (t : State) : Prop where
  params : t.params = s.params
  cmdr : t.cmdr = s.cmdr
  moves : t.env.moves = s.env.moves
  image : t.image = s.image
  wl : t.cur.wl = s.cur.wl
  hl : t.cur.hl = s.cur.hl
  running : t.status.dph = .running
  busy : t.status.busy = true
  inside : t.cur.Inside
  index : bs.length = 3 * t.cur.index
  carries : Carries c s.params.terminator bs
  fed : Reassembled bs t

variable {c : List Byte}

theorem Decoding.start (hr : s.status.dph = .running) (hb : s.status.busy = true) (hin : s.cur.Inside)
    (hx : s.cur.x = 0) (hy : s.cur.y = 0)
    (hd : s.dec = { accV := 0, accLen := 0, spillV := 0, spillLen := 0, mlen := 0 }) : Decoding s c [] s where
  params := rfl
  cmdr := rfl
  moves := rfl
  image := rfl
  wl := rfl
  hl := rfl
  running := hr
  busy := hb
  inside := hin
  index := by simp [Cursor.index, linear, hx, hy]
  carries i hi := by cases hi
  fed := .start hd

/-- The triplet of the cursor's pixel carries the payload on. -/
theorem Decoding.carries_triplet (h : Decoding s c bs t) (he : s.Embeds c) :
    Carries c s.params.terminator (bs ++ [lsb t.curPixel.r, lsb t.curPixel.g, lsb t.curPixel.b]) := by
  intro i hi hp
  by_cases hlt : i < bs.length
  · rw [List.getElem_append_left hlt]
    exact h.carries i hlt hp
  · obtain ⟨k, rfl⟩ := Nat.exists_eq_add_of_le (Nat.le_of_not_lt hlt)
    have hk : k < 3 := by simpa using hi
    have hidx : 3 * linear s.cur.wl t.cur.x t.cur.y = bs.length := by rw [← h.wl]; exact h.index.symm
    have hbit := he t.cur.x t.cur.y (h.wl ▸ h.inside.1) (h.hl ▸ h.inside.2) k hk (by rwa [hidx])
    rw [hidx, ← h.image] at hbit
    rw [← hbit, List.getElem_append_right (Nat.le_add_right _ _)]
    obtain rfl | rfl | rfl : k = 0 ∨ k = 1 ∨ k = 2 := by omega
    · simp [channel, State.curPixel]
    · simp [channel, State.curPixel]
    · simp [channel, State.curPixel]

theorem Decoding.size_eq (h : Decoding s c bs t) : t.cur.size = s.cur.size := Cursor.size_congr h.wl h.hl

theorem Decoding.has (h : Decoding s c bs t) (hl : s.imageLatched) : t.image.has t.cur.x t.cur.y = true :=
  State.imageLatched.has ⟨by rw [h.image, h.wl, hl.1], by rw [h.image, h.hl, hl.2]⟩ h.inside

section

variable (hcmd : decode s.cmdr = .ok .decRun) (hm : s.env.moves = [])
include hcmd hm

/-- A step of DEC_RUN in the walk is one pixel of it. -/
theorem Decoding.step_eq (h : Decoding s c bs t) (hu : t.decPixel = .ok u) :
    step t = .next (u.setBusy u.status.dph.active) := by
  rw [step_of_no_moves (h.moves.trans hm), sequencerTurn_of_busy h.busy, seqStep_of_decode (h.cmdr ▸ hcmd),
    exec_decRun_of_decPixel hu]

/-- A pixel whose triplet is fed takes the walk to the next one, if there is one. -/
theorem Decoding.next (h : Decoding s c bs t) (hl : s.imageLatched) (he : s.Embeds c) (hf : t.feedOut = .cont)
    (hlt : t.cur.index + 1 < s.cur.size) :
    ∃ u, step t = .next u ∧ u.cur.index = t.cur.index + 1 ∧
      Decoding s c (bs ++ [lsb t.curPixel.r, lsb t.curPixel.g, lsb t.curPixel.b]) u := by
  have hstep := h.step_eq hcmd hm (State.decPixel_of_cont h.running (h.has hl) hf)
  have hfed := h.fed.feed hf (lsb t.curPixel.r) (lsb t.curPixel.g) (lsb t.curPixel.b)
  obtain ⟨d, m, e, -⟩ := t.feed_eq (lsb t.curPixel.r) (lsb t.curPixel.g) (lsb t.curPixel.b)
  rw [e] at hstep hfed
  obtain ⟨c', hc', e'⟩ | ⟨hc', -⟩ := State.afterFeed_cases { t with dec := d, mbuf := m }
  · obtain ⟨hw, hh, -, hin⟩ := Cursor.next_some hc'
    obtain ⟨hx, hy, hidx⟩ := hin h.inside.1 h.inside.2
    have hidx : c'.index = t.cur.index + 1 := hidx
    rw [e'] at hstep
    refine ⟨_, hstep, hidx, h.params, h.cmdr, h.moves, h.image, hw.trans h.wl, hh.trans h.hl, h.running, ?_,
      ⟨hx, hy⟩, ?_, h.carries_triplet he, ⟨hfed.acc, hfed.behind, hfed.bytes, hfed.room⟩⟩
    · exact DecPhase.active_iff.mpr h.running
    · rw [List.length_append, h.index]
      exact congrArg (3 * ·) hidx.symm
  · have hlast : t.cur.index + 1 = t.cur.size := (Cursor.next_none hc' h.inside.1 h.inside.2).2.2
    rw [h.size_eq] at hlast
    omega

end

/-- The walk from `s` has ended FOUND at the pixel after those of the first `j + 1` bytes, with the first `j`
in MBUF. -/
structure Recovered (s : State) (c : List Byte) (j : Nat) (t : State) : Prop where
  dph : t.status.dph = .found
  result : t.status.result = .found
  busy : t.status.busy = false
  mlen : t.dec.mlen.toNat = j
  bytes : ∀ k, k < j → Memory.read .mbuf t.mbuf k = some (c.getD k 0)
  image : t.image = s.image
  index : linear s.cur.wl t.cur.x t.cur.y = payloadPixels (payloadBits j)

section

variable (hj : (c ++ [s.params.terminator])[j]? = some s.params.terminator)
include hj

theorem length_ge_of_terminator_at : j ≤ c.length := by
  obtain ⟨hlt, -⟩ := List.getElem?_eq_some_iff.mp hj
  simpa [Nat.lt_succ_iff] using hlt

/-- A complete byte before the first that equals TERMINATOR is of `c`. -/
theorem Decoding.byteOf_eq (h : Decoding s c bs t) (hk : 8 * (k + 1) ≤ bs.length) (hkj : k < j) :
    byteOf bs k = c.getD k 0 ∧ byteOf bs k ∈ c.take j := by
  have hjc := length_ge_of_terminator_at hj
  have hkc : k < c.length := by omega
  have hb := h.carries.byteOf_eq hk hkc.le
  rw [List.getD_append _ _ _ _ hkc] at hb
  refine ⟨hb, ?_⟩
  rw [hb, List.getD_eq_getElem _ _ hkc]
  exact List.mem_take_iff_getElem.mpr ⟨k, by omega, rfl⟩

/-- Before bit `8 * (j + 1)` nothing ends the walk: no byte before byte `j` equals TERMINATOR, and MBUF has room. -/
theorem Decoding.feedOut_cont (hfirst : s.params.terminator ∉ c.take j) (hroom : j ≤ s.params.mbufMax)
    (h : Decoding s c bs t) (hlt : bs.length < 8 * (j + 1)) : t.feedOut = .cont := by
  refine t.feedOut_eq.2.2.mpr fun h8 => ?_
  have hfull := h.fed.full_iff.mp h8
  have hmem := (h.byteOf_eq hj hfull (by omega)).2
  rw [h.fed.accV_eq, h.params]
  exact ⟨fun heq => hfirst (heq ▸ hmem), by omega⟩

/-- Past it byte `j` is the one in the accumulator, and is found. -/
theorem Decoding.feedOut_found (h : Decoding s c bs t) (hge : 8 * (j + 1) ≤ bs.length)
    (hle : bs.length ≤ 8 * (j + 1) + 2) : t.feedOut = .found ∧ t.dec.mlen.toNat = j := by
  have hroom := h.fed.acc.room
  have hbehind := h.fed.behind
  rw [List.length_drop] at hroom
  have hmlen : t.dec.mlen.toNat = j := by omega
  have hbyte := h.carries.byteOf_eq hge (length_ge_of_terminator_at hj)
  rw [List.getD_eq_getElem?_getD, hj, Option.getD_some] at hbyte
  refine ⟨t.feedOut_eq.1.mpr ⟨h.fed.full_iff.mpr (hmlen ▸ hge), ?_⟩, hmlen⟩
  rw [h.fed.accV_eq, hmlen, hbyte, h.params]

variable (hl : s.imageLatched) (hcmd : decode s.cmdr = .ok .decRun) (hm : s.env.moves = [])
include hl hcmd hm

/-- The walk ends at the pixel after those of byte `j`. -/
theorem Decoding.found (h : Decoding s c bs t) (hk : t.cur.index = payloadPixels (payloadBits j)) :
    ∃ u, step t = .next u ∧ Recovered s c j u := by
  have hlen := h.index
  rw [hk, payloadPixels, payloadBits] at hlen
  obtain ⟨hf, hmlen⟩ := h.feedOut_found hj (by omega) (by omega)
  refine ⟨_, h.step_eq hcmd hm (State.decPixel_of_found h.running (h.has hl) hf), rfl, rfl, rfl, hmlen,
    fun k hkj => ?_, h.image, h.wl ▸ hk⟩
  exact (h.fed.bytes k (hmlen ▸ hkj)).trans (congrArg some (h.byteOf_eq hj (by omega) hkj).1)

/-- DEC_RUN `k` pixels before that one ends the walk in `k + 1` steps. -/
theorem Decoding.run (he : s.Embeds c) (hfirst : s.params.terminator ∉ c.take j) (hroom : j ≤ s.params.mbufMax)
    (hsize : payloadPixels (payloadBits j) + 1 ≤ s.cur.size) (k : Nat) (h : Decoding s c bs t)
    (hk : t.cur.index + k = payloadPixels (payloadBits j)) :
    ∃ u, Sys2Proof.core.run (k + 1) t = .next u ∧ Recovered s c j u := by
  induction k generalizing bs t with
  | zero =>
    obtain ⟨u, hs, hu⟩ := h.found hj hl hcmd hm hk
    exact ⟨u, run_succ_of_next 0 hs, hu⟩
  | succ k ih =>
    have hlen := h.index
    have hbefore : bs.length < 8 * (j + 1) := by
      rw [payloadPixels, payloadBits] at hk
      omega
    obtain ⟨u, hs, hidx, hu⟩ :=
      h.next hcmd hm hl he (h.feedOut_cont hj hfirst hroom hbefore) (by omega)
    obtain ⟨v, hv, hrec⟩ := ih hu (by omega)
    exact ⟨v, (run_succ_of_next _ hs).trans hv, hrec⟩

end

/-- Settles O52, by induction on the pixels before the one where byte `j` is found. -/
theorem embeddedMessageIsRecovered : Obligations.EmbeddedMessageIsRecovered := by
  intro s c j h hl hr hd hx hy hb hm hc hj hfirst hroom hsize he
  have hcmd : decode s.cmdr = .ok .decRun := by rw [hc]; decide
  have hin := h.inside (Status.walkActive_of_dph (DecPhase.active_iff.mpr hr))
  obtain ⟨t, hrun, ht⟩ := (Decoding.start hr hb hin hx hy hd).run hj hl hcmd hm he hfirst hroom hsize
    (payloadPixels (payloadBits j)) (by simp [Cursor.index, linear, hx, hy])
  exact ⟨t, hrun, ht.dph, ht.result, ht.busy, ht.mlen, ht.bytes, ht.image, ht.index⟩

end Sys2Proof.Machine
end

section
/-! SUPPORT. The control commands (44_control.md): NOP is the one command that does no more than set RESULT to OK in
every state, and SOFT_RESET. -/

namespace Sys2Proof.Machine

open Sys2Proof.Claims

/-- The reset state with `w` in CMDR, BUSY = 1 and DPH = RUNNING. No register of the Byte unit is written, no image
is open, and a decode walk is active, so every command but NOP shows here that it does something else. -/
def State.freshDecode (w : Word) : State :=
  { State.reset with cmdr := w, status := { Status.zero with busy := true, dph := .running } }

/-- In that state a command that does what NOP does is NOP: a Byte unit command writes a mark or records the read of
an UNSPEC register, a cursor command and a step of the encoder end with ERR_SEQ, a start and SOFT_RESET end the walk,
a step of the decoder meets no pixel, and DEC_FEED feeds three bits. -/
theorem eq_nop_of_exec_freshDecode {w : Word} {i : Instr} (hwf : i.wf = true)
    (h : exec i (.freshDecode w) =
      .next { State.freshDecode w with status := ended (State.freshDecode w).status .ok }) : i = .nop := by
  cases i with
  | nop => rfl
  | byteNew v => cases (exec_marks h).1.mpr (.inr (.inl ⟨v, rfl⟩))
  | seqLoad len seq => cases (exec_marks h).2.1.mpr (.inr (.inr ⟨len, seq, rfl, hwf⟩))
  | byteStoreBit _ | byteStoreRandomBit | byteToSeq | byteFromSeq | byteFromSeqBounded | byteFromStr | byteToStr
  | byteCmp _ => cases exec_record h
  | curInit | curAdvance | curInBoundsX _ | curInBoundsY _ | curCapacity | encStep | encRun => cases h
  | encStart =>
    obtain ⟨-, e⟩ | ⟨-, p, c, e, -⟩ := (State.freshDecode w).encStart_cases <;> cases (congrArg _ e).symm.trans h
  | decStart | decStep | decRun | softReset => cases h
  | decFeed t0 t1 t2 =>
    have hlen : 3#4 = 0#4 := congrArg (fun t => t.dec.accLen) (Host.Outcome.next.inj h)
    cases hlen

/-- Settles O20: the word is of format N, and by `State.freshDecode` no illegal word and no other command does only
what NOP does. -/
theorem nopSetsResultOk : Obligations.NopSetsResultOk := by
  refine ⟨wordN_of_mem (by decide), rfl, fun _ => rfl, fun w h => ?_⟩
  have hstep := h (.freshDecode w) rfl rfl rfl
  cases hd : decode w with
  | error e =>
    have hill : ∀ i, decode (State.freshDecode w).cmdr ≠ .ok i := fun i hi => by cases hd.symm.trans hi
    cases (seqStep_of_illegal hill).symm.trans hstep
  | ok i =>
    obtain ⟨rfl, hwf⟩ := decode_eq_ok_iff.mp hd
    have hrun := (stepRunsTheDecodedCommand.1 (.freshDecode (encode i)) i rfl hd).1 rfl
    rw [eq_nop_of_exec_freshDecode hwf (hrun.symm.trans hstep)]
    rfl

/-- Settles O21: the word is of format N, the step clears what it names, and a CMD write while BUSY = 1 is dropped
whatever the word (10_state.md R39). -/
theorem softResetClearsTheWalkState : Obligations.SoftResetClearsTheWalkState :=
  ⟨wordN_of_mem (by decide), fun _ => ⟨Status.zero, Status.word_zero, rfl⟩,
    fun s ms hm => (commandWriteIssuesOrDrops s _ ms hm).2⟩

end Sys2Proof.Machine
end

section
/-! SUPPORT. The phases of the two walks: a command outside its phase, and how a walk that has ended is left
(60_exceptions.md R284, R286). -/

namespace Sys2Proof.Machine

open Sys2Proof.Claims

variable {i : Instr} {s t : State}

/-- Settles O38, by the phase check that each kind of command makes before anything else. -/
theorem commandsOutOfPhaseGiveErrSeq : Obligations.CommandsOutOfPhaseGiveErrSeq := by
  rintro i s (⟨hi, hw⟩ | ⟨hi, hnpay, hnpad⟩ | ⟨rfl | rfl | ⟨t0, t1, t2, rfl⟩, hr⟩)
  · exact outOfPhase_of_isCursorCommand hi s hw
  · have ha : s.status.eph.active = false :=
      Bool.eq_false_iff.mpr fun h => (EncPhase.active_iff.mp h).elim hnpay hnpad
    have hpix := State.encPixel_of_not_active ha
    obtain rfl | rfl := hi
    · exact exec_encStep_of_encPixel hpix
    · rw [exec_encRun_of_encPixel hpix, State.finish_status, ha]
      rfl
  · exact exec_decStep_of_decPixel (State.decPixel_of_not_running hr)
  · rw [exec_decRun_of_decPixel (State.decPixel_of_not_running hr), State.finish_status,
      Bool.eq_false_iff.mpr (mt DecPhase.active_iff.mp hr)]
    rfl
  · exact exec_decFeed_of_not_running hr

/-- A phase of no active walk in `s` is the same in `t`. -/
structure KeepsInactivePhases (s t : State) : Prop where
  eph : s.status.eph.active = false → t.status.eph = s.status.eph
  dph : s.status.dph.active = false → t.status.dph = s.status.dph

theorem KeepsInactivePhases.of_eq (he : t.status.eph = s.status.eph) (hd : t.status.dph = s.status.dph) :
    KeepsInactivePhases s t := ⟨fun _ => he, fun _ => hd⟩

/-- ENC_STEP and ENC_RUN move EPH only where an encode walk is active, and never DPH (42_encoder.md R203, R205). -/
theorem exec_encPixel_phases (hi : i = .encStep ∨ i = .encRun) (h : exec i s = .next t) : KeepsInactivePhases s t := by
  obtain ⟨u, b, hu, rfl, -⟩ := encPixel_of_exec hi h
  constructor
  case eph =>
    intro ha
    cases (State.encPixel_of_not_active ha).symm.trans hu
    rfl
  case dph =>
    obtain ⟨c, n, st, img, rfl, -⟩ := State.encPixel_frame hu
    exact fun _ => rfl

/-- DEC_STEP and DEC_RUN move DPH only where a decode walk is active, and never EPH (43_decoder.md R247). -/
theorem exec_decPixel_phases (hi : i = .decStep ∨ i = .decRun) (h : exec i s = .next t) : KeepsInactivePhases s t := by
  obtain ⟨u, b, hu, rfl, -⟩ := decPixel_of_exec hi h
  constructor
  case eph =>
    obtain ⟨c, d, m, st, rfl, -⟩ := State.decPixel_frame hu
    exact fun _ => rfl
  case dph =>
    intro ha
    have hr : s.status.dph ≠ .running := fun hr => by rw [hr] at ha; cases ha
    cases (State.decPixel_of_not_running hr).symm.trans hu
    rfl

/-- DEC_FEED likewise (R249). -/
theorem execDecFeed_phases {t0 t1 t2 : Bool} (h : execDecFeed t0 t1 t2 s = .next t) : KeepsInactivePhases s t := by
  obtain ⟨-, e⟩ | ⟨hr, ⟨-, e⟩ | ⟨-, e⟩ | ⟨-, e⟩⟩ := execDecFeed_cases t0 t1 t2 s <;> cases e.symm.trans h
  · exact .of_eq rfl rfl
  · exact ⟨fun _ => rfl, fun ha => by rw [hr] at ha; cases ha⟩
  · exact ⟨fun _ => rfl, fun ha => by rw [hr] at ha; cases ha⟩
  · obtain ⟨d, m, e, -⟩ := s.feed_eq t0 t1 t2
    rw [e]
    exact .of_eq rfl rfl

/-- A command other than ENC_START, DEC_START and SOFT_RESET moves a phase only where its walk is active. -/
theorem exec_phases (hr : isPhaseReset i = false) (h : exec i s = .next t) : KeepsInactivePhases s t := by
  cases hb : isByteCommand i with
  | true =>
    rw [(exec_byte_frame hb h).1]
    exact .of_eq rfl rfl
  | false =>
    cases i with
    | nop => cases h; exact .of_eq rfl rfl
    | curInit => cases h; split_ifs <;> exact .of_eq rfl rfl
    | curAdvance =>
      cases h
      obtain ⟨c, -, -, e⟩ | ⟨-, -, e⟩ := s.advance_cases <;> rw [e] <;> split_ifs <;> exact .of_eq rfl rfl
    | curInBoundsX _ | curInBoundsY _ | curCapacity => cases h; split <;> exact .of_eq rfl rfl
    | encStep => exact exec_encPixel_phases (.inl rfl) h
    | encRun => exact exec_encPixel_phases (.inr rfl) h
    | decStep => exact exec_decPixel_phases (.inl rfl) h
    | decRun => exact exec_decPixel_phases (.inr rfl) h
    | decFeed t0 t1 t2 => exact execDecFeed_phases h
    | encStart | decStart | softReset => cases hr
    | _ => cases hb

/-- No host write moves a phase: a CMD write touches BUSY or DROP (10_state.md R39), any other no part of STATUS. -/
theorem State.writeTarget_phases (s : State) (w : Word) (a : Target) : KeepsInactivePhases s (s.writeTarget w a) := by
  cases a with
  | reg r =>
    cases r with
    | cmd =>
      simp only [State.writeTarget, State.writeReg, State.issue]
      split <;> exact .of_eq rfl rfl
    | _ => exact .of_eq rfl rfl
  | pbuf j =>
    obtain ⟨m, e⟩ := s.writeTarget_pbuf_eq w j
    rw [e]
    exact .of_eq rfl rfl
  | mbuf _ | reserved => exact .of_eq rfl rfl

/-- A step is a reset event, runs ENC_START, DEC_START or SOFT_RESET, or moves a phase only where its walk is active. -/
theorem step_phases (h : step s = .next t) :
    ((∃ ms, s.env.moves = .reset :: ms) ∨
        (s.status.busy = true ∧ ∃ i, decode s.cmdr = .ok i ∧ isPhaseReset i = true)) ∨
      KeepsInactivePhases s t := by
  obtain ⟨ms, ⟨hb, hq⟩ | rfl | ⟨w, rfl⟩ | ⟨w, a, rfl⟩ | ⟨hm, -⟩ | ⟨-, img, -, rfl⟩ | ⟨p, rfl⟩⟩ := step_cases h
  · obtain ⟨-, rfl⟩ | ⟨i, hd, hi⟩ := seqStep_cases hq
    · exact .inr (.of_eq rfl rfl)
    · cases hr : isPhaseReset i with
      | true => exact .inl (.inr ⟨hb, i, hd, hr⟩)
      | false =>
        obtain ⟨heph, hdph⟩ := exec_phases hr hi
        exact .inr ⟨heph, hdph⟩
  · exact .inr (.of_eq rfl rfl)
  · exact .inr (.of_eq rfl rfl)
  · obtain ⟨heph, hdph⟩ := (s.setMoves ms).writeTarget_phases w (target s.params a)
    exact .inr ⟨heph, hdph⟩
  · exact .inl (.inl hm)
  · exact .inr (.of_eq rfl rfl)
  · exact .inr (.of_eq rfl rfl)

/-- Settles O56: a walk that has ended is not active, so only the steps that `step_phases` names move its phase. -/
theorem endedWalksStayEnded : Obligations.EndedWalksStayEnded := by
  intro s t h
  obtain hreset | hkeep := step_phases h
  · exact ⟨fun _ _ => hreset, fun _ _ => hreset⟩
  · refine ⟨fun hend hne => absurd (hkeep.eph ?_) hne, fun hend hne => absurd (hkeep.dph ?_) hne⟩
    · obtain e | e := hend <;> rw [e] <;> rfl
    · obtain e | e | e := hend <;> rw [e] <;> rfl

end Sys2Proof.Machine
end
